-- ==== Sys2Proof/Word.lean ====
section
/-! DEFINITION. The word types of the SEG7 display core: one name for each width that the spec gives a
meaning of its own. -/

namespace Sys2Proof

/-- An 8-bit character code (30_encoding.md R56). -/
abbrev CharCode := BitVec 8

/-- A segment set as a mask, bit 0 = A up to bit 6 = G, bit 7 = DOT (30_encoding.md R57, 40_encoder.md R68). -/
abbrev SegMask := BitVec 8

/-- The four digit-select lines, bit p selects DigitPosition p (30_encoding.md R58). -/
abbrev DigMask := BitVec 4

/-- A command word as it stands on `cmd_word` (30_encoding.md R59). -/
abbrev CmdWord := BitVec 24

/-- A DigitPosition, 0 leftmost (20_memory.md R42). -/
abbrev DigitPos := Fin 4

/-- A frame value: exactly four character codes, index 0 leftmost (00_scope.md R11). -/
abbrev Frame := Vector CharCode 4

/-- A glyph table: one segment mask for every 8-bit code, none missing (40_encoder.md R71, 20_memory.md R41). -/
abbrev GlyphTable := Vector SegMask 256

end Sys2Proof
end

