-- ==== Sys2Proof/Config.lean ====
section
/-! DEFINITION. What an implementation of the SEG7 display core fixes for the lifetime of the block
(00_scope.md R6, 10_state.md R37), and the free values: constants without a body, so that nothing can be
proved about what they are. -/

namespace Sys2Proof

/-- The parameters of 00_scope.md R6. `BLANK_CHAR` is fixed there and is `blankChar` (Machine/Glyph.lean).
The polarity parameters act outside the block (10_state.md R15). -/
structure Config where
  /-- TB_CYCLES: clock cycles per timebase strobe, at least 1 (OPEN). -/
  tbCycles : Nat
  /-- WORD_MAX: capacity of the word buffer in characters, 1..124. -/
  wordMax : Nat
  /-- HAS_CLOCK: the Clock strategy is present (00_scope.md R3). -/
  hasClock : Bool
  /-- GLYPH: the glyph table (OPEN, bound by 40_encoder.md R71 to R76). -/
  glyph : GlyphTable
  /-- DWELL_RST. -/
  dwellRst : BitVec 16
  /-- BLINK_IVL_RST. -/
  blinkIvlRst : BitVec 16
  /-- SCROLL_IVL_RST. -/
  scrollIvlRst : BitVec 16
  /-- CLOCK_IVL_RST. -/
  clockIvlRst : BitVec 16
  /-- SEG_ACTIVE_LOW: inversion of `seg` at the pads (OPEN). -/
  segActiveLow : Bool
  /-- DIG_ACTIVE_LOW: inversion of `dig` at the pads (OPEN). -/
  digActiveLow : Bool
deriving DecidableEq, Repr

/-- FREE VALUE: what the pin `tod_hour` carries in a cycle for which no input sample is listed, by cycle
number (DESIGN CHOICE, notes/assumptions/4.md). -/
opaque Config.freeTodHour : Nat → BitVec 5

/-- FREE VALUE: the same for `tod_min` (DESIGN CHOICE, notes/assumptions/4.md). -/
opaque Config.freeTodMin : Nat → BitVec 6

/-- FREE VALUE: the same for `enc_in` (DESIGN CHOICE, notes/assumptions/4.md). -/
opaque Config.freeEncIn : Nat → CharCode

/-- FREE VALUE: what a read of WORD at an index outside the array would give; no state of the invariant
makes such a read (10_state.md R27; DESIGN CHOICE, notes/assumptions/7.md). -/
opaque Config.freeWordByte : Nat → CharCode

end Sys2Proof
end

