-- ==== Sys2Proof/Machine/Glyph.lean ====
section
/-! DEFINITION. The SegmentEncoder: the glyph lookup, the supported character set, the constraints every
glyph table meets, the reference table GLYPH_REF, and the parameter values of the spec (40_encoder.md,
00_scope.md R6). -/

namespace Sys2Proof.Machine

/-- `BLANK_CHAR`, fixed (00_scope.md R6). -/
def blankChar : CharCode := 0x20

/-- `BLANK4` (00_scope.md R11). -/
def blank4 : Frame := #v[blankChar, blankChar, blankChar, blankChar]

/-- `GLYPH(c)`, the lookup by the full 8-bit code (20_memory.md R41, 40_encoder.md R69). -/
def glyphAt (g : GlyphTable) (c : CharCode) : SegMask := g[c.toNat]'c.isLt

/-- The code in upper case: the letters 0x61..0x7A become 0x41..0x5A (40_encoder.md R72). -/
def foldCase (c : CharCode) : CharCode :=
  if 0x61 ≤ c.toNat ∧ c.toNat ≤ 0x7A then c - 0x20 else c

/-- The letters outside the supported set: K, M, Q, V, W, X (40_encoder.md R73). -/
def unsupportedLetters : List CharCode := [0x4B, 0x4D, 0x51, 0x56, 0x57, 0x58]

/-- The supported set: 20 letters in both cases, the digits, the dot and the space (40_encoder.md R73). -/
def supported (c : CharCode) : Bool :=
  let u := foldCase c
  (decide (0x41 ≤ u.toNat ∧ u.toNat ≤ 0x5A) && !unsupportedLetters.contains u)
    || decide (0x30 ≤ c.toNat ∧ c.toNat ≤ 0x39) || c == 0x2E || c == 0x20

/-- Letters are case-insensitive (40_encoder.md R72). -/
abbrev GlyphCaseInsensitive (g : GlyphTable) : Prop :=
  ∀ k : Fin 26, glyphAt g (BitVec.ofNat 8 (0x41 + k.val + 0x20)) = glyphAt g (BitVec.ofNat 8 (0x41 + k.val))

/-- Every unsupported code is blank (40_encoder.md R73). -/
abbrev GlyphBlankOutside (g : GlyphTable) : Prop :=
  ∀ n : Fin 256, supported (BitVec.ofNat 8 n.val) = false → glyphAt g (BitVec.ofNat 8 n.val) = 0x00

/-- The constraints the spec puts on GLYPH (40_encoder.md R72 to R76); that every code has an entry (R71)
is the type's. -/
abbrev GlyphLegal (g : GlyphTable) : Prop :=
  GlyphCaseInsensitive g ∧ GlyphBlankOutside g ∧ glyphAt g blankChar = 0x00
    ∧ glyphAt g 0x31 = glyphAt g 0x49 ∧ glyphAt g 0x30 ≠ glyphAt g 0x4F

/-- The rows of GLYPH_REF for upper-case codes (40_encoder.md R79). -/
def glyphRefUpper (n : Nat) : SegMask :=
  match n with
  | 0x2E => 0x80
  | 0x30 => 0x3F
  | 0x31 => 0x06
  | 0x32 => 0x5B
  | 0x33 => 0x4F
  | 0x34 => 0x66
  | 0x35 => 0x6D
  | 0x36 => 0x7D
  | 0x37 => 0x07
  | 0x38 => 0x7F
  | 0x39 => 0x6F
  | 0x41 => 0x77
  | 0x42 => 0x7C
  | 0x43 => 0x39
  | 0x44 => 0x5E
  | 0x45 => 0x79
  | 0x46 => 0x71
  | 0x47 => 0x3D
  | 0x48 => 0x76
  | 0x49 => 0x06
  | 0x4A => 0x1E
  | 0x4C => 0x38
  | 0x4E => 0x54
  | 0x4F => 0x5C
  | 0x50 => 0x73
  | 0x52 => 0x50
  | 0x53 => 0x6D
  | 0x54 => 0x78
  | 0x55 => 0x3E
  | 0x59 => 0x6E
  | 0x5A => 0x5B
  | _ => 0x00

/-- GLYPH_REF as a function of the code (40_encoder.md R79). -/
def glyphRef (c : CharCode) : SegMask := glyphRefUpper (foldCase c).toNat

/-- GLYPH_REF as a table. -/
def glyphRefTable : GlyphTable :=
  ⟨((List.range 256).map fun n => glyphRef (BitVec.ofNat 8 n)).toArray, by simp⟩

/-- The parameter values of 00_scope.md R6. Two are OPEN there and are chosen: `TB_CYCLES = 1` and
`GLYPH = GLYPH_REF`, as 95_test_vectors.md takes them (DESIGN CHOICE, notes/assumptions/2.md). -/
def defaultConfig : Config where
  tbCycles := 1
  wordMax := 64
  hasClock := false
  glyph := glyphRefTable
  dwellRst := 1
  blinkIvlRst := 200
  scrollIvlRst := 60
  clockIvlRst := 1000
  segActiveLow := false
  digActiveLow := false

/-- The parameters are in their ranges and the glyph table meets its constraints (00_scope.md R6). -/
abbrev ConfigLegal (c : Config) : Prop :=
  1 ≤ c.tbCycles ∧ 1 ≤ c.wordMax ∧ c.wordMax ≤ 124 ∧ GlyphLegal c.glyph

end Sys2Proof.Machine
end

