-- ==== Sys2Proof/Machine/State.lean ====
section
/-! DEFINITION. The state of the SEG7 display core as plain data: every element of 10_state.md R38, the
parameters that no step writes, and the input samples the host presents. -/

namespace Sys2Proof.Machine

/-- The active strategy, or IDLE or DONE; the values 6 and 7 "are never held" (10_state.md R18). -/
inductive Mode where
  | idle
  | static
  | blink
  | scroll
  | clock
  | done
deriving DecidableEq, Repr

/-- The multiplex sequencer position, nine values without a bit encoding (10_state.md R19). -/
inductive SeqPos where
  /-- Drives nothing. -/
  | off
  /-- No digit selected, the segments of position `p` driven. -/
  | gap (p : DigitPos)
  /-- The dwell of position `p`, digit `p` selected. -/
  | hold (p : DigitPos)
deriving DecidableEq, Repr

/-- The Blink strategy's state (10_state.md R30). -/
inductive Phase where
  | showing
  | blanked
deriving DecidableEq, Repr

/-- The input ports of the block as sampled at the end of one cycle (10_state.md R15, 00_scope.md R9).
One stable value for each pin: an input that changes around the edge is not admitted (20_memory.md R55). -/
structure Inputs where
  /-- `rst`. -/
  rst : Bool
  /-- `cmd_valid`. -/
  cmdValid : Bool
  /-- `cmd_word`, ignored when `cmd_valid = 0`. -/
  cmdWord : CmdWord
  /-- `tod_hour`, read only by the Clock strategy. -/
  todHour : BitVec 5
  /-- `tod_min`, read only by the Clock strategy. -/
  todMin : BitVec 6
  /-- `enc_in`, the stand-alone encoder port. -/
  encIn : CharCode
deriving DecidableEq, Repr

/-- The state. `cfg`, `inputs` and `cycle` are the model's own (notes/assumptions/1.md, 3.md, 4.md); every other field
is an element of 10_state.md R38. -/
structure State where
  /-- The parameters of 00_scope.md R6; no command and no reset changes them (10_state.md R37). -/
  cfg : Config
  /-- The input samples of this cycle and the cycles after it, oldest first. -/
  inputs : List Inputs
  /-- The number of cycles run, index of the free values of pins no sample drives. -/
  cycle : Nat
  /-- MODE (R18). -/
  mode : Mode
  /-- SEQ (R19). -/
  seq : SeqPos
  /-- PRE, the timebase prescaler (R21). -/
  pre : Nat
  /-- CNT, strobes seen during the current HOLD (R22). -/
  cnt : BitVec 16
  /-- EL, strobes since the last tick or start, saturating (R23). -/
  el : BitVec 16
  /-- FRAME (R24). -/
  frame : Frame
  /-- SNAP (R25). -/
  snap : Frame
  /-- TGT (R26). -/
  tgt : Frame
  /-- WORD, WORD_MAX entries (R27). -/
  word : List CharCode
  /-- WLEN (R28). -/
  wlen : BitVec 7
  /-- POS (R29). -/
  pos : BitVec 7
  /-- PHASE (R30). -/
  phase : Phase
  /-- HC (R31). -/
  hc : BitVec 16
  /-- NREP, two's complement (R32). -/
  nrep : BitVec 16
  /-- DWELL (R33). -/
  dwell : BitVec 16
  /-- BLINK_IVL (R33). -/
  blinkIvl : BitVec 16
  /-- SCROLL_IVL (R33). -/
  scrollIvl : BitVec 16
  /-- CLOCK_IVL (R33). -/
  clockIvl : BitVec 16
  /-- DONE (R34). -/
  done : Bool
  /-- ERR (R35). -/
  err : Bool
  /-- ECODE (R35). -/
  ecode : BitVec 2
deriving DecidableEq, Repr

/-- The reasons for which the block stops: none. "The block raises no exception and has no trap mechanism:
no command and no input stops it" (60_exceptions.md R116), so the type has no constructor. -/
inductive Fault : Type
deriving DecidableEq, Repr

/-- The reasons for which the model gives a command no meaning. -/
inductive Refusal where
  /-- Raised only by an arm of `exec` whose command has no meaning yet; no arm raises it now. Safe: the
  model stops where the hardware goes on. -/
  | notModelled (mnemonic : String)
deriving DecidableEq, Repr

/-- The block right after a reset cycle, with the parameters of `defaultConfig` and no input listed
(10_state.md R38). WORD has no reset value in the spec; its entries are 0x00 (DESIGN CHOICE,
notes/assumptions/5.md). -/
def State.reset : State where
  cfg := defaultConfig
  inputs := []
  cycle := 0
  mode := .idle
  seq := .off
  pre := 0
  cnt := 0
  el := 0
  frame := blank4
  snap := blank4
  tgt := blank4
  word := List.replicate 64 0x00
  wlen := 0
  pos := 0
  phase := .showing
  hc := 0
  nrep := 0
  dwell := 1
  blinkIvl := 200
  scrollIvl := 60
  clockIvl := 1000
  done := false
  err := false
  ecode := 0

end Sys2Proof.Machine
end

