-- ==== Sys2Proof/Machine/Ops.lean ====
section
/-! DEFINITION. The named operations over the state: the input pins, the word buffer, the error record, the
common part of every START command, and the reset cycle. -/

namespace Sys2Proof.Machine

/-! ## The input pins -/

/-- What the pins carry in a cycle for which no sample is listed: no reset, no command, and free values on
the pins the host must drive anyway (DESIGN CHOICE, notes/assumptions/3.md and 4.md). -/
def idleInputs (cycle : Nat) : Inputs where
  rst := false
  cmdValid := false
  cmdWord := 0
  todHour := Config.freeTodHour cycle
  todMin := Config.freeTodMin cycle
  encIn := Config.freeEncIn cycle

/-- The inputs of the current cycle (00_scope.md R9: `I_t`). -/
def pins (s : State) : Inputs :=
  match s.inputs with
  | [] => idleInputs s.cycle
  | i :: _ => i

/-- The clock edge, as far as the inputs go: the next cycle sees the next sample. -/
def advanceInputs (s : State) : State := { s with inputs := s.inputs.tail, cycle := s.cycle + 1 }

/-- `s` with other values on the pins of the current cycle. -/
def withPins (s : State) (i : Inputs) : State := { s with inputs := i :: s.inputs.tail }

/-! ## The word buffer (10_state.md R27, R28) -/

/-- `WORD[i]`. Outside the array, where no rule reads, a free value (notes/assumptions/7.md). -/
def readWord (s : State) (i : Nat) : CharCode := s.word.getD i (Config.freeWordByte i)

/-- `WORD[WLEN] <- c`, `WLEN <- WLEN + 1` (42_commands.md R100). -/
def appendWord (c : CharCode) (s : State) : State :=
  { s with word := s.word.set s.wlen.toNat c, wlen := s.wlen + 1 }

/-- `WLEN <- 0` (42_commands.md R99). -/
def emptyWord (s : State) : State := { s with wlen := 0 }

/-! ## The duration registers (10_state.md R33) -/

/-- `DWELL <- v`. -/
def setDwell (v : BitVec 16) (s : State) : State := { s with dwell := v }

/-- `BLINK_IVL <- v`. -/
def setBlinkIvl (v : BitVec 16) (s : State) : State := { s with blinkIvl := v }

/-- `SCROLL_IVL <- v`. -/
def setScrollIvl (v : BitVec 16) (s : State) : State := { s with scrollIvl := v }

/-- `CLOCK_IVL <- v`. -/
def setClockIvl (v : BitVec 16) (s : State) : State := { s with clockIvl := v }

/-! ## Rejected commands (60_exceptions.md R117) -/

/-- `raise CmdError(code)`: the block's only exception entry. It records the first cause since reset and
writes nothing else; nothing transfers control, and there is no return (60_exceptions.md R121). -/
def raiseCmdError (code : BitVec 2) (s : State) : State :=
  if s.err = false then { s with err := true, ecode := code } else s

/-- Cause 1, reserved opcode (60_exceptions.md R118). -/
def causeReservedOpcode : BitVec 2 := 1

/-- Cause 2, reserved SETREG selector (60_exceptions.md R118). -/
def causeReservedSelector : BitVec 2 := 2

/-- Cause 3, word buffer full (60_exceptions.md R118). -/
def causeWordFull : BitVec 2 := 3

/-! ## Stopping and starting a strategy -/

/-- `MODE <- IDLE`, `SEQ <- OFF`, `DONE <- 0` (42_commands.md R98). -/
def stopStrategy (s : State) : State := { s with mode := .idle, seq := .off, done := false }

/-- The writes common to every START command, with mode `m` and initial frame `f0` (43_animation.md R103). -/
def startStrategy (m : Mode) (f0 : Frame) (s : State) : State :=
  { s with mode := m, seq := .gap 0, frame := f0, snap := f0, el := 0, done := false }

/-- The Blink strategy's own writes: target `f`, bound `n`, no half-cycle counted, SHOWING (43_animation.md
R107). -/
def armBlink (n : BitVec 16) (f : Frame) (s : State) : State :=
  { s with tgt := f, nrep := n, hc := 0, phase := .showing }

/-- The Scroll strategy's own write: `POS <- 0` (43_animation.md R110). -/
def rewindScroll (s : State) : State := { s with pos := 0 }

/-! ## Reset (70_reset_and_hazards.md R128) -/

/-- The reset cycle: every element takes its value of 10_state.md R38. The parameters are no state (R37),
the input schedule is the host's, and WORD "is not reset" (R27; DEDUCED, notes/assumptions/6.md). -/
def resetCycle (s : State) : State :=
  { s with
    mode := .idle
    seq := .off
    pre := 0
    cnt := 0
    el := 0
    frame := blank4
    snap := blank4
    tgt := blank4
    wlen := 0
    pos := 0
    phase := .showing
    hc := 0
    nrep := 0
    dwell := s.cfg.dwellRst
    blinkIvl := s.cfg.blinkIvlRst
    scrollIvl := s.cfg.scrollIvlRst
    clockIvl := s.cfg.clockIvlRst
    done := false
    err := false
    ecode := 0 }

end Sys2Proof.Machine
end

