-- ==== Sys2Proof/Machine/Operands.lean ====
section
/-! DEFINITION. The operands the commands and ticks compute with: the saturating count, the repeat bound,
the padded word and the clock frame. The fields of the command word are taken apart in Decode.lean. -/

namespace Sys2Proof.Machine

/-- `sat16(v) = min(v, 0xFFFF)` (00_scope.md R8). -/
def sat16 (v : Nat) : BitVec 16 := BitVec.ofNat 16 (min v 0xFFFF)

/-- The repeat bound `N` as an integer (30_encoding.md R60, 10_state.md R32). -/
def repeatBound (n : BitVec 16) : Int := n.toInt

/-- One character of `pad4()`: `(i < WLEN) ? WORD[i] : BLANK_CHAR` (43_animation.md R102). -/
def padChar (s : State) (i : Nat) : CharCode :=
  if i < s.wlen.toNat then readWord s i else blankChar

/-- `pad4()` (43_animation.md R102). -/
def pad4 (s : State) : Frame := #v[padChar s 0, padChar s 1, padChar s 2, padChar s 3]

/-- The 12-hour conversion `h12` (43_animation.md R113). -/
def hour12 (h : Nat) : Nat :=
  if h = 0 then 12 else if 13 ≤ h ∧ h ≤ 23 then h - 12 else h

/-- `d(x)`, the digit character of `x` in 0..9 (43_animation.md R113). -/
def digitChar (x : Nat) : CharCode := BitVec.ofNat 8 (0x30 + x)

/-- `clock_frame(h, m)` (43_animation.md R113). -/
def clockFrame (hour : BitVec 5) (min : BitVec 6) : Frame :=
  let h12 := hour12 hour.toNat
  #v[if 10 ≤ h12 then digitChar (h12 / 10) else blankChar,
     digitChar (h12 % 10),
     digitChar (min.toNat / 10),
     digitChar (min.toNat % 10)]

end Sys2Proof.Machine
end

