-- ==== Sys2Proof/Machine/Animation.lean ====
section
/-! DEFINITION. The AnimationDriver: the START commands and the ticks (43_animation.md). A tick reads the
state `r` of the cycle and makes its writes on `t`, as all reads of one step see `S_t` (00_scope.md R9). -/

namespace Sys2Proof.Machine

/-! ## START commands -/

/-- SSTATIC: show the word's first four characters, unchanging (R105). -/
def execSstatic (s : State) : Host.Outcome State Fault Refusal :=
  .next (startStrategy .static (pad4 s) s)

/-- SBLINK n: alternate the word and a blank frame (R107). -/
def execSblink (n : BitVec 16) (s : State) : Host.Outcome State Fault Refusal :=
  .next (armBlink n (pad4 s) (startStrategy .blink (pad4 s) s))

/-- SSCROLL: scroll the word through the display from the right (R110). -/
def execSscroll (s : State) : Host.Outcome State Fault Refusal :=
  .next (rewindScroll (startStrategy .scroll blank4 s))

/-- SCLOCK: show the wall-clock time, read in the command's own cycle (R114); without `HAS_CLOCK` the word
is a reserved opcode (30_encoding.md R63). -/
def execSclock (s : State) : Host.Outcome State Fault Refusal :=
  if s.cfg.hasClock then
    .next (startStrategy .clock (clockFrame (pins s).todHour (pins s).todMin) s)
  else .next (raiseCmdError causeReservedOpcode s)

/-! ## Ticks (R104) -/

/-- What a tick gives back to the pass end: the state with the tick's writes, the new frame `F`, and the
termination flag (R104). -/
structure TickResult where
  state : State
  frame : Frame
  term : Bool
deriving DecidableEq, Repr

/-- `h = HC + 1`, on unbounded integers (R108). -/
def halfCycles (r : State) : Nat := r.hc.toNat + 1

/-- `HC <- h` (R108). -/
def setHalfCycles (h : Nat) (t : State) : State := { t with hc := BitVec.ofNat 16 h }

/-- `PHASE <- p`, `FRAME <- f` (R108). -/
def flipTo (p : Phase) (f : Frame) (t : State) : State := { t with phase := p, frame := f }

/-- `POS <- p`, `FRAME <- f` (R111). -/
def scrollTo (p : BitVec 7) (f : Frame) (t : State) : State := { t with pos := p, frame := f }

/-- `FRAME <- f` (R115). -/
def setFrame (f : Frame) (t : State) : State := { t with frame := f }

/-- The write `HC <- h`, made only when `NREP >= 0` (R108). -/
def countHalfCycle (r t : State) : State :=
  if 0 ≤ repeatBound r.nrep then setHalfCycles (halfCycles r) t else t

/-- The tick is the one that terminates the strategy: `h == 2 * NREP + 1` with `NREP >= 0` (R108). -/
def blinkEnds (r : State) : Bool :=
  decide (0 ≤ repeatBound r.nrep ∧ (halfCycles r : Int) = 2 * repeatBound r.nrep + 1)

/-- tick(BLINK) (R108). -/
def tickBlink (r t : State) : TickResult :=
  let t1 := countHalfCycle r t
  if blinkEnds r then ⟨t1, r.frame, true⟩
  else match r.phase with
    | .showing => ⟨flipTo .blanked blank4 t1, blank4, false⟩
    | .blanked => ⟨flipTo .showing r.tgt t1, r.tgt, false⟩

/-- The character a scroll tick brings in: `(POS < L) ? WORD[POS] : BLANK_CHAR` (R111). -/
def scrollChar (r : State) : CharCode :=
  if r.pos.toNat < r.wlen.toNat then readWord r r.pos.toNat else blankChar

/-- The frame shifted left with `c` at the right edge (R111). -/
def shiftIn (f : Frame) (c : CharCode) : Frame := #v[f[1], f[2], f[3], c]

/-- `(POS + 1) mod (L + 4)` (R111). -/
def nextPos (r : State) : BitVec 7 := BitVec.ofNat 7 ((r.pos.toNat + 1) % (r.wlen.toNat + 4))

/-- tick(SCROLL) (R111). -/
def tickScroll (r t : State) : TickResult :=
  let f := shiftIn r.frame (scrollChar r)
  ⟨scrollTo (nextPos r) f t, f, false⟩

/-- tick(CLOCK), with the inputs of the pass-end cycle (R115). -/
def tickClock (r t : State) : TickResult :=
  let f := clockFrame (pins r).todHour (pins r).todMin
  ⟨setFrame f t, f, false⟩

/-- `tick(MODE)` (R104). Static has no tick (R106) and IDLE and DONE never reach a pass end (10_state.md
R20); there the frame stays (notes/assumptions/8.md). -/
def tick (r t : State) : TickResult :=
  match r.mode with
  | .idle => ⟨t, r.frame, false⟩
  | .static => ⟨t, r.frame, false⟩
  | .blink => tickBlink r t
  | .scroll => tickScroll r t
  | .clock => tickClock r t
  | .done => ⟨t, r.frame, false⟩

end Sys2Proof.Machine
end

