-- ==== Sys2Proof/Machine/Commands.lean ====
section
/-! DEFINITION. The five commands that start no strategy: NOP, CLEAR, WRST, WPUSH and SETREG, one
definition for each row of the opcode table (42_commands.md). A meaning makes the writes of its command
alone; the timebase and the sequencer of the cycle are added by `step` (41_refresh.md R90). -/

namespace Sys2Proof.Machine

/-- NOP: no write (R97). -/
def execNop (s : State) : Host.Outcome State Fault Refusal := .next s

/-- CLEAR: stop the active strategy and blank the display (R98). The command itself does not write EL; the
timebase of its cycle does (DEDUCED, notes/assumptions/21.md). -/
def execClear (s : State) : Host.Outcome State Fault Refusal :=
  .next (stopStrategy s)

/-- WRST: empty the word buffer; the entries are not erased (R99). -/
def execWrst (s : State) : Host.Outcome State Fault Refusal := .next (emptyWord s)

/-- WPUSH c: append a character, or reject the command when the buffer is full (R100). -/
def execWpush (c : CharCode) (s : State) : Host.Outcome State Fault Refusal :=
  if s.wlen.toNat < s.cfg.wordMax then .next (appendWord c s)
  else .next (raiseCmdError causeWordFull s)

/-- SETREG DWELL, v (R101). -/
def execSetregDwell (v : BitVec 16) (s : State) : Host.Outcome State Fault Refusal :=
  .next (setDwell v s)

/-- SETREG BLINK_IVL, v (R101). -/
def execSetregBlinkIvl (v : BitVec 16) (s : State) : Host.Outcome State Fault Refusal :=
  .next (setBlinkIvl v s)

/-- SETREG SCROLL_IVL, v (R101). -/
def execSetregScrollIvl (v : BitVec 16) (s : State) : Host.Outcome State Fault Refusal :=
  .next (setScrollIvl v s)

/-- SETREG CLOCK_IVL, v: legal in every configuration (R101). -/
def execSetregClockIvl (v : BitVec 16) (s : State) : Host.Outcome State Fault Refusal :=
  .next (setClockIvl v s)

end Sys2Proof.Machine
end

