-- ==== Sys2Proof/Machine/Reserved.lean ====
section
/-! DEFINITION. The reserved words: each changes no state except the error record (30_encoding.md R63,
60_exceptions.md R117). -/

namespace Sys2Proof.Machine

/-- Opcode 0x9: CmdError(1) (30_encoding.md R63). -/
def execReservedOp9 (s : State) : Host.Outcome State Fault Refusal :=
  .next (raiseCmdError causeReservedOpcode s)

/-- Opcodes 0xA and 0xB: CmdError(1) (30_encoding.md R63). -/
def execReservedOpAB (_low : BitVec 1) (s : State) : Host.Outcome State Fault Refusal :=
  .next (raiseCmdError causeReservedOpcode s)

/-- Opcodes 0xC to 0xF: CmdError(1) (30_encoding.md R63). -/
def execReservedOpCF (_low : BitVec 2) (s : State) : Host.Outcome State Fault Refusal :=
  .next (raiseCmdError causeReservedOpcode s)

/-- SETREG with selector 4..15: CmdError(2) (30_encoding.md R63). -/
def execReservedSel (_sel : BitVec 4) (s : State) : Host.Outcome State Fault Refusal :=
  .next (raiseCmdError causeReservedSelector s)

end Sys2Proof.Machine
end

