-- ==== Sys2Proof/Syntax.lean ====
section
/-! DEFINITION. The commands of the SEG7 display core: one constructor for each row of
spec/opcode_table.json (30_encoding.md R61, R63). A command keeps the operand bits that choose its effect
or its row; the bits a command ignores (R62) are no part of it. -/

namespace Sys2Proof

/-- The host commands (42_commands.md, 43_animation.md) and the reserved words, which the block takes and
records as rejected (30_encoding.md R63). -/
inductive Instr where
  /-- NOP, op 0x0 (R97). -/
  | nop
  /-- CLEAR, op 0x1 (R98). -/
  | clear
  /-- WRST, op 0x2 (R99). -/
  | wrst
  /-- WPUSH c, op 0x3, `c = imm[7:0]` (R100). -/
  | wpush (c : CharCode)
  /-- SETREG DWELL, v: op 0x4, sel 0 (R101). -/
  | setregDwell (v : BitVec 16)
  /-- SETREG BLINK_IVL, v: op 0x4, sel 1 (R101). -/
  | setregBlinkIvl (v : BitVec 16)
  /-- SETREG SCROLL_IVL, v: op 0x4, sel 2 (R101). -/
  | setregScrollIvl (v : BitVec 16)
  /-- SETREG CLOCK_IVL, v: op 0x4, sel 3 (R101). -/
  | setregClockIvl (v : BitVec 16)
  /-- SSTATIC, op 0x5 (R105). -/
  | sstatic
  /-- SBLINK n, op 0x6, `n = imm[15:0]` read as two's complement (R107, R60). -/
  | sblink (n : BitVec 16)
  /-- SSCROLL, op 0x7 (R110). -/
  | sscroll
  /-- SCLOCK, op 0x8; reserved when `HAS_CLOCK = false` (R114, R63). -/
  | sclock
  /-- A word with the reserved opcode 0x9 (R63). -/
  | reservedOp9
  /-- A word with the reserved opcode 0xA or 0xB; `low` is bit 20 (R63). -/
  | reservedOpAB (low : BitVec 1)
  /-- A word with one of the reserved opcodes 0xC to 0xF; `low` is bits 21:20 (R63). -/
  | reservedOpCF (low : BitVec 2)
  /-- A SETREG word with a reserved selector, `sel` in 4..15 (R63). -/
  | reservedSel (sel : BitVec 4)
deriving DecidableEq, Repr

end Sys2Proof
end

