-- ==== Sys2Proof/Machine/Dispatch.lean ====
section
/-! DEFINITION. The dispatch of the commands to their meanings (42_commands.md R96). -/

namespace Sys2Proof.Machine

def exec (i : Instr) (s : State) : Host.Outcome State Fault Refusal :=
  match i with
  | .nop => Sys2Proof.Machine.execNop s
  | .clear => Sys2Proof.Machine.execClear s
  | .wrst => Sys2Proof.Machine.execWrst s
  | .wpush c => Sys2Proof.Machine.execWpush c s
  | .setregDwell v => Sys2Proof.Machine.execSetregDwell v s
  | .setregBlinkIvl v => Sys2Proof.Machine.execSetregBlinkIvl v s
  | .setregScrollIvl v => Sys2Proof.Machine.execSetregScrollIvl v s
  | .setregClockIvl v => Sys2Proof.Machine.execSetregClockIvl v s
  | .sstatic => Sys2Proof.Machine.execSstatic s
  | .sblink n => Sys2Proof.Machine.execSblink n s
  | .sscroll => Sys2Proof.Machine.execSscroll s
  | .sclock => Sys2Proof.Machine.execSclock s
  | .reservedOp9 => Sys2Proof.Machine.execReservedOp9 s
  | .reservedOpAB low => Sys2Proof.Machine.execReservedOpAB low s
  | .reservedOpCF low => Sys2Proof.Machine.execReservedOpCF low s
  | .reservedSel sel => Sys2Proof.Machine.execReservedSel sel s

end Sys2Proof.Machine
end

