-- ==== Sys2Proof/WellFormed.lean ====
section
/-! DEFINITION. Which terms of `Instr` some command word stands for. Every operand may take every value of
its type (30_encoding.md R60) but the selector of a reserved SETREG word, which is 4..15 (R63). -/

namespace Sys2Proof

/-- The well-formedness check of one command. -/
def Instr.wellFormed : Instr → Bool
  | .nop => true
  | .clear => true
  | .wrst => true
  | .wpush _ => true
  | .setregDwell _ => true
  | .setregBlinkIvl _ => true
  | .setregScrollIvl _ => true
  | .setregClockIvl _ => true
  | .sstatic => true
  | .sblink _ => true
  | .sscroll => true
  | .sclock => true
  | .reservedOp9 => true
  | .reservedOpAB _ => true
  | .reservedOpCF _ => true
  | .reservedSel sel => decide (4 ≤ sel.toNat)

/-- `Instr.wellFormed` as a proposition. -/
abbrev Instr.WellFormed (i : Instr) : Prop := i.wellFormed = true

end Sys2Proof
end

