-- ==== Sys2Proof/Decode.lean ====
section
/-! DEFINITION. The decoder of the command word, total on all 2^24 words, and the encoder
(30_encoding.md R59 to R63). A bit string that is no 24-bit word is rejected by name (R65). -/

namespace Sys2Proof

/-- The field `op`, bits 23:20 (R59). -/
def opField (w : CmdWord) : BitVec 4 := w.extractLsb' 20 4

/-- The field `sel`, bits 19:16 (R59). -/
def selField (w : CmdWord) : BitVec 4 := w.extractLsb' 16 4

/-- The field `imm`, bits 15:0 (R59). -/
def immField (w : CmdWord) : BitVec 16 := w.extractLsb' 0 16

/-- The character of WPUSH, `imm[7:0]` (R60). -/
def charField (w : CmdWord) : CharCode := w.extractLsb' 0 8

/-- The SETREG words, by selector (R61, R63). -/
def decodeSetreg (sel : BitVec 4) (imm : BitVec 16) : Instr :=
  if sel = 0 then .setregDwell imm
  else if sel = 1 then .setregBlinkIvl imm
  else if sel = 2 then .setregScrollIvl imm
  else if sel = 3 then .setregClockIvl imm
  else .reservedSel sel

/-- The command a word stands for: the decoder tells commands apart by `op` alone, and SETREG registers by
`sel` (R61, R65). `SCLOCK` decodes in every configuration; that its word is reserved when
`HAS_CLOCK = false` is part of its meaning (R63). -/
def decode (w : CmdWord) : Instr :=
  let op := opField w
  if op = 0x0 then .nop
  else if op = 0x1 then .clear
  else if op = 0x2 then .wrst
  else if op = 0x3 then .wpush (charField w)
  else if op = 0x4 then decodeSetreg (selField w) (immField w)
  else if op = 0x5 then .sstatic
  else if op = 0x6 then .sblink (immField w)
  else if op = 0x7 then .sscroll
  else if op = 0x8 then .sclock
  else if op = 0x9 then .reservedOp9
  else if op = 0xA ∨ op = 0xB then .reservedOpAB (w.extractLsb' 20 1)
  else .reservedOpCF (w.extractLsb' 20 2)

/-- Why a bit string is no command. -/
inductive DecodeError where
  /-- It has more than 24 bits: "Every command is exactly 24 bits" (R65). -/
  | moreThan24Bits
  /-- The number has a bit set above the bits it is said to have. -/
  | bitsOutOfRange
deriving DecidableEq, Repr

/-- Decode a bit string given as its length and its value, bit 0 least significant; bits between its
length and 24 are 0 (DESIGN CHOICE, notes/assumptions/12.md). -/
def decodeBits (nbits w : Nat) : Except DecodeError Instr :=
  if 24 < nbits then .error .moreThan24Bits
  else if 2 ^ nbits ≤ w then .error .bitsOutOfRange
  else .ok (decode (BitVec.ofNat 24 w))

/-- What the decoder reads from a row of spec/opcode_table.json. -/
def decodeTableWord (nbits w : Nat) : Option Instr :=
  match decodeBits nbits w with
  | .ok i => some i
  | .error _ => none

/-! ## The encoder -/

/-- A command word from its three fields: `op` in bits 23:20, `sel` in 19:16, `imm` in 15:0 (R59). -/
def packFields (op sel : BitVec 4) (imm : BitVec 16) : CmdWord :=
  BitVec.ofNat 24 (op.toNat * 2 ^ 20 + sel.toNat * 2 ^ 16 + imm.toNat)

/-- The word of a command, with zero in every ignored field (R61, R62, R66). -/
def encode : Instr → CmdWord
  | .nop => packFields 0x0 0 0
  | .clear => packFields 0x1 0 0
  | .wrst => packFields 0x2 0 0
  | .wpush c => packFields 0x3 0 (c.setWidth 16)
  | .setregDwell v => packFields 0x4 0 v
  | .setregBlinkIvl v => packFields 0x4 1 v
  | .setregScrollIvl v => packFields 0x4 2 v
  | .setregClockIvl v => packFields 0x4 3 v
  | .sstatic => packFields 0x5 0 0
  | .sblink n => packFields 0x6 0 n
  | .sscroll => packFields 0x7 0 0
  | .sclock => packFields 0x8 0 0
  | .reservedOp9 => packFields 0x9 0 0
  | .reservedOpAB low => packFields (0xA + low.setWidth 4) 0 0
  | .reservedOpCF low => packFields (0xC + low.setWidth 4) 0 0
  | .reservedSel sel => packFields 0x4 sel 0

end Sys2Proof
end

