-- ==== Sys2Proof/Machine/Flags.lean ====
section
/-! DEFINITION. The status bits: the code of MODE, the bit of PHASE, and the status word (10_state.md R18,
R30, R36). -/

namespace Sys2Proof.Machine

/-- The encoding of MODE (10_state.md R18). -/
def modeCode : Mode → BitVec 3
  | .idle => 0
  | .static => 1
  | .blink => 2
  | .scroll => 3
  | .clock => 4
  | .done => 5

/-- The bit of PHASE (10_state.md R30). -/
def phaseBit : Phase → BitVec 1
  | .showing => 0
  | .blanked => 1

/-- The `status` output, `{0, WLEN, ECODE, ERR, DONE, PHASE, MODE}` (10_state.md R36). -/
def statusWord (s : State) : BitVec 16 :=
  0#1 ++ s.wlen ++ s.ecode ++ BitVec.ofBool s.err ++ BitVec.ofBool s.done ++ phaseBit s.phase ++ modeCode s.mode

end Sys2Proof.Machine
end

