-- ==== Sys2Proof/Machine/Refresh.lean ====
section
/-! DEFINITION. The MultiplexRefresher: the timebase, the sequencer, the outputs and the parts of the cycle
step (41_refresh.md). In a function of two states, `r` is `S_t`, which every read sees, and `t` collects the
writes of the step (00_scope.md R9). -/

namespace Sys2Proof.Machine

/-! ## Timebase (R83) -/

/-- `tb = (PRE == TB_CYCLES - 1)`, the strobe of this cycle. -/
def strobe (s : State) : Bool := s.pre == s.cfg.tbCycles - 1

/-- `el`, the elapsed strobes including this cycle. -/
def elapsed (s : State) : BitVec 16 := if strobe s then sat16 (s.el.toNat + 1) else s.el

/-- The timebase's writes: PRE and EL. -/
def timebase (s : State) : State :=
  { s with pre := if strobe s then 0 else s.pre + 1, el := elapsed s }

/-! ## Sequencer steps -/

/-- GAP(p) step (R87). -/
def gapStep (p : DigitPos) (t : State) : State := { t with seq := .hold p, cnt := 0 }

/-- The interval of the active strategy has elapsed at this pass end; Static never fires (R89, R106), and
IDLE and DONE never reach a pass end (notes/assumptions/8.md). -/
def fires (r : State) : Bool :=
  match r.mode with
  | .idle => false
  | .static => false
  | .blink => decide (r.blinkIvl.toNat ≤ (elapsed r).toNat)
  | .scroll => decide (r.scrollIvl.toNat ≤ (elapsed r).toNat)
  | .clock => decide (r.clockIvl.toNat ≤ (elapsed r).toNat)
  | .done => false

/-- Blink termination at a pass end: `MODE <- DONE`, `SEQ <- OFF`, `DONE <- 1` (R89). -/
def terminate (t : State) : State := { t with mode := .done, seq := .off, done := true }

/-- A new pass begins with the snapshot `f` (R89). -/
def startPass (f : Frame) (t : State) : State := { t with seq := .gap 0, snap := f }

/-- `EL <- 0` of a firing tick; it wins over the timebase's write (R89). -/
def clearElapsed (t : State) : State := { t with el := 0 }

/-- pass_end(el), the end of HOLD(3) (R89). -/
def passEnd (r t : State) : State :=
  if fires r then
    let k := tick r (clearElapsed t)
    if k.term then terminate k.state else startPass k.frame k.state
  else startPass r.frame t

/-- `c = CNT + (tb ? 1 : 0)`, on unbounded integers (R88). -/
def holdCount (r : State) : Nat := r.cnt.toNat + (if strobe r then 1 else 0)

/-- `SEQ <- GAP(p + 1)`, the end of HOLD(p) for `p < 3` (R88). -/
def leaveHold (p : DigitPos) (t : State) : State := { t with seq := .gap (p + 1) }

/-- `CNT <- c` (R88); there `c` is less than DWELL and fits CNT. -/
def setCount (c : Nat) (t : State) : State := { t with cnt := BitVec.ofNat 16 c }

/-- HOLD(p) step (R88). -/
def holdStep (p : DigitPos) (r t : State) : State :=
  if r.dwell.toNat ≤ holdCount r then
    if p = 3 then passEnd r t else leaveHold p t
  else setCount (holdCount r) t

/-- The sequencer step of a cycle without a mode command (R86, R87, R88). -/
def sequencerStep (r t : State) : State :=
  match r.seq with
  | .off => t
  | .gap p => gapStep p t
  | .hold p => holdStep p r t

/-! ## The command of the cycle -/

/-- `w = cmd_valid ? cmd_word : 0x000000` (R90). -/
def commandWord (s : State) : CmdWord := if (pins s).cmdValid then (pins s).cmdWord else 0x000000

/-- The command executed in this cycle (42_commands.md R96). -/
def currentCommand (s : State) : Instr := decode (commandWord s)

/-- `is_mode_command` (R90): CLEAR, SSTATIC, SBLINK, SSCROLL, and SCLOCK when `HAS_CLOCK`. -/
def isModeCommand (hasClock : Bool) : Instr → Bool
  | .nop => false
  | .clear => true
  | .wrst => false
  | .wpush _ => false
  | .setregDwell _ => false
  | .setregBlinkIvl _ => false
  | .setregScrollIvl _ => false
  | .setregClockIvl _ => false
  | .sstatic => true
  | .sblink _ => true
  | .sscroll => true
  | .sclock => hasClock
  | .reservedOp9 => false
  | .reservedOpAB _ => false
  | .reservedOpCF _ => false
  | .reservedSel _ => false

/-- What the sequencer adds to the command `i` of the cycle: nothing for a mode command, which replaces the
sequencer step (R90). -/
def sequencer (i : Instr) (r t : State) : State :=
  if isModeCommand r.cfg.hasClock i then t else sequencerStep r t

/-! ## Outputs (R85, 10_state.md R15) -/

/-- `1 << p` (R85). -/
def oneHot (p : DigitPos) : DigMask := 1#4 <<< p.val

/-- The output `dig`. -/
def digOut (s : State) : DigMask :=
  match s.seq with
  | .off => 0
  | .gap _ => 0
  | .hold p => oneHot p

/-- `GLYPH(SNAP[p])` (R85, 40_encoder.md R70). -/
def snapGlyph (s : State) (p : DigitPos) : SegMask := glyphAt s.cfg.glyph s.snap[p]

/-- The output `seg`. -/
def segOut (s : State) : SegMask :=
  match s.seq with
  | .off => 0
  | .gap p => snapGlyph s p
  | .hold p => snapGlyph s p

/-- The output `status` (10_state.md R36). -/
def statusOut (s : State) : BitVec 16 := statusWord s

/-- The output `enc_out = GLYPH(enc_in)`, of the same cycle's input (40_encoder.md R82). -/
def encOut (s : State) : SegMask := glyphAt s.cfg.glyph (pins s).encIn

/-- The segment lines outside the block, after the polarity parameter (00_scope.md R6, 10_state.md R15). -/
def segPads (s : State) : SegMask := if s.cfg.segActiveLow then ~~~(segOut s) else segOut s

/-- The digit lines outside the block, after the polarity parameter (00_scope.md R6, 10_state.md R15). -/
def digPads (s : State) : DigMask := if s.cfg.digActiveLow then ~~~(digOut s) else digOut s

end Sys2Proof.Machine
end

