-- ==== Sys2Proof/Machine/Step.lean ====
section
/-! DEFINITION. One step of the block is one rising edge of `clk`: reset, or the timebase, the command and
the sequencer, in that order (41_refresh.md R90). -/

namespace Sys2Proof.Machine

/-- `S_{t+1} = step(S_t, I_t)` (41_refresh.md R90), `I_t` being `pins`. The timebase runs in the cycle of every
command, so EL counts a strobe in CLEAR's cycle too, although 42_commands.md R98 lists EL among the elements
that keep their values (DEDUCED, notes/assumptions/21.md). -/
def step (s : State) : Host.Outcome State Fault Refusal :=
  if (pins s).rst then .next (advanceInputs (resetCycle s))
  else
    match exec (currentCommand s) (timebase s) with
    | .next t => .next (advanceInputs (sequencer (currentCommand s) s t))
    | .fault f => .fault f
    | .refused r => .refused r

/-- `s` with the command of an opcode-table row presented on the command port in the current cycle, without
reset (bits above `nbits` are 0); the other pins and the later samples stay. The block fetches no instructions (10_state.md R17), so
this stands for the host's presenting the command (notes/assumptions/11.md). -/
def State.withFetchWord (s : State) (nbits w : Nat) : State :=
  withPins s { pins s with rst := false, cmdValid := true, cmdWord := BitVec.ofNat 24 (w % 2 ^ nbits) }

end Sys2Proof.Machine
end

