-- ==== Sys2Proof/Safety.lean ====
section
/-! DEFINITION. What counts as a safe state and a safe run, in the terms the statements use. `BlockInv` collects the
bounds that the spec states for "every reachable state" and for values "never held"; the step keeps it. -/

namespace Sys2Proof.Machine

/-- SEQ = OFF exactly when MODE is IDLE or DONE (10_state.md R20). -/
abbrev SeqMatchesMode (s : State) : Prop := s.seq = .off ↔ (s.mode = .idle ∨ s.mode = .done)

/-- The word buffer has WORD_MAX entries and `WLEN` is at most that (10_state.md R27, R28). -/
abbrev WordWf (s : State) : Prop := s.word.length = s.cfg.wordMax ∧ s.wlen.toNat ≤ s.cfg.wordMax

/-- ECODE is 0 while ERR = 0, and a cause 1, 2 or 3 while ERR = 1 (10_state.md R35). -/
abbrev ErrorRecordWf (s : State) : Prop := s.ecode = 0 ↔ s.err = false

/-- HC counts the half-cycles of a bounded blink and PHASE is the parity of that count; an unbounded blink
does not count (10_state.md R30, R31, 43_animation.md R108). -/
abbrev BlinkCountWf (s : State) : Prop :=
  (repeatBound s.nrep < 0 → s.hc = 0) ∧
  (0 ≤ repeatBound s.nrep →
    ((s.hc.toNat : Int) ≤ 2 * repeatBound s.nrep ∧ (s.phase = .blanked ↔ s.hc.toNat % 2 = 1)) ∨
    ((s.hc.toNat : Int) = 2 * repeatBound s.nrep + 1 ∧ s.phase = .showing ∧ s.mode ≠ .blink))

/-- A blinking display shows the target or a blank frame, by PHASE (43_animation.md R107, R108). -/
abbrev BlinkFrameWf (s : State) : Prop :=
  s.mode = .blink → s.frame = match s.phase with
    | .showing => s.tgt
    | .blanked => blank4

/-- The invariant of the block: legal parameters, every counter in its range, and the relations between
MODE, SEQ, DONE, the error record, the frames and the blink count. -/
structure BlockInv (s : State) : Prop where
  cfgLegal : ConfigLegal s.cfg
  /-- PRE holds 0 to TB_CYCLES - 1 (10_state.md R21). -/
  preRange : s.pre < s.cfg.tbCycles
  wordWf : WordWf s
  seqMode : SeqMatchesMode s
  /-- DONE is the record that the blink strategy has terminated (10_state.md R34). -/
  doneMode : s.done = true ↔ s.mode = .done
  /-- POS never exceeds WORD_MAX + 3 (10_state.md R29). -/
  posRange : s.pos.toNat ≤ s.cfg.wordMax + 3
  errRecord : ErrorRecordWf s
  /-- CLOCK is only reachable when HAS_CLOCK (10_state.md R18). -/
  clockOption : s.mode = .clock → s.cfg.hasClock = true
  blinkCount : BlinkCountWf s
  /-- The snapshot is the frame: a frame is copied at the edge that writes it (20_memory.md R49). -/
  snapFrame : s.snap = s.frame
  blinkFrame : BlinkFrameWf s

/-! ## What the host presents -/

/-- A cycle in which the host neither resets the block nor presents a command. -/
abbrev Quiet (i : Inputs) : Prop := i.rst = false ∧ i.cmdValid = false

/-- No listed input sample resets the block or presents a command. -/
abbrev QuietInputs (s : State) : Prop := ∀ i ∈ s.inputs, Quiet i

/-- The host presents the word `w` in this cycle, without reset. -/
abbrev Presents (s : State) (w : CmdWord) : Prop :=
  (pins s).rst = false ∧ (pins s).cmdValid = true ∧ (pins s).cmdWord = w

/-- `s` with the word `w` presented in this cycle, without reset, the other pins as they are. -/
def presenting (s : State) (w : CmdWord) : State :=
  withPins s { pins s with rst := false, cmdValid := true, cmdWord := w }

/-- `s` without a command and without reset in this cycle, the other pins as they are. -/
def withoutCommand (s : State) : State := withPins s { pins s with rst := false, cmdValid := false }

/-- A cycle without reset and without a mode command: the sequencer steps (41_refresh.md R90). -/
abbrev SequencerSteps (s : State) : Prop :=
  (pins s).rst = false ∧ isModeCommand s.cfg.hasClock (currentCommand s) = false

/-- No listed input sample resets the block or presents a mode command. -/
abbrev NoModeCommands (s : State) : Prop :=
  ∀ i ∈ s.inputs, i.rst = false ∧
    isModeCommand s.cfg.hasClock (decode (if i.cmdValid then i.cmdWord else 0x000000)) = false

/-- The bits of a word that choose its effect: the opcode, and the operand bits of its row
(30_encoding.md R61); every other bit is ignored (R62). -/
def usedBits (w : CmdWord) : CmdWord :=
  if w.toNat / 2 ^ 20 = 3 then 0xF000FF
  else if w.toNat / 2 ^ 20 = 4 then (if w.toNat / 2 ^ 16 % 16 ≤ 3 then 0xFFFFFF else 0xFF0000)
  else if w.toNat / 2 ^ 20 = 6 then 0xF0FFFF
  else 0xF00000

/-- The cause for which the word `w` is rejected in state `s`, 0 if it is not (60_exceptions.md R118). -/
def rejectCause (s : State) (w : CmdWord) : BitVec 2 :=
  if 9 ≤ w.toNat / 2 ^ 20 ∨ (w.toNat / 2 ^ 20 = 8 ∧ s.cfg.hasClock = false) then 1
  else if w.toNat / 2 ^ 20 = 4 ∧ 4 ≤ w.toNat / 2 ^ 16 % 16 then 2
  else if w.toNat / 2 ^ 20 = 3 ∧ s.cfg.wordMax ≤ s.wlen.toNat then 3
  else 0

/-! ## Time and ticks -/

/-- The strobes of this cycle, 0 or 1 (41_refresh.md R83). -/
def strobesNow (s : State) : Nat := if s.pre + 1 = s.cfg.tbCycles then 1 else 0

/-- The elapsed strobes including this cycle's, saturating at 0xFFFF (41_refresh.md R83). -/
def elNow (s : State) : Nat := min (s.el.toNat + strobesNow s) 65535

/-- HOLD(3) ends in this cycle, if the sequencer steps (41_refresh.md R88). -/
abbrev AtPassEnd (s : State) : Prop := s.seq = .hold 3 ∧ s.dwell.toNat ≤ s.cnt.toNat + strobesNow s

/-- The interval of the active strategy; Static, IDLE and DONE have none (41_refresh.md R89). -/
def interval (s : State) : Option Nat :=
  match s.mode with
  | .idle => none
  | .static => none
  | .blink => some s.blinkIvl.toNat
  | .scroll => some s.scrollIvl.toNat
  | .clock => some s.clockIvl.toNat
  | .done => none

/-- The interval of the active strategy has elapsed (41_refresh.md R89). -/
def tickDue (s : State) : Bool :=
  match interval s with
  | none => false
  | some n => decide (n ≤ elNow s)

/-- The strategy's elements are as before. -/
structure StrategyKept (s t : State) : Prop where
  mode : t.mode = s.mode
  frame : t.frame = s.frame
  tgt : t.tgt = s.tgt
  pos : t.pos = s.pos
  phase : t.phase = s.phase
  hc : t.hc = s.hc
  nrep : t.nrep = s.nrep
  done : t.done = s.done

/-- The length of a pass in cycles when every cycle is a strobe (41_refresh.md R95). -/
def passCycles (s : State) : Nat := 4 * (1 + max 1 s.dwell.toNat)

/-- The number of passes between ticks when every cycle is a strobe: `max(1, ceil(IVL / P))`
(70_reset_and_hazards.md R139). -/
def passesPerTick (s : State) (ivl : Nat) : Nat := max 1 ((ivl + passCycles s - 1) / passCycles s)

/-- The stream of the Scroll strategy: the word, then four blanks (43_animation.md R112). -/
def scrollStream (s : State) (j : Nat) : CharCode :=
  if j < s.wlen.toNat then readWord s j else 0x20

/-! ## Outputs and runs -/

/-- Both outputs are dark: no digit selected, no segment lit (41_refresh.md R85, the source's `clear()`). -/
abbrev Dark (s : State) : Prop := digOut s = 0 ∧ segOut s = 0

/-- At most one DigitPosition is selected (30_encoding.md R58). -/
abbrev DigLegal (d : DigMask) : Prop := d = 0b0000 ∨ d = 0b0001 ∨ d = 0b0010 ∨ d = 0b0100 ∨ d = 0b1000

/-- The run of `k` cycles from `s` ends in `t`: no cycle on the way stopped. -/
def RunsTo (k : Nat) (s t : State) : Prop := Sys2Proof.core.run k s = Host.Outcome.next t

end Sys2Proof.Machine
end

