-- ==== Sys2Proof/Certificates/Slice0/Obligations.lean ====
section
/-! DEFINITION. The statements for the provers, in the order of OBLIGATIONS.json. They come from the numbered
rules of spec/; a docstring names the rule, or the log entry where a clause rests on one. -/

open Sys2Proof Sys2Proof.Machine

/-! ## Encoding -/

/-- Decoding undoes encoding, for every well-formed command with every operand value, through the decoder
and through the table's view of it (30_encoding.md R59 to R65). -/
def Obligations.DecodeOfEncodeIsIdentity : Prop :=
  ∀ i : Instr, i.WellFormed →
    decode (encode i) = i ∧ decodeTableWord 24 (encode i).toNat = some i

/-- The opcode map: which command every one of the 2^24 words stands for, in plain arithmetic on the word
(30_encoding.md R61, with the operands of R60 and the reserved words of R63). That a word with opcode 8
decodes to SCLOCK in every configuration is the model's choice (R65; notes/assumptions/15.md): the command's
meaning records the reserved opcode when `HAS_CLOCK = false`. -/
def Obligations.OpcodeMapOfEveryWord : Prop :=
  ∀ w : CmdWord,
    let op := w.toNat / 2 ^ 20
    let sel := w.toNat / 2 ^ 16 % 16
    let imm := w.toNat % 2 ^ 16
    (op = 0x0 → decode w = .nop) ∧
    (op = 0x1 → decode w = .clear) ∧
    (op = 0x2 → decode w = .wrst) ∧
    (op = 0x3 → decode w = .wpush (BitVec.ofNat 8 (imm % 256))) ∧
    (op = 0x4 → sel = 0 → decode w = .setregDwell (BitVec.ofNat 16 imm)) ∧
    (op = 0x4 → sel = 1 → decode w = .setregBlinkIvl (BitVec.ofNat 16 imm)) ∧
    (op = 0x4 → sel = 2 → decode w = .setregScrollIvl (BitVec.ofNat 16 imm)) ∧
    (op = 0x4 → sel = 3 → decode w = .setregClockIvl (BitVec.ofNat 16 imm)) ∧
    (op = 0x4 → 4 ≤ sel → decode w = .reservedSel (BitVec.ofNat 4 sel)) ∧
    (op = 0x5 → decode w = .sstatic) ∧
    (op = 0x6 → decode w = .sblink (BitVec.ofNat 16 imm)) ∧
    (op = 0x7 → decode w = .sscroll) ∧
    (op = 0x8 → decode w = .sclock) ∧
    (op = 0x9 → decode w = .reservedOp9) ∧
    (op = 0xA ∨ op = 0xB → decode w = .reservedOpAB (BitVec.ofNat 1 (op - 0xA))) ∧
    (0xC ≤ op → decode w = .reservedOpCF (BitVec.ofNat 2 (op - 0xC)))

/-- Ignored bits: a word and the word with zero in every ignored bit make the same cycle from every state,
and the encoder writes zero there (30_encoding.md R62). -/
def Obligations.IgnoredBitsNeverMatter : Prop :=
  ∀ w : CmdWord,
    encode (decode w) = w &&& usedBits w ∧
    ∀ s : State, step (presenting s w) = step (presenting s (w &&& usedBits w))

/-- Nine words written out from the assembler examples and the opcode map decode to what they stand for, and
the bound 0xFFFF is -1 (30_encoding.md R61, R66). -/
def Obligations.ExampleWordsDecode : Prop :=
  decode 0x300054 = .wpush 0x54 ∧ decode 0x420008 = .setregScrollIvl 8 ∧
  decode 0x600002 = .sblink 2 ∧ decode 0x60FFFF = .sblink 0xFFFF ∧ repeatBound 0xFFFF = -1 ∧
  decode 0x100000 = .clear ∧ decode 0x500000 = .sstatic ∧ decode 0x700000 = .sscroll ∧ decode 0x470005 = .reservedSel 7 ∧
  decode 0xB00000 = .reservedOpAB 1

/-! ## The step -/

/-- A cycle without reset runs the decoded command: the command's meaning on the state after the timebase,
then the sequencer step unless the command is a mode command, then the next input sample. A word that
encodes a well-formed command is that command, and a cycle without a command is NOP (41_refresh.md R90). -/
def Obligations.StepRunsTheDecodedCommand : Prop :=
  (∀ s : State, (pins s).rst = false → ∃ t, exec (currentCommand s) (timebase s) = .next t ∧
    step s = .next (advanceInputs
      (if isModeCommand s.cfg.hasClock (currentCommand s) then t else sequencerStep s t))) ∧
  (∀ (s : State) (i : Instr), i.WellFormed → Presents s (encode i) → currentCommand s = i) ∧
  (∀ s : State, (pins s).cmdValid = false → currentCommand s = .nop)

/-- No command and no input stops the block: every cycle, and so every run, answers a next state
(60_exceptions.md R116). -/
def Obligations.NoCycleStopsTheBlock : Prop :=
  ∀ (k : Nat) (s : State), ∃ t, RunsTo k s t ∧ ∃ u, step t = .next u

/-- The reset state meets the invariant, drives dark outputs and shows status 0. That it holds the
parameters of `defaultConfig` and zero in WORD is the model's choice (notes/assumptions/2.md and 5.md). -/
def Obligations.ResetStateMeetsInvariant : Prop :=
  BlockInv State.reset ∧ Dark State.reset ∧ statusOut State.reset = 0

/-- Every step keeps the invariant, from every state that meets it and whatever the inputs
(10_state.md R18, R20, R21, R27, R28, R29, R31, R35, R37). -/
def Obligations.EveryStepKeepsInvariant : Prop :=
  ∀ s : State, BlockInv s → ∃ t, step s = .next t ∧ BlockInv t

/-- A reset cycle, whatever the command port carries, gives every element but WORD its reset value and dark
outputs; a second reset cycle keeps every element but WORD, of which nothing is said; and no cycle without
reset clears ERR or changes ECODE once ERR is 1 (70_reset_and_hazards.md R128, 10_state.md R38). -/
def Obligations.ResetCycleGivesResetState : Prop :=
  (∀ s : State, (pins s).rst = true → ∃ t, step s = .next t ∧
    t.mode = .idle ∧ t.seq = .off ∧ t.pre = 0 ∧ t.cnt = 0 ∧ t.el = 0 ∧
    t.frame = #v[0x20, 0x20, 0x20, 0x20] ∧ t.snap = #v[0x20, 0x20, 0x20, 0x20] ∧
    t.tgt = #v[0x20, 0x20, 0x20, 0x20] ∧ t.wlen = 0 ∧ t.pos = 0 ∧ t.phase = .showing ∧ t.hc = 0 ∧
    t.nrep = 0 ∧ t.dwell = s.cfg.dwellRst ∧ t.blinkIvl = s.cfg.blinkIvlRst ∧
    t.scrollIvl = s.cfg.scrollIvlRst ∧ t.clockIvl = s.cfg.clockIvlRst ∧ t.done = false ∧ t.err = false ∧
    t.ecode = 0 ∧ t.cfg = s.cfg ∧ digOut t = 0 ∧ segOut t = 0 ∧ statusOut t = 0 ∧
    ((pins t).rst = true → ∃ u, step t = .next u ∧ u = { advanceInputs t with word := u.word })) ∧
  (∀ s : State, (pins s).rst = false → s.err = true → ∃ t, step s = .next t ∧ t.err = true ∧ t.ecode = s.ecode)

/-- The timebase in every cycle without reset: PRE counts modulo TB_CYCLES whatever the command, and EL
counts strobes and stops at 0xFFFF, but is 0 after a START command and after a firing tick
(41_refresh.md R83, 10_state.md R21 and R23). The clause for CLEAR follows R83 where 42_commands.md R98 lists
EL among the kept elements (notes/assumptions/21.md). -/
def Obligations.TimebaseCountsStrobes : Prop :=
  ∀ s : State, BlockInv s → (pins s).rst = false → ∃ t, step s = .next t ∧
    t.pre = (s.pre + 1) % s.cfg.tbCycles ∧
    (isModeCommand s.cfg.hasClock (currentCommand s) = true → currentCommand s ≠ .clear → t.el = 0) ∧
    (currentCommand s = .clear → t.el.toNat = elNow s) ∧
    (SequencerSteps s → AtPassEnd s → tickDue s = true → t.el = 0) ∧
    (SequencerSteps s → ¬(AtPassEnd s ∧ tickDue s = true) → t.el.toNat = elNow s)

/-- A mode command replaces the sequencer step of its cycle: the next state is the command's own on the
timebase's state, and the sequencer position it finds makes no difference (41_refresh.md R90,
60_exceptions.md R120). -/
def Obligations.ModeCommandReplacesSequencerStep : Prop :=
  ∀ s : State, (pins s).rst = false → isModeCommand s.cfg.hasClock (currentCommand s) = true →
    (∃ u, exec (currentCommand s) (timebase s) = .next u ∧ step s = .next (advanceInputs u) ∧
      (u.seq = .gap 0 ∨ u.seq = .off)) ∧
    ∀ q : SeqPos, step { s with seq := q } = step s

/-! ## The sequencer -/

/-- In OFF the sequencer does nothing: SEQ stays OFF, CNT and SNAP keep their values, no tick is evaluated;
of the commands only a START leaves OFF (41_refresh.md R86). -/
def Obligations.OffDoesNothing : Prop :=
  ∀ s : State, s.seq = .off → (pins s).rst = false → ∃ t, step s = .next t ∧
    (SequencerSteps s → t.seq = .off ∧ t.cnt = s.cnt ∧ t.snap = s.snap ∧ StrategyKept s t) ∧
    (currentCommand s = .clear → t.seq = .off ∧ t.cnt = s.cnt ∧ t.snap = s.snap) ∧
    (t.seq ≠ .off → t.seq = .gap 0 ∧ (currentCommand s = .sstatic ∨ (∃ n, currentCommand s = .sblink n) ∨
      currentCommand s = .sscroll ∨ (currentCommand s = .sclock ∧ s.cfg.hasClock = true)))

/-- A GAP lasts exactly one cycle and counts no strobe: HOLD of the same position follows with CNT = 0, even
where the cycle has a strobe, and the frame, the snapshot and the strategy stay (41_refresh.md R87). -/
def Obligations.GapLastsOneCycle : Prop :=
  ∀ (s : State) (p : DigitPos), s.seq = .gap p → SequencerSteps s → ∃ t, step s = .next t ∧
    t.seq = .hold p ∧ t.cnt = 0 ∧ t.snap = s.snap ∧ StrategyKept s t

/-- HOLD(p) ends in the first cycle in which the strobes counted since entry, this cycle's included, reach
DWELL; until then CNT counts them. The value of DWELL is the one before this cycle's command
(41_refresh.md R88). -/
def Obligations.HoldEndsWhenDwellIsReached : Prop :=
  ∀ (s : State) (p : DigitPos), BlockInv s → s.seq = .hold p → SequencerSteps s → ∃ t, step s = .next t ∧
    (s.cnt.toNat + strobesNow s < s.dwell.toNat →
      t.seq = .hold p ∧ t.cnt.toNat = s.cnt.toNat + strobesNow s ∧ t.snap = s.snap ∧ StrategyKept s t) ∧
    (s.dwell.toNat ≤ s.cnt.toNat + strobesNow s → p.val < 3 →
      t.seq = .gap (p + 1) ∧ t.cnt = s.cnt ∧ t.snap = s.snap ∧ StrategyKept s t) ∧
    (s.dwell.toNat ≤ s.cnt.toNat + strobesNow s → p = 3 →
      t.cnt = s.cnt ∧ (t.seq = .gap 0 ∨ (t.seq = .off ∧ t.mode = .done)))

/-- The sequencer advances by its rules alone: from OFF and GAP(p) one successor, from HOLD(p) only itself
or the next GAP, wrapping only from HOLD(3) to GAP(0), or OFF at blink termination; SNAP changes only
with a pass boundary (10_state.md R17, R19, R25, 41_refresh.md R93, R94). -/
def Obligations.SequencerNeverSkipsAPosition : Prop :=
  ∀ s : State, BlockInv s → SequencerSteps s → ∃ t, step s = .next t ∧
    (s.seq = .off → t.seq = .off) ∧
    (∀ p, s.seq = .gap p → t.seq = .hold p) ∧
    (∀ p, s.seq = .hold p → t.seq = .hold p ∨ (p.val < 3 ∧ t.seq = .gap (p + 1)) ∨
      (p = 3 ∧ t.seq = .gap 0) ∨ (p = 3 ∧ t.seq = .off ∧ s.mode = .blink ∧ t.mode = .done)) ∧
    (t.snap ≠ s.snap → s.seq = .hold 3 ∧ t.seq = .gap 0) ∧
    (s.mode = .static ∨ s.mode = .scroll ∨ s.mode = .clock → t.mode = s.mode ∧ t.seq ≠ .off)

/-- A pass end without a due tick starts the next pass with the same frame: GAP(0), SNAP takes FRAME, the
strategy stays, and EL goes on (41_refresh.md R89). -/
def Obligations.PassEndWithoutTickRepeatsFrame : Prop :=
  ∀ s : State, BlockInv s → SequencerSteps s → AtPassEnd s → tickDue s = false → ∃ t, step s = .next t ∧
    t.seq = .gap 0 ∧ t.snap = s.frame ∧ StrategyKept s t ∧ t.el.toNat = elNow s

/-! ## Outputs -/

/-- The outputs by sequencer position, and never two digits selected (41_refresh.md R85, R91). -/
def Obligations.OutputsFollowSequencer : Prop :=
  ∀ s : State,
    (s.seq = .off → digOut s = 0 ∧ segOut s = 0x00) ∧
    (∀ p, s.seq = .gap p → digOut s = 0 ∧ segOut s = glyphAt s.cfg.glyph s.snap[p]) ∧
    (∀ p, s.seq = .hold p → (digOut s).toNat = 2 ^ p.val ∧ segOut s = glyphAt s.cfg.glyph s.snap[p]) ∧
    DigLegal (digOut s)

/-- Break before make, in every cycle of every run: `dig` never goes from one selected digit to another
without a cycle of `dig = 0`, `seg` never changes while a digit is selected in the next cycle, a selected
digit shows the glyph of its own position, and a mode command or reset that cuts a slot short goes straight
to OFF or GAP(0), where `dig = 0` (41_refresh.md R92). -/
def Obligations.BreakBeforeMake : Prop :=
  ∀ s : State, ∃ t, step s = .next t ∧
    (digOut s ≠ 0 → digOut t ≠ 0 → digOut t = digOut s ∧ segOut t = segOut s) ∧
    (segOut t ≠ segOut s → digOut t = 0) ∧
    (∀ p : DigitPos, (digOut t).getLsbD p.val = true → segOut t = glyphAt t.cfg.glyph t.snap[p]) ∧
    ((pins s).rst = true ∨ isModeCommand s.cfg.hasClock (currentCommand s) = true →
      (t.seq = .off ∨ t.seq = .gap 0) ∧ digOut t = 0)

/-- The status word, field by field, with the encoding of MODE (10_state.md R36, R18). -/
def Obligations.StatusWordFields : Prop :=
  ∀ s : State,
    (statusOut s).extractLsb' 0 3 = (match s.mode with
      | .idle => 0 | .static => 1 | .blink => 2 | .scroll => 3 | .clock => 4 | .done => 5) ∧
    ((statusOut s).getLsbD 3 = true ↔ s.phase = .blanked) ∧
    (statusOut s).getLsbD 4 = s.done ∧
    (statusOut s).getLsbD 5 = s.err ∧
    (statusOut s).extractLsb' 6 2 = s.ecode ∧
    (statusOut s).extractLsb' 8 7 = s.wlen ∧
    (statusOut s).getLsbD 15 = false

/-- In the quiescent modes the display is dark, and without a command it stays so while the timebase runs
on (60_exceptions.md R127, R119). -/
def Obligations.QuiescentModesStayDark : Prop :=
  ∀ s : State, BlockInv s → s.mode = .idle ∨ s.mode = .done → Dark s ∧
    (SequencerSteps s → ∃ t, step s = .next t ∧ Dark t ∧ t.mode = s.mode ∧ t.done = s.done ∧
      t.pre = (s.pre + 1) % s.cfg.tbCycles ∧ t.el.toNat = elNow s)

/-- The encoder under every glyph table that meets the constraints: case makes no difference on `enc_out`,
whatever else the two states hold; an unsupported code and the space give blank there and on the display;
`1` and `I` are alike there and on the display, `0` and `O` differ (40_encoder.md R69, R72 to R76, R82). -/
def Obligations.EncoderMeetsTheGlyphConstraints : Prop :=
  (∀ s t : State, ConfigLegal s.cfg → t.cfg = s.cfg →
    (foldCase (pins t).encIn = foldCase (pins s).encIn → encOut t = encOut s) ∧
    ((pins s).encIn = 0x31 → foldCase (pins t).encIn = 0x49 → encOut t = encOut s) ∧
    ((pins s).encIn = 0x30 → foldCase (pins t).encIn = 0x4F → encOut t ≠ encOut s)) ∧
  (∀ s : State, ConfigLegal s.cfg → supported (pins s).encIn = false ∨ (pins s).encIn = 0x20 → encOut s = 0x00) ∧
  (∀ (s : State) (p : DigitPos), ConfigLegal s.cfg → s.seq = .gap p ∨ s.seq = .hold p →
    supported s.snap[p] = false ∨ s.snap[p] = 0x20 → segOut s = 0x00) ∧
  (∀ (s t : State) (p q : DigitPos), ConfigLegal s.cfg → t.cfg = s.cfg →
    s.seq = .gap p ∨ s.seq = .hold p → t.seq = .gap q ∨ t.seq = .hold q →
    (s.snap[p] = 0x31 → foldCase t.snap[q] = 0x49 → segOut t = segOut s) ∧
    (s.snap[p] = 0x30 → foldCase t.snap[q] = 0x4F → segOut t ≠ segOut s))

/-! ## Commands that start no strategy -/

/-- NOP writes nothing; a cycle that presents NOP is a cycle without a command (42_commands.md R97,
30_encoding.md R64). -/
def Obligations.NopIsACycleWithoutCommand : Prop :=
  (∀ s : State, exec .nop s = .next s) ∧
  ∀ (s : State) (w : CmdWord), w.toNat / 2 ^ 20 = 0 →
    step (presenting s w) = step (withoutCommand s) ∧
    step (withoutCommand s) = .next (advanceInputs (sequencerStep (withoutCommand s) (timebase (withoutCommand s))))

/-- CLEAR: its writes, and the whole next state of a cycle that presents it: the strategy stops, the display
is dark from the next cycle, and nothing else changes but the timebase (42_commands.md R98, 41_refresh.md
R83). That EL counts the strobe of this cycle, although R98 lists EL among the kept elements, is the model's
reading (notes/assumptions/21.md): R98's list is of the command's own writes. -/
def Obligations.ClearStopsAndBlanks : Prop :=
  (∀ s : State, exec .clear s = .next { s with mode := .idle, seq := .off, done := false }) ∧
  ∀ (s : State) (w : CmdWord), BlockInv s → w.toNat / 2 ^ 20 = 1 → Presents s w → ∃ t, step s = .next t ∧
    t = { s with mode := .idle, seq := .off, done := false, pre := (s.pre + 1) % s.cfg.tbCycles,
                 el := BitVec.ofNat 16 (elNow s), inputs := s.inputs.tail, cycle := s.cycle + 1 } ∧
    digOut t = 0 ∧ segOut t = 0x00

/-- WRST: WLEN becomes 0 and no entry is erased, but the entries become unreadable: the padded word is blank,
and so is the character the next scroll tick brings in. The cycle is otherwise one without a command, with the
same outputs `dig` and `seg` after it (42_commands.md R99). -/
def Obligations.WrstEmptiesTheWord : Prop :=
  (∀ s : State, exec .wrst s = .next { s with wlen := 0 }) ∧
  ∀ (s : State) (w : CmdWord), w.toNat / 2 ^ 20 = 2 → ∃ u v, step (withoutCommand s) = .next u ∧
    step (presenting s w) = .next v ∧ v = { u with wlen := 0 } ∧ digOut v = digOut u ∧ segOut v = segOut u ∧
    (∀ i, readWord v i = readWord s i) ∧
    pad4 v = #v[0x20, 0x20, 0x20, 0x20] ∧ (tickScroll v v).frame[3] = 0x20

/-- WPUSH: with room in the buffer, `WORD[WLEN] <- c` and `WLEN <- WLEN + 1`, every other entry reads as
before, and the cycle is otherwise one without a command; with a full buffer, CmdError(3) and no other
write (42_commands.md R100). -/
def Obligations.WpushAppendsOrRejects : Prop :=
  ∀ (s : State) (w : CmdWord), BlockInv s → w.toNat / 2 ^ 20 = 3 →
    let c := BitVec.ofNat 8 (w.toNat % 256)
    (s.wlen.toNat < s.cfg.wordMax →
      (∃ t, exec (.wpush c) s = .next t ∧ t = { s with word := t.word, wlen := t.wlen } ∧
        t.wlen.toNat = s.wlen.toNat + 1 ∧ readWord t s.wlen.toNat = c ∧
        ∀ i, i ≠ s.wlen.toNat → readWord t i = readWord s i) ∧
      (∃ u v, step (withoutCommand s) = .next u ∧ step (presenting s w) = .next v ∧
        v = { u with word := v.word, wlen := v.wlen } ∧ v.wlen.toNat = s.wlen.toNat + 1 ∧
        readWord v s.wlen.toNat = c ∧ ∀ i, i ≠ s.wlen.toNat → readWord v i = readWord s i)) ∧
    (s.wlen.toNat = s.cfg.wordMax →
      exec (.wpush c) s = .next { s with err := true, ecode := if s.err then s.ecode else 3 })

/-- SETREG: the selected duration register takes the whole immediate, the other three and everything else
are as in a cycle without a command, in every configuration (42_commands.md R101). -/
def Obligations.SetregWritesOneDuration : Prop :=
  (∀ (s : State) (v : BitVec 16),
    exec (.setregDwell v) s = .next { s with dwell := v } ∧
    exec (.setregBlinkIvl v) s = .next { s with blinkIvl := v } ∧
    exec (.setregScrollIvl v) s = .next { s with scrollIvl := v } ∧
    exec (.setregClockIvl v) s = .next { s with clockIvl := v }) ∧
  ∀ (s : State) (w : CmdWord), w.toNat / 2 ^ 20 = 4 → ∃ u, step (withoutCommand s) = .next u ∧
    let sel := w.toNat / 2 ^ 16 % 16
    let v := BitVec.ofNat 16 (w.toNat % 2 ^ 16)
    (sel = 0 → step (presenting s w) = .next { u with dwell := v }) ∧
    (sel = 1 → step (presenting s w) = .next { u with blinkIvl := v }) ∧
    (sel = 2 → step (presenting s w) = .next { u with scrollIvl := v }) ∧
    (sel = 3 → step (presenting s w) = .next { u with clockIvl := v })

/-- A DWELL lowered to or below the strobes already counted ends the HOLD in its next cycle and not before: the
next position's GAP follows, and after position 3 a new pass, or OFF at blink termination
(70_reset_and_hazards.md R134). -/
def Obligations.LoweredDwellEndsHoldNextCycle : Prop :=
  ∀ (s : State) (p : DigitPos) (v : BitVec 16), BlockInv s → s.seq = .hold p →
    (pins s).rst = false → currentCommand s = .setregDwell v →
    s.cnt.toNat + strobesNow s < s.dwell.toNat → v.toNat ≤ s.cnt.toNat + strobesNow s →
    ∃ t, step s = .next t ∧ t.seq = .hold p ∧ t.dwell = v ∧
      (SequencerSteps t → ∃ u, step t = .next u ∧
        (p.val < 3 → u.seq = .gap (p + 1)) ∧
        (p = 3 → u.seq = .gap 0 ∨ (s.mode = .blink ∧ u.mode = .done ∧ u.seq = .off)))

/-! ## Rejected commands -/

/-- The reserved words: each records its cause and writes nothing else (30_encoding.md R63). -/
def Obligations.ReservedWordsOnlyRecordAnError : Prop :=
  ∀ s : State,
    let rejected (code : BitVec 2) : State := { s with err := true, ecode := if s.err then s.ecode else code }
    exec .reservedOp9 s = .next (rejected 1) ∧
    (∀ low, exec (.reservedOpAB low) s = .next (rejected 1)) ∧
    (∀ low, exec (.reservedOpCF low) s = .next (rejected 1)) ∧
    (∀ sel, exec (.reservedSel sel) s = .next (rejected 2)) ∧
    (s.cfg.hasClock = false → exec .sclock s = .next (rejected 1))

/-- The error record over every word that can be presented: a rejected command makes the cycle of one
without a command, except that ERR is set and the first cause since reset is kept; an accepted one leaves
ERR and ECODE alone (60_exceptions.md R117, R118, R121). -/
def Obligations.RejectedCommandsRecordTheFirstCause : Prop :=
  ∀ (s : State) (w : CmdWord), ∃ u v, step (withoutCommand s) = .next u ∧ step (presenting s w) = .next v ∧
    (rejectCause s w ≠ 0 → v = { u with err := true, ecode := if s.err then s.ecode else rejectCause s w }) ∧
    (rejectCause s w = 0 → v.err = s.err ∧ v.ecode = s.ecode)

/-! ## Starting a strategy -/

/-- What every START command does in its cycle, for any strategy that was active and at any sequencer
position: a new pass with the initial frame, shown from the next cycle; EL and DONE cleared; PRE, CNT, the
error record, the word and the duration registers not written by it (43_animation.md R103). -/
def Obligations.StartCommandsBeginANewPass : Prop :=
  ∀ (s : State) (i : Instr), BlockInv s → (pins s).rst = false → currentCommand s = i →
    (i = .sstatic ∨ (∃ n, i = .sblink n) ∨ i = .sscroll ∨ (i = .sclock ∧ s.cfg.hasClock = true)) →
    ∃ t, step s = .next t ∧ t.seq = .gap 0 ∧ t.snap = t.frame ∧ t.el = 0 ∧ t.done = false ∧
      (i = .sstatic → t.mode = .static ∧ t.frame = pad4 s) ∧
      ((∃ n, i = .sblink n) → t.mode = .blink ∧ t.frame = pad4 s) ∧
      (i = .sscroll → t.mode = .scroll ∧ t.frame = #v[0x20, 0x20, 0x20, 0x20]) ∧
      (i = .sclock → t.mode = .clock ∧ t.frame = clockFrame (pins s).todHour (pins s).todMin) ∧
      digOut t = 0 ∧ segOut t = glyphAt s.cfg.glyph t.frame[0] ∧
      t.pre = (s.pre + 1) % s.cfg.tbCycles ∧ t.cnt = s.cnt ∧ t.err = s.err ∧ t.ecode = s.ecode ∧
      t.word = s.word ∧ t.wlen = s.wlen ∧ t.dwell = s.dwell ∧ t.blinkIvl = s.blinkIvl ∧
      t.scrollIvl = s.scrollIvl ∧ t.clockIvl = s.clockIvl

/-- SSTATIC: the frame is the first four characters of the word, padded with blanks; its whole next state
(43_animation.md R105, R102). -/
def Obligations.SstaticShowsThePaddedWord : Prop :=
  ∀ s : State, ∃ t, exec .sstatic s = .next t ∧
    t = { s with mode := .static, seq := .gap 0, frame := t.frame, snap := t.frame, el := 0, done := false } ∧
    ∀ i : Fin 4, t.frame[i] = if i.val < s.wlen.toNat then readWord s i.val else 0x20

/-- SBLINK n: starts with the padded word as frame and target, the bound, no half-cycle counted, SHOWING;
its whole next state (43_animation.md R107). -/
def Obligations.SblinkStartsShowingTheTarget : Prop :=
  ∀ (s : State) (n : BitVec 16), ∃ t, exec (.sblink n) s = .next t ∧
    t = { s with mode := .blink, seq := .gap 0, frame := t.frame, snap := t.frame, el := 0, done := false,
                 tgt := t.frame, nrep := n, hc := 0, phase := .showing } ∧
    ∀ i : Fin 4, t.frame[i] = if i.val < s.wlen.toNat then readWord s i.val else 0x20

/-- SSCROLL: starts all blank at position 0; its whole next state (43_animation.md R110). -/
def Obligations.SscrollStartsBlank : Prop :=
  ∀ s : State, ∃ t, exec .sscroll s = .next t ∧
    t = { s with mode := .scroll, seq := .gap 0, frame := t.frame, snap := t.frame, el := 0, done := false,
                 pos := 0 } ∧
    ∀ i : Fin 4, t.frame[i] = 0x20

/-- SCLOCK with HAS_CLOCK: the frame is the time on the pins in its own cycle; its whole next state
(43_animation.md R114). -/
def Obligations.SclockShowsTheTime : Prop :=
  ∀ s : State, s.cfg.hasClock = true → ∃ t, exec .sclock s = .next t ∧
    t = { s with mode := .clock, seq := .gap 0, frame := t.frame, snap := t.frame, el := 0, done := false } ∧
    t.frame = clockFrame (pins s).todHour (pins s).todMin

/-- The clock frame of every hour and minute the inputs can carry, in range or not: 12-hour conversion, a
blank for a one-digit hour, two minute digits (43_animation.md R113). -/
def Obligations.ClockFrameFormatsTheTime : Prop :=
  ∀ (h : BitVec 5) (m : BitVec 6), ∃ h12 : Nat,
    (h.toNat = 0 → h12 = 12) ∧ (13 ≤ h.toNat → h.toNat ≤ 23 → h12 = h.toNat - 12) ∧
    (1 ≤ h.toNat → h.toNat ≤ 12 → h12 = h.toNat) ∧ (24 ≤ h.toNat → h12 = h.toNat) ∧
    (10 ≤ h12 → (clockFrame h m)[0].toNat = 0x30 + h12 / 10) ∧
    (h12 < 10 → (clockFrame h m)[0] = 0x20) ∧
    (clockFrame h m)[1].toNat = 0x30 + h12 % 10 ∧
    (clockFrame h m)[2].toNat = 0x30 + m.toNat / 10 ∧
    (clockFrame h m)[3].toNat = 0x30 + m.toNat % 10

/-! ## Ticks -/

/-- In STATIC no tick fires: over a run of any length without reset or mode command MODE, FRAME and SNAP
keep their values, while EL counts every strobe of the run and saturates (43_animation.md R106).
Cycles past the listed input samples are quiet by the model's choice (notes/assumptions/3.md). -/
def Obligations.StaticFrameNeverChanges : Prop :=
  ∀ s : State, BlockInv s → s.mode = .static → NoModeCommands s → ∀ k, ∃ t, RunsTo k s t ∧
    t.mode = .static ∧ t.frame = s.frame ∧ t.snap = s.snap ∧
    t.el.toNat = min (s.el.toNat + (s.pre + k) / s.cfg.tbCycles) 65535

/-- A blink tick at a pass end whose interval has elapsed, with any non-mode command in its cycle: it
terminates the strategy exactly when the half-cycles reach 2N + 1 for N at least 0, and flips PHASE and the
frame otherwise; HC counts only for N at least 0 (43_animation.md R108, 41_refresh.md R89). -/
def Obligations.BlinkTickFlipsOrTerminates : Prop :=
  ∀ s : State, BlockInv s → SequencerSteps s → AtPassEnd s → s.mode = .blink → s.blinkIvl.toNat ≤ elNow s →
    ∃ t, step s = .next t ∧ t.el = 0 ∧ t.tgt = s.tgt ∧ t.nrep = s.nrep ∧ t.pos = s.pos ∧
      (0 ≤ s.nrep.toInt → t.hc.toNat = s.hc.toNat + 1) ∧ (s.nrep.toInt < 0 → t.hc = s.hc) ∧
      (0 ≤ s.nrep.toInt → (s.hc.toNat : Int) + 1 = 2 * s.nrep.toInt + 1 →
        t.mode = .done ∧ t.seq = .off ∧ t.done = true ∧ t.frame = s.frame ∧ t.snap = s.snap ∧
        t.phase = s.phase ∧ s.phase = .showing) ∧
      (¬(0 ≤ s.nrep.toInt ∧ (s.hc.toNat : Int) + 1 = 2 * s.nrep.toInt + 1) →
        t.mode = .blink ∧ t.seq = .gap 0 ∧ t.done = s.done ∧ t.snap = t.frame ∧
        (s.phase = .showing → t.phase = .blanked ∧ t.frame = #v[0x20, 0x20, 0x20, 0x20]) ∧
        (s.phase = .blanked → t.phase = .showing ∧ t.frame = s.tgt))

/-- A scroll tick at a pass end whose interval has elapsed: the view shifts left, the next character of the
word as it stands before this cycle's command, or a blank, enters at the right, and POS advances modulo
WLEN + 4 (43_animation.md R111). -/
def Obligations.ScrollTickShiftsTheView : Prop :=
  ∀ s : State, BlockInv s → SequencerSteps s → AtPassEnd s → s.mode = .scroll → s.scrollIvl.toNat ≤ elNow s →
    ∃ t, step s = .next t ∧ t.el = 0 ∧ t.mode = .scroll ∧ t.seq = .gap 0 ∧ t.snap = t.frame ∧
      t.frame[0] = s.frame[1] ∧ t.frame[1] = s.frame[2] ∧ t.frame[2] = s.frame[3] ∧
      t.frame[3] = (if s.pos.toNat < s.wlen.toNat then readWord s s.pos.toNat else 0x20) ∧
      t.pos.toNat = (s.pos.toNat + 1) % (s.wlen.toNat + 4) ∧
      t.tgt = s.tgt ∧ t.phase = s.phase ∧ t.hc = s.hc ∧ t.nrep = s.nrep ∧ t.done = s.done

/-- A clock tick at a pass end whose interval has elapsed reads the inputs of that cycle; it never
terminates (43_animation.md R115). -/
def Obligations.ClockTickReadsTheTime : Prop :=
  ∀ s : State, BlockInv s → SequencerSteps s → AtPassEnd s → s.mode = .clock → s.clockIvl.toNat ≤ elNow s →
    ∃ t, step s = .next t ∧ t.el = 0 ∧ t.mode = .clock ∧ t.seq = .gap 0 ∧ t.snap = t.frame ∧
      t.frame = clockFrame (pins s).todHour (pins s).todMin ∧
      t.tgt = s.tgt ∧ t.pos = s.pos ∧ t.phase = s.phase ∧ t.hc = s.hc ∧ t.nrep = s.nrep ∧ t.done = s.done

/-- The scroll stream: after k ticks from an SSCROLL over a word that does not change, the frame is the
window of the word-plus-four-blanks stream that ends at tick k, and POS is k modulo L + 4; so the view has
period L + 4 and returns to blank (43_animation.md R112). -/
def Obligations.ScrollShowsThePeriodicStream : Prop :=
  ∀ s : State, BlockInv s → ∃ s0, exec .sscroll s = .next s0 ∧ ∀ k : Nat,
    let L := s.wlen.toNat
    let after (j : Nat) : State := Nat.iterate (fun u => (tickScroll u u).state) j s0
    (∀ i : Fin 4, (after k).frame[i] =
      if k + i.val < 4 then 0x20 else scrollStream s ((k + i.val - 4) % (L + 4))) ∧
    (after k).pos.toNat = k % (L + 4) ∧
    (after (k + (L + 4))).frame = (after k).frame ∧
    (k % (L + 4) = 0 → (after k).frame = #v[0x20, 0x20, 0x20, 0x20]) ∧
    (1 ≤ L → (after 1).frame[3] = readWord s 0 ∧ (after 4).frame[0] = readWord s 0)

/-- The blink sequence: after j ticks from SBLINK n the frame is the target for even j and blank for odd j;
for n at least 0 tick 2n + 1 and no earlier one terminates, and HC is j; for n below 0 no tick
terminates and HC stays 0 (43_animation.md R109). -/
def Obligations.BlinkAlternatesTwoNPlusOneTimes : Prop :=
  ∀ (s : State) (n : BitVec 16), ∃ s0, exec (.sblink n) s = .next s0 ∧ ∀ j : Nat,
    let u : State := Nat.iterate (fun u => (tickBlink u u).state) j s0
    (0 ≤ n.toInt → (j : Int) ≤ 2 * n.toInt →
      u.frame = (if j % 2 = 0 then pad4 s else blank4) ∧ u.tgt = pad4 s ∧ u.hc.toNat = j ∧
      ((tickBlink u u).term = true ↔ (j : Int) + 1 = 2 * n.toInt + 1)) ∧
    (n.toInt < 0 →
      u.frame = (if j % 2 = 0 then pad4 s else blank4) ∧ u.tgt = pad4 s ∧ u.hc = 0 ∧
      (tickBlink u u).term = false)

/-! ## Runs: the lengths of slots and passes, and the spacing of ticks -/

/-- With a strobe in every cycle a pass is exactly 4 slots of 1 + max(1, DWELL) cycles: its k-th cycle is in
GAP or HOLD of the k-th slot's position, so each position is visited once, left to right, and one SNAP is
shown throughout (41_refresh.md R95, R93).
Cycles past the listed input samples are quiet by the model's choice (notes/assumptions/3.md). -/
def Obligations.PassVisitsEachPositionOnce : Prop :=
  ∀ s : State, BlockInv s → s.cfg.tbCycles = 1 → s.seq = .gap 0 → QuietInputs s →
    let slot := 1 + max 1 s.dwell.toNat
    (∀ (p : DigitPos) (k : Nat), k < slot → ∃ t, RunsTo (p.val * slot + k) s t ∧ t.snap = s.snap ∧
      StrategyKept s t ∧ t.seq = if k = 0 then .gap p else .hold p) ∧
    ∃ t, RunsTo (4 * slot) s t ∧ (t.seq = .gap 0 ∨ (s.mode = .blink ∧ t.mode = .done ∧ t.seq = .off))

/-- A HOLD entered with the prescaler at PRE lasts exactly DWELL * TB_CYCLES - PRE cycles, so between
(d - 1) * T + 1 and d * T of them, and ends with the prescaler at 0; with DWELL = 0 it lasts one cycle
(41_refresh.md R95, 70_reset_and_hazards.md R136).
Cycles past the listed input samples are quiet by the model's choice (notes/assumptions/3.md). -/
def Obligations.HoldLastsDwellStrobes : Prop :=
  ∀ (s : State) (p : DigitPos), BlockInv s → s.seq = .hold p → s.cnt = 0 → QuietInputs s →
    let d := s.dwell.toNat
    let T := s.cfg.tbCycles
    (1 ≤ d →
      ((d - 1) * T + 1 ≤ d * T - s.pre ∧ d * T - s.pre ≤ d * T) ∧
      (∀ k, k < d * T - s.pre → ∃ t, RunsTo k s t ∧ t.seq = .hold p ∧ t.snap = s.snap) ∧
      ∃ t, RunsTo (d * T - s.pre) s t ∧ t.pre = 0 ∧
        (p.val < 3 → t.seq = .gap (p + 1)) ∧ (p = 3 → t.seq = .gap 0 ∨ t.seq = .off)) ∧
    (d = 0 → ∃ t, step s = .next t ∧ (p.val < 3 → t.seq = .gap (p + 1)) ∧
      (p = 3 → t.seq = .gap 0 ∨ t.seq = .off))

/-- The steady state for TB_CYCLES = T at least 2 and DWELL = d at least 1: a pass that starts with the
prescaler at 0 is four slots of exactly d * T cycles, one cycle of GAP and d * T - 1 of HOLD, and ends with
the prescaler at 0 again (41_refresh.md R95).
Cycles past the listed input samples are quiet by the model's choice (notes/assumptions/3.md). -/
def Obligations.SteadyPassLastsFourDwells : Prop :=
  ∀ s : State, BlockInv s → 2 ≤ s.cfg.tbCycles → 1 ≤ s.dwell.toNat → s.seq = .gap 0 → s.pre = 0 → QuietInputs s →
    let slot := s.dwell.toNat * s.cfg.tbCycles
    (∀ (p : DigitPos) (k : Nat), k < slot → ∃ t, RunsTo (p.val * slot + k) s t ∧ t.snap = s.snap ∧
      t.seq = if k = 0 then .gap p else .hold p) ∧
    ∃ t, RunsTo (4 * slot) s t ∧ t.pre = 0 ∧ (t.seq = .gap 0 ∨ (s.mode = .blink ∧ t.seq = .off))

/-- With a strobe in every cycle, a strategy with interval IVL ticks at every m-th pass end after its START
or its last tick, m = max(1, ceil(IVL / P)): no tick falls in the m * P - 1 cycles before, the cycle after
them is a pass end with the tick due, and the time between ticks is at least IVL and, for IVL at least 1,
less than IVL + P (70_reset_and_hazards.md R139).
Cycles past the listed input samples are quiet by the model's choice (notes/assumptions/3.md). -/
def Obligations.TicksFallAtEveryMthPassEnd : Prop :=
  ∀ (s : State) (ivl : Nat), BlockInv s → s.cfg.tbCycles = 1 → s.seq = .gap 0 → s.el = 0 → QuietInputs s →
    interval s = some ivl →
    let P := passCycles s
    let m := passesPerTick s ivl
    (∀ j, j < m → ∃ t, RunsTo (j * P) s t ∧ t.seq = .gap 0) ∧
    (∀ k, k < m * P → ∃ t, RunsTo k s t ∧ t.snap = s.snap ∧ StrategyKept s t ∧
      (AtPassEnd t → tickDue t = true → k + 1 = m * P)) ∧
    (∃ t, RunsTo (m * P - 1) s t ∧ AtPassEnd t ∧ tickDue t = true) ∧
    (∃ t, RunsTo (m * P) s t ∧ t.el = 0 ∧ (t.seq = .gap 0 ∨ t.mode = .done)) ∧
    ivl ≤ m * P ∧ (1 ≤ ivl → m * P < ivl + P)

/-- A scroll of a whole run: with a strobe in every cycle and no command, k * m * P cycles after the start
of a scroll the view shows the stream after k ticks and a new pass begins (43_animation.md R112,
70_reset_and_hazards.md R139).
Cycles past the listed input samples are quiet by the model's choice (notes/assumptions/3.md). -/
def Obligations.ScrollRunShowsTheStream : Prop :=
  ∀ s : State, BlockInv s → s.cfg.tbCycles = 1 → QuietInputs s → s.mode = .scroll → s.seq = .gap 0 → s.el = 0 →
    s.pos = 0 → s.frame = #v[0x20, 0x20, 0x20, 0x20] →
    ∀ k : Nat, ∃ t, RunsTo (k * (passesPerTick s s.scrollIvl.toNat * passCycles s)) s t ∧
      t.mode = .scroll ∧ t.seq = .gap 0 ∧ t.pos.toNat = k % (s.wlen.toNat + 4) ∧ t.snap = t.frame ∧
      ∀ i : Fin 4, t.frame[i] =
        if k + i.val < 4 then 0x20 else scrollStream s ((k + i.val - 4) % (s.wlen.toNat + 4))

/-- A bounded blink ends: with a strobe in every cycle and no command, from the start of a blink with bound
n at least 0 the block is in BLINK for (2n + 1) * m * P cycles and then in DONE, dark, with the target
still in FRAME (43_animation.md R108, R109, 70_reset_and_hazards.md R139).
Cycles past the listed input samples are quiet by the model's choice (notes/assumptions/3.md). -/
def Obligations.BoundedBlinkEndsDark : Prop :=
  ∀ s : State, BlockInv s → s.cfg.tbCycles = 1 → QuietInputs s → s.mode = .blink → s.seq = .gap 0 → s.el = 0 →
    s.hc = 0 → s.phase = .showing → 0 ≤ s.nrep.toInt →
    let N := (2 * s.nrep.toInt.toNat + 1) * (passesPerTick s s.blinkIvl.toNat * passCycles s)
    (∀ k, k < N → ∃ t, RunsTo k s t ∧ t.mode = .blink) ∧
    ∃ t, RunsTo N s t ∧ t.mode = .done ∧ t.done = true ∧ Dark t ∧ t.frame = s.tgt

/-! ## Rules over the whole machine -/

/-- Only these write: the parameters are never written; WORD only by WPUSH, WLEN by WRST and WPUSH, TGT and
NREP by SBLINK, each duration register by its SETREG with its value. A reset cycle is the other writer of
all but the parameters (10_state.md R26, R27, R28, R32, R33, R37). -/
def Obligations.StorageHasOnlyItsWriters : Prop :=
  ∀ s : State, ∃ t, step s = .next t ∧ t.cfg = s.cfg ∧
    ((pins s).rst = false →
      (t.word ≠ s.word → ∃ c, currentCommand s = .wpush c) ∧
      (t.wlen ≠ s.wlen → currentCommand s = .wrst ∨ ∃ c, currentCommand s = .wpush c) ∧
      (t.tgt ≠ s.tgt → ∃ n, currentCommand s = .sblink n) ∧
      (t.nrep ≠ s.nrep → currentCommand s = .sblink t.nrep) ∧
      (t.dwell ≠ s.dwell → currentCommand s = .setregDwell t.dwell) ∧
      (t.blinkIvl ≠ s.blinkIvl → currentCommand s = .setregBlinkIvl t.blinkIvl) ∧
      (t.scrollIvl ≠ s.scrollIvl → currentCommand s = .setregScrollIvl t.scrollIvl) ∧
      (t.clockIvl ≠ s.clockIvl → currentCommand s = .setregClockIvl t.clockIvl))

/-- Only these write the strategy's elements in a cycle without reset: MODE and DONE by CLEAR, the START
commands and blink termination; FRAME by a START or a firing tick; POS by SSCROLL or a scroll tick; PHASE
and HC by SBLINK or a blink tick (10_state.md R18, R24, R29, R30, R31, R34). -/
def Obligations.StrategyStateHasOnlyItsWriters : Prop :=
  ∀ s : State, BlockInv s → (pins s).rst = false → ∃ t, step s = .next t ∧
    (t.mode ≠ s.mode ∨ t.done ≠ s.done → isModeCommand s.cfg.hasClock (currentCommand s) = true ∨
      (s.mode = .blink ∧ AtPassEnd s ∧ tickDue s = true ∧ t.mode = .done ∧ t.done = true)) ∧
    (t.frame ≠ s.frame →
      (isModeCommand s.cfg.hasClock (currentCommand s) = true ∧ currentCommand s ≠ .clear) ∨
      (AtPassEnd s ∧ tickDue s = true)) ∧
    (t.pos ≠ s.pos → currentCommand s = .sscroll ∨ (s.mode = .scroll ∧ AtPassEnd s ∧ tickDue s = true)) ∧
    (t.phase ≠ s.phase ∨ t.hc ≠ s.hc →
      (∃ n, currentCommand s = .sblink n) ∨ (s.mode = .blink ∧ AtPassEnd s ∧ tickDue s = true))

/-- Which non-mode command a cycle presents makes no difference to the outputs of the next cycle: two cycles
from one state that differ only in it end in states that differ only in WORD, WLEN, the duration registers,
ERR and ECODE, so with the same `dig` and `seg`. Of later cycles nothing is said: a SETREG, or a WPUSH in
SCROLL, changes what those show (41_refresh.md R90). -/
def Obligations.NonModeCommandsLeaveTheNextOutputsAlone : Prop :=
  ∀ (s : State) (v w : CmdWord), isModeCommand s.cfg.hasClock (decode v) = false →
    isModeCommand s.cfg.hasClock (decode w) = false →
    ∃ t u, step (presenting s v) = .next t ∧ step (presenting s w) = .next u ∧
      u = { t with word := u.word, wlen := u.wlen, dwell := u.dwell, blinkIvl := u.blinkIvl,
                   scrollIvl := u.scrollIvl, clockIvl := u.clockIvl, err := u.err, ecode := u.ecode } ∧
      digOut u = digOut t ∧ segOut u = segOut t

/-- The entries of WORD at or above WLEN are never read: from two states that differ only in such entries,
every cycle ends in two states that differ only in entries at or above the new WLEN, with the same outputs
(10_state.md R27). -/
def Obligations.EntriesAboveWlenAreNeverRead : Prop :=
  ∀ (s : State) (other : List CharCode), BlockInv s → other.length = s.word.length →
    (∀ i, i < s.wlen.toNat → other[i]? = s.word[i]?) →
    ∃ t u, step s = .next t ∧ step { s with word := other } = .next u ∧
      u = { t with word := u.word } ∧ u.word.length = t.word.length ∧
      (∀ i, i < t.wlen.toNat → u.word[i]? = t.word[i]?) ∧
      digOut u = digOut t ∧ segOut u = segOut t ∧ statusOut u = statusOut t

/-- The block reads `tod_hour` and `tod_min` only in the cycle of an SCLOCK that it executes and in a firing
pass end of CLOCK: in every other cycle other values on them make the same next state
(70_reset_and_hazards.md R137). -/
def Obligations.TimeInputsAreReadOnlyByTheClock : Prop :=
  ∀ (s : State) (h : BitVec 5) (m : BitVec 6), BlockInv s →
    ¬((pins s).rst = false ∧ currentCommand s = .sclock ∧ s.cfg.hasClock = true) →
    ¬(SequencerSteps s ∧ s.mode = .clock ∧ AtPassEnd s ∧ tickDue s = true) →
    ∃ t, step s = .next t ∧ step (withPins s { pins s with todHour := h, todMin := m }) = .next t
end

