-- ==== Sys2Proof/Laws/State.lean ====
section
/-! SUPPORT. What each named update of the state does to each field: one lemma for each field and update. -/

namespace Sys2Proof.Machine

/-! ## advanceInputs -/

@[simp] theorem advanceInputs_cfg (s : State) : (advanceInputs s).cfg = s.cfg := rfl
@[simp] theorem advanceInputs_inputs (s : State) : (advanceInputs s).inputs = s.inputs.tail := rfl
@[simp] theorem advanceInputs_cycle (s : State) : (advanceInputs s).cycle = s.cycle + 1 := rfl
@[simp] theorem advanceInputs_mode (s : State) : (advanceInputs s).mode = s.mode := rfl
@[simp] theorem advanceInputs_seq (s : State) : (advanceInputs s).seq = s.seq := rfl
@[simp] theorem advanceInputs_pre (s : State) : (advanceInputs s).pre = s.pre := rfl
@[simp] theorem advanceInputs_cnt (s : State) : (advanceInputs s).cnt = s.cnt := rfl
@[simp] theorem advanceInputs_el (s : State) : (advanceInputs s).el = s.el := rfl
@[simp] theorem advanceInputs_frame (s : State) : (advanceInputs s).frame = s.frame := rfl
@[simp] theorem advanceInputs_snap (s : State) : (advanceInputs s).snap = s.snap := rfl
@[simp] theorem advanceInputs_tgt (s : State) : (advanceInputs s).tgt = s.tgt := rfl
@[simp] theorem advanceInputs_word (s : State) : (advanceInputs s).word = s.word := rfl
@[simp] theorem advanceInputs_wlen (s : State) : (advanceInputs s).wlen = s.wlen := rfl
@[simp] theorem advanceInputs_pos (s : State) : (advanceInputs s).pos = s.pos := rfl
@[simp] theorem advanceInputs_phase (s : State) : (advanceInputs s).phase = s.phase := rfl
@[simp] theorem advanceInputs_hc (s : State) : (advanceInputs s).hc = s.hc := rfl
@[simp] theorem advanceInputs_nrep (s : State) : (advanceInputs s).nrep = s.nrep := rfl
@[simp] theorem advanceInputs_dwell (s : State) : (advanceInputs s).dwell = s.dwell := rfl
@[simp] theorem advanceInputs_blinkIvl (s : State) : (advanceInputs s).blinkIvl = s.blinkIvl := rfl
@[simp] theorem advanceInputs_scrollIvl (s : State) : (advanceInputs s).scrollIvl = s.scrollIvl := rfl
@[simp] theorem advanceInputs_clockIvl (s : State) : (advanceInputs s).clockIvl = s.clockIvl := rfl
@[simp] theorem advanceInputs_done (s : State) : (advanceInputs s).done = s.done := rfl
@[simp] theorem advanceInputs_err (s : State) : (advanceInputs s).err = s.err := rfl
@[simp] theorem advanceInputs_ecode (s : State) : (advanceInputs s).ecode = s.ecode := rfl

/-! ## withPins -/

@[simp] theorem withPins_cfg (s : State) (i : Inputs) : (withPins s i).cfg = s.cfg := rfl
@[simp] theorem withPins_inputs (s : State) (i : Inputs) : (withPins s i).inputs = i :: s.inputs.tail := rfl
@[simp] theorem withPins_cycle (s : State) (i : Inputs) : (withPins s i).cycle = s.cycle := rfl
@[simp] theorem withPins_mode (s : State) (i : Inputs) : (withPins s i).mode = s.mode := rfl
@[simp] theorem withPins_seq (s : State) (i : Inputs) : (withPins s i).seq = s.seq := rfl
@[simp] theorem withPins_pre (s : State) (i : Inputs) : (withPins s i).pre = s.pre := rfl
@[simp] theorem withPins_cnt (s : State) (i : Inputs) : (withPins s i).cnt = s.cnt := rfl
@[simp] theorem withPins_el (s : State) (i : Inputs) : (withPins s i).el = s.el := rfl
@[simp] theorem withPins_frame (s : State) (i : Inputs) : (withPins s i).frame = s.frame := rfl
@[simp] theorem withPins_snap (s : State) (i : Inputs) : (withPins s i).snap = s.snap := rfl
@[simp] theorem withPins_tgt (s : State) (i : Inputs) : (withPins s i).tgt = s.tgt := rfl
@[simp] theorem withPins_word (s : State) (i : Inputs) : (withPins s i).word = s.word := rfl
@[simp] theorem withPins_wlen (s : State) (i : Inputs) : (withPins s i).wlen = s.wlen := rfl
@[simp] theorem withPins_pos (s : State) (i : Inputs) : (withPins s i).pos = s.pos := rfl
@[simp] theorem withPins_phase (s : State) (i : Inputs) : (withPins s i).phase = s.phase := rfl
@[simp] theorem withPins_hc (s : State) (i : Inputs) : (withPins s i).hc = s.hc := rfl
@[simp] theorem withPins_nrep (s : State) (i : Inputs) : (withPins s i).nrep = s.nrep := rfl
@[simp] theorem withPins_dwell (s : State) (i : Inputs) : (withPins s i).dwell = s.dwell := rfl
@[simp] theorem withPins_blinkIvl (s : State) (i : Inputs) : (withPins s i).blinkIvl = s.blinkIvl := rfl
@[simp] theorem withPins_scrollIvl (s : State) (i : Inputs) : (withPins s i).scrollIvl = s.scrollIvl := rfl
@[simp] theorem withPins_clockIvl (s : State) (i : Inputs) : (withPins s i).clockIvl = s.clockIvl := rfl
@[simp] theorem withPins_done (s : State) (i : Inputs) : (withPins s i).done = s.done := rfl
@[simp] theorem withPins_err (s : State) (i : Inputs) : (withPins s i).err = s.err := rfl
@[simp] theorem withPins_ecode (s : State) (i : Inputs) : (withPins s i).ecode = s.ecode := rfl

/-! ## appendWord -/

@[simp] theorem appendWord_cfg (c : CharCode) (s : State) : (appendWord c s).cfg = s.cfg := rfl
@[simp] theorem appendWord_inputs (c : CharCode) (s : State) : (appendWord c s).inputs = s.inputs := rfl
@[simp] theorem appendWord_cycle (c : CharCode) (s : State) : (appendWord c s).cycle = s.cycle := rfl
@[simp] theorem appendWord_mode (c : CharCode) (s : State) : (appendWord c s).mode = s.mode := rfl
@[simp] theorem appendWord_seq (c : CharCode) (s : State) : (appendWord c s).seq = s.seq := rfl
@[simp] theorem appendWord_pre (c : CharCode) (s : State) : (appendWord c s).pre = s.pre := rfl
@[simp] theorem appendWord_cnt (c : CharCode) (s : State) : (appendWord c s).cnt = s.cnt := rfl
@[simp] theorem appendWord_el (c : CharCode) (s : State) : (appendWord c s).el = s.el := rfl
@[simp] theorem appendWord_frame (c : CharCode) (s : State) : (appendWord c s).frame = s.frame := rfl
@[simp] theorem appendWord_snap (c : CharCode) (s : State) : (appendWord c s).snap = s.snap := rfl
@[simp] theorem appendWord_tgt (c : CharCode) (s : State) : (appendWord c s).tgt = s.tgt := rfl
@[simp] theorem appendWord_word (c : CharCode) (s : State) : (appendWord c s).word = s.word.set s.wlen.toNat c := rfl
@[simp] theorem appendWord_wlen (c : CharCode) (s : State) : (appendWord c s).wlen = s.wlen + 1 := rfl
@[simp] theorem appendWord_pos (c : CharCode) (s : State) : (appendWord c s).pos = s.pos := rfl
@[simp] theorem appendWord_phase (c : CharCode) (s : State) : (appendWord c s).phase = s.phase := rfl
@[simp] theorem appendWord_hc (c : CharCode) (s : State) : (appendWord c s).hc = s.hc := rfl
@[simp] theorem appendWord_nrep (c : CharCode) (s : State) : (appendWord c s).nrep = s.nrep := rfl
@[simp] theorem appendWord_dwell (c : CharCode) (s : State) : (appendWord c s).dwell = s.dwell := rfl
@[simp] theorem appendWord_blinkIvl (c : CharCode) (s : State) : (appendWord c s).blinkIvl = s.blinkIvl := rfl
@[simp] theorem appendWord_scrollIvl (c : CharCode) (s : State) : (appendWord c s).scrollIvl = s.scrollIvl := rfl
@[simp] theorem appendWord_clockIvl (c : CharCode) (s : State) : (appendWord c s).clockIvl = s.clockIvl := rfl
@[simp] theorem appendWord_done (c : CharCode) (s : State) : (appendWord c s).done = s.done := rfl
@[simp] theorem appendWord_err (c : CharCode) (s : State) : (appendWord c s).err = s.err := rfl
@[simp] theorem appendWord_ecode (c : CharCode) (s : State) : (appendWord c s).ecode = s.ecode := rfl

/-! ## startStrategy -/

@[simp] theorem startStrategy_cfg (m : Mode) (f : Frame) (s : State) : (startStrategy m f s).cfg = s.cfg := rfl
@[simp] theorem startStrategy_inputs (m : Mode) (f : Frame) (s : State) : (startStrategy m f s).inputs = s.inputs := rfl
@[simp] theorem startStrategy_cycle (m : Mode) (f : Frame) (s : State) : (startStrategy m f s).cycle = s.cycle := rfl
@[simp] theorem startStrategy_mode (m : Mode) (f : Frame) (s : State) : (startStrategy m f s).mode = m := rfl
@[simp] theorem startStrategy_seq (m : Mode) (f : Frame) (s : State) : (startStrategy m f s).seq = .gap 0 := rfl
@[simp] theorem startStrategy_pre (m : Mode) (f : Frame) (s : State) : (startStrategy m f s).pre = s.pre := rfl
@[simp] theorem startStrategy_cnt (m : Mode) (f : Frame) (s : State) : (startStrategy m f s).cnt = s.cnt := rfl
@[simp] theorem startStrategy_el (m : Mode) (f : Frame) (s : State) : (startStrategy m f s).el = 0 := rfl
@[simp] theorem startStrategy_frame (m : Mode) (f : Frame) (s : State) : (startStrategy m f s).frame = f := rfl
@[simp] theorem startStrategy_snap (m : Mode) (f : Frame) (s : State) : (startStrategy m f s).snap = f := rfl
@[simp] theorem startStrategy_tgt (m : Mode) (f : Frame) (s : State) : (startStrategy m f s).tgt = s.tgt := rfl
@[simp] theorem startStrategy_word (m : Mode) (f : Frame) (s : State) : (startStrategy m f s).word = s.word := rfl
@[simp] theorem startStrategy_wlen (m : Mode) (f : Frame) (s : State) : (startStrategy m f s).wlen = s.wlen := rfl
@[simp] theorem startStrategy_pos (m : Mode) (f : Frame) (s : State) : (startStrategy m f s).pos = s.pos := rfl
@[simp] theorem startStrategy_phase (m : Mode) (f : Frame) (s : State) : (startStrategy m f s).phase = s.phase := rfl
@[simp] theorem startStrategy_hc (m : Mode) (f : Frame) (s : State) : (startStrategy m f s).hc = s.hc := rfl
@[simp] theorem startStrategy_nrep (m : Mode) (f : Frame) (s : State) : (startStrategy m f s).nrep = s.nrep := rfl
@[simp] theorem startStrategy_dwell (m : Mode) (f : Frame) (s : State) : (startStrategy m f s).dwell = s.dwell := rfl
@[simp] theorem startStrategy_blinkIvl (m : Mode) (f : Frame) (s : State) : (startStrategy m f s).blinkIvl = s.blinkIvl := rfl
@[simp] theorem startStrategy_scrollIvl (m : Mode) (f : Frame) (s : State) : (startStrategy m f s).scrollIvl = s.scrollIvl := rfl
@[simp] theorem startStrategy_clockIvl (m : Mode) (f : Frame) (s : State) : (startStrategy m f s).clockIvl = s.clockIvl := rfl
@[simp] theorem startStrategy_done (m : Mode) (f : Frame) (s : State) : (startStrategy m f s).done = false := rfl
@[simp] theorem startStrategy_err (m : Mode) (f : Frame) (s : State) : (startStrategy m f s).err = s.err := rfl
@[simp] theorem startStrategy_ecode (m : Mode) (f : Frame) (s : State) : (startStrategy m f s).ecode = s.ecode := rfl

/-! ## resetCycle -/

@[simp] theorem resetCycle_cfg (s : State) : (resetCycle s).cfg = s.cfg := rfl
@[simp] theorem resetCycle_inputs (s : State) : (resetCycle s).inputs = s.inputs := rfl
@[simp] theorem resetCycle_cycle (s : State) : (resetCycle s).cycle = s.cycle := rfl
@[simp] theorem resetCycle_mode (s : State) : (resetCycle s).mode = .idle := rfl
@[simp] theorem resetCycle_seq (s : State) : (resetCycle s).seq = .off := rfl
@[simp] theorem resetCycle_pre (s : State) : (resetCycle s).pre = 0 := rfl
@[simp] theorem resetCycle_cnt (s : State) : (resetCycle s).cnt = 0 := rfl
@[simp] theorem resetCycle_el (s : State) : (resetCycle s).el = 0 := rfl
@[simp] theorem resetCycle_frame (s : State) : (resetCycle s).frame = blank4 := rfl
@[simp] theorem resetCycle_snap (s : State) : (resetCycle s).snap = blank4 := rfl
@[simp] theorem resetCycle_tgt (s : State) : (resetCycle s).tgt = blank4 := rfl
@[simp] theorem resetCycle_word (s : State) : (resetCycle s).word = s.word := rfl
@[simp] theorem resetCycle_wlen (s : State) : (resetCycle s).wlen = 0 := rfl
@[simp] theorem resetCycle_pos (s : State) : (resetCycle s).pos = 0 := rfl
@[simp] theorem resetCycle_phase (s : State) : (resetCycle s).phase = .showing := rfl
@[simp] theorem resetCycle_hc (s : State) : (resetCycle s).hc = 0 := rfl
@[simp] theorem resetCycle_nrep (s : State) : (resetCycle s).nrep = 0 := rfl
@[simp] theorem resetCycle_dwell (s : State) : (resetCycle s).dwell = s.cfg.dwellRst := rfl
@[simp] theorem resetCycle_blinkIvl (s : State) : (resetCycle s).blinkIvl = s.cfg.blinkIvlRst := rfl
@[simp] theorem resetCycle_scrollIvl (s : State) : (resetCycle s).scrollIvl = s.cfg.scrollIvlRst := rfl
@[simp] theorem resetCycle_clockIvl (s : State) : (resetCycle s).clockIvl = s.cfg.clockIvlRst := rfl
@[simp] theorem resetCycle_done (s : State) : (resetCycle s).done = false := rfl
@[simp] theorem resetCycle_err (s : State) : (resetCycle s).err = false := rfl
@[simp] theorem resetCycle_ecode (s : State) : (resetCycle s).ecode = 0 := rfl

/-! ## timebase -/

@[simp] theorem timebase_cfg (s : State) : (timebase s).cfg = s.cfg := rfl
@[simp] theorem timebase_inputs (s : State) : (timebase s).inputs = s.inputs := rfl
@[simp] theorem timebase_cycle (s : State) : (timebase s).cycle = s.cycle := rfl
@[simp] theorem timebase_mode (s : State) : (timebase s).mode = s.mode := rfl
@[simp] theorem timebase_seq (s : State) : (timebase s).seq = s.seq := rfl
@[simp] theorem timebase_pre (s : State) : (timebase s).pre = if strobe s then 0 else s.pre + 1 := rfl
@[simp] theorem timebase_cnt (s : State) : (timebase s).cnt = s.cnt := rfl
@[simp] theorem timebase_el (s : State) : (timebase s).el = elapsed s := rfl
@[simp] theorem timebase_frame (s : State) : (timebase s).frame = s.frame := rfl
@[simp] theorem timebase_snap (s : State) : (timebase s).snap = s.snap := rfl
@[simp] theorem timebase_tgt (s : State) : (timebase s).tgt = s.tgt := rfl
@[simp] theorem timebase_word (s : State) : (timebase s).word = s.word := rfl
@[simp] theorem timebase_wlen (s : State) : (timebase s).wlen = s.wlen := rfl
@[simp] theorem timebase_pos (s : State) : (timebase s).pos = s.pos := rfl
@[simp] theorem timebase_phase (s : State) : (timebase s).phase = s.phase := rfl
@[simp] theorem timebase_hc (s : State) : (timebase s).hc = s.hc := rfl
@[simp] theorem timebase_nrep (s : State) : (timebase s).nrep = s.nrep := rfl
@[simp] theorem timebase_dwell (s : State) : (timebase s).dwell = s.dwell := rfl
@[simp] theorem timebase_blinkIvl (s : State) : (timebase s).blinkIvl = s.blinkIvl := rfl
@[simp] theorem timebase_scrollIvl (s : State) : (timebase s).scrollIvl = s.scrollIvl := rfl
@[simp] theorem timebase_clockIvl (s : State) : (timebase s).clockIvl = s.clockIvl := rfl
@[simp] theorem timebase_done (s : State) : (timebase s).done = s.done := rfl
@[simp] theorem timebase_err (s : State) : (timebase s).err = s.err := rfl
@[simp] theorem timebase_ecode (s : State) : (timebase s).ecode = s.ecode := rfl

/-! ## gapStep -/

@[simp] theorem gapStep_cfg (p : DigitPos) (s : State) : (gapStep p s).cfg = s.cfg := rfl
@[simp] theorem gapStep_inputs (p : DigitPos) (s : State) : (gapStep p s).inputs = s.inputs := rfl
@[simp] theorem gapStep_cycle (p : DigitPos) (s : State) : (gapStep p s).cycle = s.cycle := rfl
@[simp] theorem gapStep_mode (p : DigitPos) (s : State) : (gapStep p s).mode = s.mode := rfl
@[simp] theorem gapStep_seq (p : DigitPos) (s : State) : (gapStep p s).seq = .hold p := rfl
@[simp] theorem gapStep_pre (p : DigitPos) (s : State) : (gapStep p s).pre = s.pre := rfl
@[simp] theorem gapStep_cnt (p : DigitPos) (s : State) : (gapStep p s).cnt = 0 := rfl
@[simp] theorem gapStep_el (p : DigitPos) (s : State) : (gapStep p s).el = s.el := rfl
@[simp] theorem gapStep_frame (p : DigitPos) (s : State) : (gapStep p s).frame = s.frame := rfl
@[simp] theorem gapStep_snap (p : DigitPos) (s : State) : (gapStep p s).snap = s.snap := rfl
@[simp] theorem gapStep_tgt (p : DigitPos) (s : State) : (gapStep p s).tgt = s.tgt := rfl
@[simp] theorem gapStep_word (p : DigitPos) (s : State) : (gapStep p s).word = s.word := rfl
@[simp] theorem gapStep_wlen (p : DigitPos) (s : State) : (gapStep p s).wlen = s.wlen := rfl
@[simp] theorem gapStep_pos (p : DigitPos) (s : State) : (gapStep p s).pos = s.pos := rfl
@[simp] theorem gapStep_phase (p : DigitPos) (s : State) : (gapStep p s).phase = s.phase := rfl
@[simp] theorem gapStep_hc (p : DigitPos) (s : State) : (gapStep p s).hc = s.hc := rfl
@[simp] theorem gapStep_nrep (p : DigitPos) (s : State) : (gapStep p s).nrep = s.nrep := rfl
@[simp] theorem gapStep_dwell (p : DigitPos) (s : State) : (gapStep p s).dwell = s.dwell := rfl
@[simp] theorem gapStep_blinkIvl (p : DigitPos) (s : State) : (gapStep p s).blinkIvl = s.blinkIvl := rfl
@[simp] theorem gapStep_scrollIvl (p : DigitPos) (s : State) : (gapStep p s).scrollIvl = s.scrollIvl := rfl
@[simp] theorem gapStep_clockIvl (p : DigitPos) (s : State) : (gapStep p s).clockIvl = s.clockIvl := rfl
@[simp] theorem gapStep_done (p : DigitPos) (s : State) : (gapStep p s).done = s.done := rfl
@[simp] theorem gapStep_err (p : DigitPos) (s : State) : (gapStep p s).err = s.err := rfl
@[simp] theorem gapStep_ecode (p : DigitPos) (s : State) : (gapStep p s).ecode = s.ecode := rfl

/-! ## terminate -/

@[simp] theorem terminate_cfg (s : State) : (terminate s).cfg = s.cfg := rfl
@[simp] theorem terminate_inputs (s : State) : (terminate s).inputs = s.inputs := rfl
@[simp] theorem terminate_cycle (s : State) : (terminate s).cycle = s.cycle := rfl
@[simp] theorem terminate_mode (s : State) : (terminate s).mode = .done := rfl
@[simp] theorem terminate_seq (s : State) : (terminate s).seq = .off := rfl
@[simp] theorem terminate_pre (s : State) : (terminate s).pre = s.pre := rfl
@[simp] theorem terminate_cnt (s : State) : (terminate s).cnt = s.cnt := rfl
@[simp] theorem terminate_el (s : State) : (terminate s).el = s.el := rfl
@[simp] theorem terminate_frame (s : State) : (terminate s).frame = s.frame := rfl
@[simp] theorem terminate_snap (s : State) : (terminate s).snap = s.snap := rfl
@[simp] theorem terminate_tgt (s : State) : (terminate s).tgt = s.tgt := rfl
@[simp] theorem terminate_word (s : State) : (terminate s).word = s.word := rfl
@[simp] theorem terminate_wlen (s : State) : (terminate s).wlen = s.wlen := rfl
@[simp] theorem terminate_pos (s : State) : (terminate s).pos = s.pos := rfl
@[simp] theorem terminate_phase (s : State) : (terminate s).phase = s.phase := rfl
@[simp] theorem terminate_hc (s : State) : (terminate s).hc = s.hc := rfl
@[simp] theorem terminate_nrep (s : State) : (terminate s).nrep = s.nrep := rfl
@[simp] theorem terminate_dwell (s : State) : (terminate s).dwell = s.dwell := rfl
@[simp] theorem terminate_blinkIvl (s : State) : (terminate s).blinkIvl = s.blinkIvl := rfl
@[simp] theorem terminate_scrollIvl (s : State) : (terminate s).scrollIvl = s.scrollIvl := rfl
@[simp] theorem terminate_clockIvl (s : State) : (terminate s).clockIvl = s.clockIvl := rfl
@[simp] theorem terminate_done (s : State) : (terminate s).done = true := rfl
@[simp] theorem terminate_err (s : State) : (terminate s).err = s.err := rfl
@[simp] theorem terminate_ecode (s : State) : (terminate s).ecode = s.ecode := rfl

/-! ## startPass -/

@[simp] theorem startPass_cfg (f : Frame) (s : State) : (startPass f s).cfg = s.cfg := rfl
@[simp] theorem startPass_inputs (f : Frame) (s : State) : (startPass f s).inputs = s.inputs := rfl
@[simp] theorem startPass_cycle (f : Frame) (s : State) : (startPass f s).cycle = s.cycle := rfl
@[simp] theorem startPass_mode (f : Frame) (s : State) : (startPass f s).mode = s.mode := rfl
@[simp] theorem startPass_seq (f : Frame) (s : State) : (startPass f s).seq = .gap 0 := rfl
@[simp] theorem startPass_pre (f : Frame) (s : State) : (startPass f s).pre = s.pre := rfl
@[simp] theorem startPass_cnt (f : Frame) (s : State) : (startPass f s).cnt = s.cnt := rfl
@[simp] theorem startPass_el (f : Frame) (s : State) : (startPass f s).el = s.el := rfl
@[simp] theorem startPass_frame (f : Frame) (s : State) : (startPass f s).frame = s.frame := rfl
@[simp] theorem startPass_snap (f : Frame) (s : State) : (startPass f s).snap = f := rfl
@[simp] theorem startPass_tgt (f : Frame) (s : State) : (startPass f s).tgt = s.tgt := rfl
@[simp] theorem startPass_word (f : Frame) (s : State) : (startPass f s).word = s.word := rfl
@[simp] theorem startPass_wlen (f : Frame) (s : State) : (startPass f s).wlen = s.wlen := rfl
@[simp] theorem startPass_pos (f : Frame) (s : State) : (startPass f s).pos = s.pos := rfl
@[simp] theorem startPass_phase (f : Frame) (s : State) : (startPass f s).phase = s.phase := rfl
@[simp] theorem startPass_hc (f : Frame) (s : State) : (startPass f s).hc = s.hc := rfl
@[simp] theorem startPass_nrep (f : Frame) (s : State) : (startPass f s).nrep = s.nrep := rfl
@[simp] theorem startPass_dwell (f : Frame) (s : State) : (startPass f s).dwell = s.dwell := rfl
@[simp] theorem startPass_blinkIvl (f : Frame) (s : State) : (startPass f s).blinkIvl = s.blinkIvl := rfl
@[simp] theorem startPass_scrollIvl (f : Frame) (s : State) : (startPass f s).scrollIvl = s.scrollIvl := rfl
@[simp] theorem startPass_clockIvl (f : Frame) (s : State) : (startPass f s).clockIvl = s.clockIvl := rfl
@[simp] theorem startPass_done (f : Frame) (s : State) : (startPass f s).done = s.done := rfl
@[simp] theorem startPass_err (f : Frame) (s : State) : (startPass f s).err = s.err := rfl
@[simp] theorem startPass_ecode (f : Frame) (s : State) : (startPass f s).ecode = s.ecode := rfl

/-! ## emptyWord -/

@[simp] theorem emptyWord_cfg (s : State) : (emptyWord s).cfg = s.cfg := rfl
@[simp] theorem emptyWord_inputs (s : State) : (emptyWord s).inputs = s.inputs := rfl
@[simp] theorem emptyWord_cycle (s : State) : (emptyWord s).cycle = s.cycle := rfl
@[simp] theorem emptyWord_mode (s : State) : (emptyWord s).mode = s.mode := rfl
@[simp] theorem emptyWord_seq (s : State) : (emptyWord s).seq = s.seq := rfl
@[simp] theorem emptyWord_pre (s : State) : (emptyWord s).pre = s.pre := rfl
@[simp] theorem emptyWord_cnt (s : State) : (emptyWord s).cnt = s.cnt := rfl
@[simp] theorem emptyWord_el (s : State) : (emptyWord s).el = s.el := rfl
@[simp] theorem emptyWord_frame (s : State) : (emptyWord s).frame = s.frame := rfl
@[simp] theorem emptyWord_snap (s : State) : (emptyWord s).snap = s.snap := rfl
@[simp] theorem emptyWord_tgt (s : State) : (emptyWord s).tgt = s.tgt := rfl
@[simp] theorem emptyWord_word (s : State) : (emptyWord s).word = s.word := rfl
@[simp] theorem emptyWord_wlen (s : State) : (emptyWord s).wlen = 0 := rfl
@[simp] theorem emptyWord_pos (s : State) : (emptyWord s).pos = s.pos := rfl
@[simp] theorem emptyWord_phase (s : State) : (emptyWord s).phase = s.phase := rfl
@[simp] theorem emptyWord_hc (s : State) : (emptyWord s).hc = s.hc := rfl
@[simp] theorem emptyWord_nrep (s : State) : (emptyWord s).nrep = s.nrep := rfl
@[simp] theorem emptyWord_dwell (s : State) : (emptyWord s).dwell = s.dwell := rfl
@[simp] theorem emptyWord_blinkIvl (s : State) : (emptyWord s).blinkIvl = s.blinkIvl := rfl
@[simp] theorem emptyWord_scrollIvl (s : State) : (emptyWord s).scrollIvl = s.scrollIvl := rfl
@[simp] theorem emptyWord_clockIvl (s : State) : (emptyWord s).clockIvl = s.clockIvl := rfl
@[simp] theorem emptyWord_done (s : State) : (emptyWord s).done = s.done := rfl
@[simp] theorem emptyWord_err (s : State) : (emptyWord s).err = s.err := rfl
@[simp] theorem emptyWord_ecode (s : State) : (emptyWord s).ecode = s.ecode := rfl

/-! ## setDwell -/

@[simp] theorem setDwell_cfg (v : BitVec 16) (s : State) : (setDwell v s).cfg = s.cfg := rfl
@[simp] theorem setDwell_inputs (v : BitVec 16) (s : State) : (setDwell v s).inputs = s.inputs := rfl
@[simp] theorem setDwell_cycle (v : BitVec 16) (s : State) : (setDwell v s).cycle = s.cycle := rfl
@[simp] theorem setDwell_mode (v : BitVec 16) (s : State) : (setDwell v s).mode = s.mode := rfl
@[simp] theorem setDwell_seq (v : BitVec 16) (s : State) : (setDwell v s).seq = s.seq := rfl
@[simp] theorem setDwell_pre (v : BitVec 16) (s : State) : (setDwell v s).pre = s.pre := rfl
@[simp] theorem setDwell_cnt (v : BitVec 16) (s : State) : (setDwell v s).cnt = s.cnt := rfl
@[simp] theorem setDwell_el (v : BitVec 16) (s : State) : (setDwell v s).el = s.el := rfl
@[simp] theorem setDwell_frame (v : BitVec 16) (s : State) : (setDwell v s).frame = s.frame := rfl
@[simp] theorem setDwell_snap (v : BitVec 16) (s : State) : (setDwell v s).snap = s.snap := rfl
@[simp] theorem setDwell_tgt (v : BitVec 16) (s : State) : (setDwell v s).tgt = s.tgt := rfl
@[simp] theorem setDwell_word (v : BitVec 16) (s : State) : (setDwell v s).word = s.word := rfl
@[simp] theorem setDwell_wlen (v : BitVec 16) (s : State) : (setDwell v s).wlen = s.wlen := rfl
@[simp] theorem setDwell_pos (v : BitVec 16) (s : State) : (setDwell v s).pos = s.pos := rfl
@[simp] theorem setDwell_phase (v : BitVec 16) (s : State) : (setDwell v s).phase = s.phase := rfl
@[simp] theorem setDwell_hc (v : BitVec 16) (s : State) : (setDwell v s).hc = s.hc := rfl
@[simp] theorem setDwell_nrep (v : BitVec 16) (s : State) : (setDwell v s).nrep = s.nrep := rfl
@[simp] theorem setDwell_dwell (v : BitVec 16) (s : State) : (setDwell v s).dwell = v := rfl
@[simp] theorem setDwell_blinkIvl (v : BitVec 16) (s : State) : (setDwell v s).blinkIvl = s.blinkIvl := rfl
@[simp] theorem setDwell_scrollIvl (v : BitVec 16) (s : State) : (setDwell v s).scrollIvl = s.scrollIvl := rfl
@[simp] theorem setDwell_clockIvl (v : BitVec 16) (s : State) : (setDwell v s).clockIvl = s.clockIvl := rfl
@[simp] theorem setDwell_done (v : BitVec 16) (s : State) : (setDwell v s).done = s.done := rfl
@[simp] theorem setDwell_err (v : BitVec 16) (s : State) : (setDwell v s).err = s.err := rfl
@[simp] theorem setDwell_ecode (v : BitVec 16) (s : State) : (setDwell v s).ecode = s.ecode := rfl

/-! ## setBlinkIvl -/

@[simp] theorem setBlinkIvl_cfg (v : BitVec 16) (s : State) : (setBlinkIvl v s).cfg = s.cfg := rfl
@[simp] theorem setBlinkIvl_inputs (v : BitVec 16) (s : State) : (setBlinkIvl v s).inputs = s.inputs := rfl
@[simp] theorem setBlinkIvl_cycle (v : BitVec 16) (s : State) : (setBlinkIvl v s).cycle = s.cycle := rfl
@[simp] theorem setBlinkIvl_mode (v : BitVec 16) (s : State) : (setBlinkIvl v s).mode = s.mode := rfl
@[simp] theorem setBlinkIvl_seq (v : BitVec 16) (s : State) : (setBlinkIvl v s).seq = s.seq := rfl
@[simp] theorem setBlinkIvl_pre (v : BitVec 16) (s : State) : (setBlinkIvl v s).pre = s.pre := rfl
@[simp] theorem setBlinkIvl_cnt (v : BitVec 16) (s : State) : (setBlinkIvl v s).cnt = s.cnt := rfl
@[simp] theorem setBlinkIvl_el (v : BitVec 16) (s : State) : (setBlinkIvl v s).el = s.el := rfl
@[simp] theorem setBlinkIvl_frame (v : BitVec 16) (s : State) : (setBlinkIvl v s).frame = s.frame := rfl
@[simp] theorem setBlinkIvl_snap (v : BitVec 16) (s : State) : (setBlinkIvl v s).snap = s.snap := rfl
@[simp] theorem setBlinkIvl_tgt (v : BitVec 16) (s : State) : (setBlinkIvl v s).tgt = s.tgt := rfl
@[simp] theorem setBlinkIvl_word (v : BitVec 16) (s : State) : (setBlinkIvl v s).word = s.word := rfl
@[simp] theorem setBlinkIvl_wlen (v : BitVec 16) (s : State) : (setBlinkIvl v s).wlen = s.wlen := rfl
@[simp] theorem setBlinkIvl_pos (v : BitVec 16) (s : State) : (setBlinkIvl v s).pos = s.pos := rfl
@[simp] theorem setBlinkIvl_phase (v : BitVec 16) (s : State) : (setBlinkIvl v s).phase = s.phase := rfl
@[simp] theorem setBlinkIvl_hc (v : BitVec 16) (s : State) : (setBlinkIvl v s).hc = s.hc := rfl
@[simp] theorem setBlinkIvl_nrep (v : BitVec 16) (s : State) : (setBlinkIvl v s).nrep = s.nrep := rfl
@[simp] theorem setBlinkIvl_dwell (v : BitVec 16) (s : State) : (setBlinkIvl v s).dwell = s.dwell := rfl
@[simp] theorem setBlinkIvl_blinkIvl (v : BitVec 16) (s : State) : (setBlinkIvl v s).blinkIvl = v := rfl
@[simp] theorem setBlinkIvl_scrollIvl (v : BitVec 16) (s : State) : (setBlinkIvl v s).scrollIvl = s.scrollIvl := rfl
@[simp] theorem setBlinkIvl_clockIvl (v : BitVec 16) (s : State) : (setBlinkIvl v s).clockIvl = s.clockIvl := rfl
@[simp] theorem setBlinkIvl_done (v : BitVec 16) (s : State) : (setBlinkIvl v s).done = s.done := rfl
@[simp] theorem setBlinkIvl_err (v : BitVec 16) (s : State) : (setBlinkIvl v s).err = s.err := rfl
@[simp] theorem setBlinkIvl_ecode (v : BitVec 16) (s : State) : (setBlinkIvl v s).ecode = s.ecode := rfl

/-! ## setScrollIvl -/

@[simp] theorem setScrollIvl_cfg (v : BitVec 16) (s : State) : (setScrollIvl v s).cfg = s.cfg := rfl
@[simp] theorem setScrollIvl_inputs (v : BitVec 16) (s : State) : (setScrollIvl v s).inputs = s.inputs := rfl
@[simp] theorem setScrollIvl_cycle (v : BitVec 16) (s : State) : (setScrollIvl v s).cycle = s.cycle := rfl
@[simp] theorem setScrollIvl_mode (v : BitVec 16) (s : State) : (setScrollIvl v s).mode = s.mode := rfl
@[simp] theorem setScrollIvl_seq (v : BitVec 16) (s : State) : (setScrollIvl v s).seq = s.seq := rfl
@[simp] theorem setScrollIvl_pre (v : BitVec 16) (s : State) : (setScrollIvl v s).pre = s.pre := rfl
@[simp] theorem setScrollIvl_cnt (v : BitVec 16) (s : State) : (setScrollIvl v s).cnt = s.cnt := rfl
@[simp] theorem setScrollIvl_el (v : BitVec 16) (s : State) : (setScrollIvl v s).el = s.el := rfl
@[simp] theorem setScrollIvl_frame (v : BitVec 16) (s : State) : (setScrollIvl v s).frame = s.frame := rfl
@[simp] theorem setScrollIvl_snap (v : BitVec 16) (s : State) : (setScrollIvl v s).snap = s.snap := rfl
@[simp] theorem setScrollIvl_tgt (v : BitVec 16) (s : State) : (setScrollIvl v s).tgt = s.tgt := rfl
@[simp] theorem setScrollIvl_word (v : BitVec 16) (s : State) : (setScrollIvl v s).word = s.word := rfl
@[simp] theorem setScrollIvl_wlen (v : BitVec 16) (s : State) : (setScrollIvl v s).wlen = s.wlen := rfl
@[simp] theorem setScrollIvl_pos (v : BitVec 16) (s : State) : (setScrollIvl v s).pos = s.pos := rfl
@[simp] theorem setScrollIvl_phase (v : BitVec 16) (s : State) : (setScrollIvl v s).phase = s.phase := rfl
@[simp] theorem setScrollIvl_hc (v : BitVec 16) (s : State) : (setScrollIvl v s).hc = s.hc := rfl
@[simp] theorem setScrollIvl_nrep (v : BitVec 16) (s : State) : (setScrollIvl v s).nrep = s.nrep := rfl
@[simp] theorem setScrollIvl_dwell (v : BitVec 16) (s : State) : (setScrollIvl v s).dwell = s.dwell := rfl
@[simp] theorem setScrollIvl_blinkIvl (v : BitVec 16) (s : State) : (setScrollIvl v s).blinkIvl = s.blinkIvl := rfl
@[simp] theorem setScrollIvl_scrollIvl (v : BitVec 16) (s : State) : (setScrollIvl v s).scrollIvl = v := rfl
@[simp] theorem setScrollIvl_clockIvl (v : BitVec 16) (s : State) : (setScrollIvl v s).clockIvl = s.clockIvl := rfl
@[simp] theorem setScrollIvl_done (v : BitVec 16) (s : State) : (setScrollIvl v s).done = s.done := rfl
@[simp] theorem setScrollIvl_err (v : BitVec 16) (s : State) : (setScrollIvl v s).err = s.err := rfl
@[simp] theorem setScrollIvl_ecode (v : BitVec 16) (s : State) : (setScrollIvl v s).ecode = s.ecode := rfl

/-! ## setClockIvl -/

@[simp] theorem setClockIvl_cfg (v : BitVec 16) (s : State) : (setClockIvl v s).cfg = s.cfg := rfl
@[simp] theorem setClockIvl_inputs (v : BitVec 16) (s : State) : (setClockIvl v s).inputs = s.inputs := rfl
@[simp] theorem setClockIvl_cycle (v : BitVec 16) (s : State) : (setClockIvl v s).cycle = s.cycle := rfl
@[simp] theorem setClockIvl_mode (v : BitVec 16) (s : State) : (setClockIvl v s).mode = s.mode := rfl
@[simp] theorem setClockIvl_seq (v : BitVec 16) (s : State) : (setClockIvl v s).seq = s.seq := rfl
@[simp] theorem setClockIvl_pre (v : BitVec 16) (s : State) : (setClockIvl v s).pre = s.pre := rfl
@[simp] theorem setClockIvl_cnt (v : BitVec 16) (s : State) : (setClockIvl v s).cnt = s.cnt := rfl
@[simp] theorem setClockIvl_el (v : BitVec 16) (s : State) : (setClockIvl v s).el = s.el := rfl
@[simp] theorem setClockIvl_frame (v : BitVec 16) (s : State) : (setClockIvl v s).frame = s.frame := rfl
@[simp] theorem setClockIvl_snap (v : BitVec 16) (s : State) : (setClockIvl v s).snap = s.snap := rfl
@[simp] theorem setClockIvl_tgt (v : BitVec 16) (s : State) : (setClockIvl v s).tgt = s.tgt := rfl
@[simp] theorem setClockIvl_word (v : BitVec 16) (s : State) : (setClockIvl v s).word = s.word := rfl
@[simp] theorem setClockIvl_wlen (v : BitVec 16) (s : State) : (setClockIvl v s).wlen = s.wlen := rfl
@[simp] theorem setClockIvl_pos (v : BitVec 16) (s : State) : (setClockIvl v s).pos = s.pos := rfl
@[simp] theorem setClockIvl_phase (v : BitVec 16) (s : State) : (setClockIvl v s).phase = s.phase := rfl
@[simp] theorem setClockIvl_hc (v : BitVec 16) (s : State) : (setClockIvl v s).hc = s.hc := rfl
@[simp] theorem setClockIvl_nrep (v : BitVec 16) (s : State) : (setClockIvl v s).nrep = s.nrep := rfl
@[simp] theorem setClockIvl_dwell (v : BitVec 16) (s : State) : (setClockIvl v s).dwell = s.dwell := rfl
@[simp] theorem setClockIvl_blinkIvl (v : BitVec 16) (s : State) : (setClockIvl v s).blinkIvl = s.blinkIvl := rfl
@[simp] theorem setClockIvl_scrollIvl (v : BitVec 16) (s : State) : (setClockIvl v s).scrollIvl = s.scrollIvl := rfl
@[simp] theorem setClockIvl_clockIvl (v : BitVec 16) (s : State) : (setClockIvl v s).clockIvl = v := rfl
@[simp] theorem setClockIvl_done (v : BitVec 16) (s : State) : (setClockIvl v s).done = s.done := rfl
@[simp] theorem setClockIvl_err (v : BitVec 16) (s : State) : (setClockIvl v s).err = s.err := rfl
@[simp] theorem setClockIvl_ecode (v : BitVec 16) (s : State) : (setClockIvl v s).ecode = s.ecode := rfl

/-! ## stopStrategy -/

@[simp] theorem stopStrategy_cfg (s : State) : (stopStrategy s).cfg = s.cfg := rfl
@[simp] theorem stopStrategy_inputs (s : State) : (stopStrategy s).inputs = s.inputs := rfl
@[simp] theorem stopStrategy_cycle (s : State) : (stopStrategy s).cycle = s.cycle := rfl
@[simp] theorem stopStrategy_mode (s : State) : (stopStrategy s).mode = .idle := rfl
@[simp] theorem stopStrategy_seq (s : State) : (stopStrategy s).seq = .off := rfl
@[simp] theorem stopStrategy_pre (s : State) : (stopStrategy s).pre = s.pre := rfl
@[simp] theorem stopStrategy_cnt (s : State) : (stopStrategy s).cnt = s.cnt := rfl
@[simp] theorem stopStrategy_el (s : State) : (stopStrategy s).el = s.el := rfl
@[simp] theorem stopStrategy_frame (s : State) : (stopStrategy s).frame = s.frame := rfl
@[simp] theorem stopStrategy_snap (s : State) : (stopStrategy s).snap = s.snap := rfl
@[simp] theorem stopStrategy_tgt (s : State) : (stopStrategy s).tgt = s.tgt := rfl
@[simp] theorem stopStrategy_word (s : State) : (stopStrategy s).word = s.word := rfl
@[simp] theorem stopStrategy_wlen (s : State) : (stopStrategy s).wlen = s.wlen := rfl
@[simp] theorem stopStrategy_pos (s : State) : (stopStrategy s).pos = s.pos := rfl
@[simp] theorem stopStrategy_phase (s : State) : (stopStrategy s).phase = s.phase := rfl
@[simp] theorem stopStrategy_hc (s : State) : (stopStrategy s).hc = s.hc := rfl
@[simp] theorem stopStrategy_nrep (s : State) : (stopStrategy s).nrep = s.nrep := rfl
@[simp] theorem stopStrategy_dwell (s : State) : (stopStrategy s).dwell = s.dwell := rfl
@[simp] theorem stopStrategy_blinkIvl (s : State) : (stopStrategy s).blinkIvl = s.blinkIvl := rfl
@[simp] theorem stopStrategy_scrollIvl (s : State) : (stopStrategy s).scrollIvl = s.scrollIvl := rfl
@[simp] theorem stopStrategy_clockIvl (s : State) : (stopStrategy s).clockIvl = s.clockIvl := rfl
@[simp] theorem stopStrategy_done (s : State) : (stopStrategy s).done = false := rfl
@[simp] theorem stopStrategy_err (s : State) : (stopStrategy s).err = s.err := rfl
@[simp] theorem stopStrategy_ecode (s : State) : (stopStrategy s).ecode = s.ecode := rfl

/-! ## armBlink -/

@[simp] theorem armBlink_cfg (n : BitVec 16) (f : Frame) (s : State) : (armBlink n f s).cfg = s.cfg := rfl
@[simp] theorem armBlink_inputs (n : BitVec 16) (f : Frame) (s : State) : (armBlink n f s).inputs = s.inputs := rfl
@[simp] theorem armBlink_cycle (n : BitVec 16) (f : Frame) (s : State) : (armBlink n f s).cycle = s.cycle := rfl
@[simp] theorem armBlink_mode (n : BitVec 16) (f : Frame) (s : State) : (armBlink n f s).mode = s.mode := rfl
@[simp] theorem armBlink_seq (n : BitVec 16) (f : Frame) (s : State) : (armBlink n f s).seq = s.seq := rfl
@[simp] theorem armBlink_pre (n : BitVec 16) (f : Frame) (s : State) : (armBlink n f s).pre = s.pre := rfl
@[simp] theorem armBlink_cnt (n : BitVec 16) (f : Frame) (s : State) : (armBlink n f s).cnt = s.cnt := rfl
@[simp] theorem armBlink_el (n : BitVec 16) (f : Frame) (s : State) : (armBlink n f s).el = s.el := rfl
@[simp] theorem armBlink_frame (n : BitVec 16) (f : Frame) (s : State) : (armBlink n f s).frame = s.frame := rfl
@[simp] theorem armBlink_snap (n : BitVec 16) (f : Frame) (s : State) : (armBlink n f s).snap = s.snap := rfl
@[simp] theorem armBlink_tgt (n : BitVec 16) (f : Frame) (s : State) : (armBlink n f s).tgt = f := rfl
@[simp] theorem armBlink_word (n : BitVec 16) (f : Frame) (s : State) : (armBlink n f s).word = s.word := rfl
@[simp] theorem armBlink_wlen (n : BitVec 16) (f : Frame) (s : State) : (armBlink n f s).wlen = s.wlen := rfl
@[simp] theorem armBlink_pos (n : BitVec 16) (f : Frame) (s : State) : (armBlink n f s).pos = s.pos := rfl
@[simp] theorem armBlink_phase (n : BitVec 16) (f : Frame) (s : State) : (armBlink n f s).phase = .showing := rfl
@[simp] theorem armBlink_hc (n : BitVec 16) (f : Frame) (s : State) : (armBlink n f s).hc = 0 := rfl
@[simp] theorem armBlink_nrep (n : BitVec 16) (f : Frame) (s : State) : (armBlink n f s).nrep = n := rfl
@[simp] theorem armBlink_dwell (n : BitVec 16) (f : Frame) (s : State) : (armBlink n f s).dwell = s.dwell := rfl
@[simp] theorem armBlink_blinkIvl (n : BitVec 16) (f : Frame) (s : State) : (armBlink n f s).blinkIvl = s.blinkIvl := rfl
@[simp] theorem armBlink_scrollIvl (n : BitVec 16) (f : Frame) (s : State) : (armBlink n f s).scrollIvl = s.scrollIvl := rfl
@[simp] theorem armBlink_clockIvl (n : BitVec 16) (f : Frame) (s : State) : (armBlink n f s).clockIvl = s.clockIvl := rfl
@[simp] theorem armBlink_done (n : BitVec 16) (f : Frame) (s : State) : (armBlink n f s).done = s.done := rfl
@[simp] theorem armBlink_err (n : BitVec 16) (f : Frame) (s : State) : (armBlink n f s).err = s.err := rfl
@[simp] theorem armBlink_ecode (n : BitVec 16) (f : Frame) (s : State) : (armBlink n f s).ecode = s.ecode := rfl

/-! ## rewindScroll -/

@[simp] theorem rewindScroll_cfg (s : State) : (rewindScroll s).cfg = s.cfg := rfl
@[simp] theorem rewindScroll_inputs (s : State) : (rewindScroll s).inputs = s.inputs := rfl
@[simp] theorem rewindScroll_cycle (s : State) : (rewindScroll s).cycle = s.cycle := rfl
@[simp] theorem rewindScroll_mode (s : State) : (rewindScroll s).mode = s.mode := rfl
@[simp] theorem rewindScroll_seq (s : State) : (rewindScroll s).seq = s.seq := rfl
@[simp] theorem rewindScroll_pre (s : State) : (rewindScroll s).pre = s.pre := rfl
@[simp] theorem rewindScroll_cnt (s : State) : (rewindScroll s).cnt = s.cnt := rfl
@[simp] theorem rewindScroll_el (s : State) : (rewindScroll s).el = s.el := rfl
@[simp] theorem rewindScroll_frame (s : State) : (rewindScroll s).frame = s.frame := rfl
@[simp] theorem rewindScroll_snap (s : State) : (rewindScroll s).snap = s.snap := rfl
@[simp] theorem rewindScroll_tgt (s : State) : (rewindScroll s).tgt = s.tgt := rfl
@[simp] theorem rewindScroll_word (s : State) : (rewindScroll s).word = s.word := rfl
@[simp] theorem rewindScroll_wlen (s : State) : (rewindScroll s).wlen = s.wlen := rfl
@[simp] theorem rewindScroll_pos (s : State) : (rewindScroll s).pos = 0 := rfl
@[simp] theorem rewindScroll_phase (s : State) : (rewindScroll s).phase = s.phase := rfl
@[simp] theorem rewindScroll_hc (s : State) : (rewindScroll s).hc = s.hc := rfl
@[simp] theorem rewindScroll_nrep (s : State) : (rewindScroll s).nrep = s.nrep := rfl
@[simp] theorem rewindScroll_dwell (s : State) : (rewindScroll s).dwell = s.dwell := rfl
@[simp] theorem rewindScroll_blinkIvl (s : State) : (rewindScroll s).blinkIvl = s.blinkIvl := rfl
@[simp] theorem rewindScroll_scrollIvl (s : State) : (rewindScroll s).scrollIvl = s.scrollIvl := rfl
@[simp] theorem rewindScroll_clockIvl (s : State) : (rewindScroll s).clockIvl = s.clockIvl := rfl
@[simp] theorem rewindScroll_done (s : State) : (rewindScroll s).done = s.done := rfl
@[simp] theorem rewindScroll_err (s : State) : (rewindScroll s).err = s.err := rfl
@[simp] theorem rewindScroll_ecode (s : State) : (rewindScroll s).ecode = s.ecode := rfl

/-! ## setHalfCycles -/

@[simp] theorem setHalfCycles_cfg (h : Nat) (s : State) : (setHalfCycles h s).cfg = s.cfg := rfl
@[simp] theorem setHalfCycles_inputs (h : Nat) (s : State) : (setHalfCycles h s).inputs = s.inputs := rfl
@[simp] theorem setHalfCycles_cycle (h : Nat) (s : State) : (setHalfCycles h s).cycle = s.cycle := rfl
@[simp] theorem setHalfCycles_mode (h : Nat) (s : State) : (setHalfCycles h s).mode = s.mode := rfl
@[simp] theorem setHalfCycles_seq (h : Nat) (s : State) : (setHalfCycles h s).seq = s.seq := rfl
@[simp] theorem setHalfCycles_pre (h : Nat) (s : State) : (setHalfCycles h s).pre = s.pre := rfl
@[simp] theorem setHalfCycles_cnt (h : Nat) (s : State) : (setHalfCycles h s).cnt = s.cnt := rfl
@[simp] theorem setHalfCycles_el (h : Nat) (s : State) : (setHalfCycles h s).el = s.el := rfl
@[simp] theorem setHalfCycles_frame (h : Nat) (s : State) : (setHalfCycles h s).frame = s.frame := rfl
@[simp] theorem setHalfCycles_snap (h : Nat) (s : State) : (setHalfCycles h s).snap = s.snap := rfl
@[simp] theorem setHalfCycles_tgt (h : Nat) (s : State) : (setHalfCycles h s).tgt = s.tgt := rfl
@[simp] theorem setHalfCycles_word (h : Nat) (s : State) : (setHalfCycles h s).word = s.word := rfl
@[simp] theorem setHalfCycles_wlen (h : Nat) (s : State) : (setHalfCycles h s).wlen = s.wlen := rfl
@[simp] theorem setHalfCycles_pos (h : Nat) (s : State) : (setHalfCycles h s).pos = s.pos := rfl
@[simp] theorem setHalfCycles_phase (h : Nat) (s : State) : (setHalfCycles h s).phase = s.phase := rfl
@[simp] theorem setHalfCycles_hc (h : Nat) (s : State) : (setHalfCycles h s).hc = BitVec.ofNat 16 h := rfl
@[simp] theorem setHalfCycles_nrep (h : Nat) (s : State) : (setHalfCycles h s).nrep = s.nrep := rfl
@[simp] theorem setHalfCycles_dwell (h : Nat) (s : State) : (setHalfCycles h s).dwell = s.dwell := rfl
@[simp] theorem setHalfCycles_blinkIvl (h : Nat) (s : State) : (setHalfCycles h s).blinkIvl = s.blinkIvl := rfl
@[simp] theorem setHalfCycles_scrollIvl (h : Nat) (s : State) : (setHalfCycles h s).scrollIvl = s.scrollIvl := rfl
@[simp] theorem setHalfCycles_clockIvl (h : Nat) (s : State) : (setHalfCycles h s).clockIvl = s.clockIvl := rfl
@[simp] theorem setHalfCycles_done (h : Nat) (s : State) : (setHalfCycles h s).done = s.done := rfl
@[simp] theorem setHalfCycles_err (h : Nat) (s : State) : (setHalfCycles h s).err = s.err := rfl
@[simp] theorem setHalfCycles_ecode (h : Nat) (s : State) : (setHalfCycles h s).ecode = s.ecode := rfl

/-! ## flipTo -/

@[simp] theorem flipTo_cfg (p : Phase) (f : Frame) (s : State) : (flipTo p f s).cfg = s.cfg := rfl
@[simp] theorem flipTo_inputs (p : Phase) (f : Frame) (s : State) : (flipTo p f s).inputs = s.inputs := rfl
@[simp] theorem flipTo_cycle (p : Phase) (f : Frame) (s : State) : (flipTo p f s).cycle = s.cycle := rfl
@[simp] theorem flipTo_mode (p : Phase) (f : Frame) (s : State) : (flipTo p f s).mode = s.mode := rfl
@[simp] theorem flipTo_seq (p : Phase) (f : Frame) (s : State) : (flipTo p f s).seq = s.seq := rfl
@[simp] theorem flipTo_pre (p : Phase) (f : Frame) (s : State) : (flipTo p f s).pre = s.pre := rfl
@[simp] theorem flipTo_cnt (p : Phase) (f : Frame) (s : State) : (flipTo p f s).cnt = s.cnt := rfl
@[simp] theorem flipTo_el (p : Phase) (f : Frame) (s : State) : (flipTo p f s).el = s.el := rfl
@[simp] theorem flipTo_frame (p : Phase) (f : Frame) (s : State) : (flipTo p f s).frame = f := rfl
@[simp] theorem flipTo_snap (p : Phase) (f : Frame) (s : State) : (flipTo p f s).snap = s.snap := rfl
@[simp] theorem flipTo_tgt (p : Phase) (f : Frame) (s : State) : (flipTo p f s).tgt = s.tgt := rfl
@[simp] theorem flipTo_word (p : Phase) (f : Frame) (s : State) : (flipTo p f s).word = s.word := rfl
@[simp] theorem flipTo_wlen (p : Phase) (f : Frame) (s : State) : (flipTo p f s).wlen = s.wlen := rfl
@[simp] theorem flipTo_pos (p : Phase) (f : Frame) (s : State) : (flipTo p f s).pos = s.pos := rfl
@[simp] theorem flipTo_phase (p : Phase) (f : Frame) (s : State) : (flipTo p f s).phase = p := rfl
@[simp] theorem flipTo_hc (p : Phase) (f : Frame) (s : State) : (flipTo p f s).hc = s.hc := rfl
@[simp] theorem flipTo_nrep (p : Phase) (f : Frame) (s : State) : (flipTo p f s).nrep = s.nrep := rfl
@[simp] theorem flipTo_dwell (p : Phase) (f : Frame) (s : State) : (flipTo p f s).dwell = s.dwell := rfl
@[simp] theorem flipTo_blinkIvl (p : Phase) (f : Frame) (s : State) : (flipTo p f s).blinkIvl = s.blinkIvl := rfl
@[simp] theorem flipTo_scrollIvl (p : Phase) (f : Frame) (s : State) : (flipTo p f s).scrollIvl = s.scrollIvl := rfl
@[simp] theorem flipTo_clockIvl (p : Phase) (f : Frame) (s : State) : (flipTo p f s).clockIvl = s.clockIvl := rfl
@[simp] theorem flipTo_done (p : Phase) (f : Frame) (s : State) : (flipTo p f s).done = s.done := rfl
@[simp] theorem flipTo_err (p : Phase) (f : Frame) (s : State) : (flipTo p f s).err = s.err := rfl
@[simp] theorem flipTo_ecode (p : Phase) (f : Frame) (s : State) : (flipTo p f s).ecode = s.ecode := rfl

/-! ## scrollTo -/

@[simp] theorem scrollTo_cfg (p : BitVec 7) (f : Frame) (s : State) : (scrollTo p f s).cfg = s.cfg := rfl
@[simp] theorem scrollTo_inputs (p : BitVec 7) (f : Frame) (s : State) : (scrollTo p f s).inputs = s.inputs := rfl
@[simp] theorem scrollTo_cycle (p : BitVec 7) (f : Frame) (s : State) : (scrollTo p f s).cycle = s.cycle := rfl
@[simp] theorem scrollTo_mode (p : BitVec 7) (f : Frame) (s : State) : (scrollTo p f s).mode = s.mode := rfl
@[simp] theorem scrollTo_seq (p : BitVec 7) (f : Frame) (s : State) : (scrollTo p f s).seq = s.seq := rfl
@[simp] theorem scrollTo_pre (p : BitVec 7) (f : Frame) (s : State) : (scrollTo p f s).pre = s.pre := rfl
@[simp] theorem scrollTo_cnt (p : BitVec 7) (f : Frame) (s : State) : (scrollTo p f s).cnt = s.cnt := rfl
@[simp] theorem scrollTo_el (p : BitVec 7) (f : Frame) (s : State) : (scrollTo p f s).el = s.el := rfl
@[simp] theorem scrollTo_frame (p : BitVec 7) (f : Frame) (s : State) : (scrollTo p f s).frame = f := rfl
@[simp] theorem scrollTo_snap (p : BitVec 7) (f : Frame) (s : State) : (scrollTo p f s).snap = s.snap := rfl
@[simp] theorem scrollTo_tgt (p : BitVec 7) (f : Frame) (s : State) : (scrollTo p f s).tgt = s.tgt := rfl
@[simp] theorem scrollTo_word (p : BitVec 7) (f : Frame) (s : State) : (scrollTo p f s).word = s.word := rfl
@[simp] theorem scrollTo_wlen (p : BitVec 7) (f : Frame) (s : State) : (scrollTo p f s).wlen = s.wlen := rfl
@[simp] theorem scrollTo_pos (p : BitVec 7) (f : Frame) (s : State) : (scrollTo p f s).pos = p := rfl
@[simp] theorem scrollTo_phase (p : BitVec 7) (f : Frame) (s : State) : (scrollTo p f s).phase = s.phase := rfl
@[simp] theorem scrollTo_hc (p : BitVec 7) (f : Frame) (s : State) : (scrollTo p f s).hc = s.hc := rfl
@[simp] theorem scrollTo_nrep (p : BitVec 7) (f : Frame) (s : State) : (scrollTo p f s).nrep = s.nrep := rfl
@[simp] theorem scrollTo_dwell (p : BitVec 7) (f : Frame) (s : State) : (scrollTo p f s).dwell = s.dwell := rfl
@[simp] theorem scrollTo_blinkIvl (p : BitVec 7) (f : Frame) (s : State) : (scrollTo p f s).blinkIvl = s.blinkIvl := rfl
@[simp] theorem scrollTo_scrollIvl (p : BitVec 7) (f : Frame) (s : State) : (scrollTo p f s).scrollIvl = s.scrollIvl := rfl
@[simp] theorem scrollTo_clockIvl (p : BitVec 7) (f : Frame) (s : State) : (scrollTo p f s).clockIvl = s.clockIvl := rfl
@[simp] theorem scrollTo_done (p : BitVec 7) (f : Frame) (s : State) : (scrollTo p f s).done = s.done := rfl
@[simp] theorem scrollTo_err (p : BitVec 7) (f : Frame) (s : State) : (scrollTo p f s).err = s.err := rfl
@[simp] theorem scrollTo_ecode (p : BitVec 7) (f : Frame) (s : State) : (scrollTo p f s).ecode = s.ecode := rfl

/-! ## setFrame -/

@[simp] theorem setFrame_cfg (f : Frame) (s : State) : (setFrame f s).cfg = s.cfg := rfl
@[simp] theorem setFrame_inputs (f : Frame) (s : State) : (setFrame f s).inputs = s.inputs := rfl
@[simp] theorem setFrame_cycle (f : Frame) (s : State) : (setFrame f s).cycle = s.cycle := rfl
@[simp] theorem setFrame_mode (f : Frame) (s : State) : (setFrame f s).mode = s.mode := rfl
@[simp] theorem setFrame_seq (f : Frame) (s : State) : (setFrame f s).seq = s.seq := rfl
@[simp] theorem setFrame_pre (f : Frame) (s : State) : (setFrame f s).pre = s.pre := rfl
@[simp] theorem setFrame_cnt (f : Frame) (s : State) : (setFrame f s).cnt = s.cnt := rfl
@[simp] theorem setFrame_el (f : Frame) (s : State) : (setFrame f s).el = s.el := rfl
@[simp] theorem setFrame_frame (f : Frame) (s : State) : (setFrame f s).frame = f := rfl
@[simp] theorem setFrame_snap (f : Frame) (s : State) : (setFrame f s).snap = s.snap := rfl
@[simp] theorem setFrame_tgt (f : Frame) (s : State) : (setFrame f s).tgt = s.tgt := rfl
@[simp] theorem setFrame_word (f : Frame) (s : State) : (setFrame f s).word = s.word := rfl
@[simp] theorem setFrame_wlen (f : Frame) (s : State) : (setFrame f s).wlen = s.wlen := rfl
@[simp] theorem setFrame_pos (f : Frame) (s : State) : (setFrame f s).pos = s.pos := rfl
@[simp] theorem setFrame_phase (f : Frame) (s : State) : (setFrame f s).phase = s.phase := rfl
@[simp] theorem setFrame_hc (f : Frame) (s : State) : (setFrame f s).hc = s.hc := rfl
@[simp] theorem setFrame_nrep (f : Frame) (s : State) : (setFrame f s).nrep = s.nrep := rfl
@[simp] theorem setFrame_dwell (f : Frame) (s : State) : (setFrame f s).dwell = s.dwell := rfl
@[simp] theorem setFrame_blinkIvl (f : Frame) (s : State) : (setFrame f s).blinkIvl = s.blinkIvl := rfl
@[simp] theorem setFrame_scrollIvl (f : Frame) (s : State) : (setFrame f s).scrollIvl = s.scrollIvl := rfl
@[simp] theorem setFrame_clockIvl (f : Frame) (s : State) : (setFrame f s).clockIvl = s.clockIvl := rfl
@[simp] theorem setFrame_done (f : Frame) (s : State) : (setFrame f s).done = s.done := rfl
@[simp] theorem setFrame_err (f : Frame) (s : State) : (setFrame f s).err = s.err := rfl
@[simp] theorem setFrame_ecode (f : Frame) (s : State) : (setFrame f s).ecode = s.ecode := rfl

/-! ## clearElapsed -/

@[simp] theorem clearElapsed_cfg (s : State) : (clearElapsed s).cfg = s.cfg := rfl
@[simp] theorem clearElapsed_inputs (s : State) : (clearElapsed s).inputs = s.inputs := rfl
@[simp] theorem clearElapsed_cycle (s : State) : (clearElapsed s).cycle = s.cycle := rfl
@[simp] theorem clearElapsed_mode (s : State) : (clearElapsed s).mode = s.mode := rfl
@[simp] theorem clearElapsed_seq (s : State) : (clearElapsed s).seq = s.seq := rfl
@[simp] theorem clearElapsed_pre (s : State) : (clearElapsed s).pre = s.pre := rfl
@[simp] theorem clearElapsed_cnt (s : State) : (clearElapsed s).cnt = s.cnt := rfl
@[simp] theorem clearElapsed_el (s : State) : (clearElapsed s).el = 0 := rfl
@[simp] theorem clearElapsed_frame (s : State) : (clearElapsed s).frame = s.frame := rfl
@[simp] theorem clearElapsed_snap (s : State) : (clearElapsed s).snap = s.snap := rfl
@[simp] theorem clearElapsed_tgt (s : State) : (clearElapsed s).tgt = s.tgt := rfl
@[simp] theorem clearElapsed_word (s : State) : (clearElapsed s).word = s.word := rfl
@[simp] theorem clearElapsed_wlen (s : State) : (clearElapsed s).wlen = s.wlen := rfl
@[simp] theorem clearElapsed_pos (s : State) : (clearElapsed s).pos = s.pos := rfl
@[simp] theorem clearElapsed_phase (s : State) : (clearElapsed s).phase = s.phase := rfl
@[simp] theorem clearElapsed_hc (s : State) : (clearElapsed s).hc = s.hc := rfl
@[simp] theorem clearElapsed_nrep (s : State) : (clearElapsed s).nrep = s.nrep := rfl
@[simp] theorem clearElapsed_dwell (s : State) : (clearElapsed s).dwell = s.dwell := rfl
@[simp] theorem clearElapsed_blinkIvl (s : State) : (clearElapsed s).blinkIvl = s.blinkIvl := rfl
@[simp] theorem clearElapsed_scrollIvl (s : State) : (clearElapsed s).scrollIvl = s.scrollIvl := rfl
@[simp] theorem clearElapsed_clockIvl (s : State) : (clearElapsed s).clockIvl = s.clockIvl := rfl
@[simp] theorem clearElapsed_done (s : State) : (clearElapsed s).done = s.done := rfl
@[simp] theorem clearElapsed_err (s : State) : (clearElapsed s).err = s.err := rfl
@[simp] theorem clearElapsed_ecode (s : State) : (clearElapsed s).ecode = s.ecode := rfl

/-! ## leaveHold -/

@[simp] theorem leaveHold_cfg (p : DigitPos) (s : State) : (leaveHold p s).cfg = s.cfg := rfl
@[simp] theorem leaveHold_inputs (p : DigitPos) (s : State) : (leaveHold p s).inputs = s.inputs := rfl
@[simp] theorem leaveHold_cycle (p : DigitPos) (s : State) : (leaveHold p s).cycle = s.cycle := rfl
@[simp] theorem leaveHold_mode (p : DigitPos) (s : State) : (leaveHold p s).mode = s.mode := rfl
@[simp] theorem leaveHold_seq (p : DigitPos) (s : State) : (leaveHold p s).seq = .gap (p + 1) := rfl
@[simp] theorem leaveHold_pre (p : DigitPos) (s : State) : (leaveHold p s).pre = s.pre := rfl
@[simp] theorem leaveHold_cnt (p : DigitPos) (s : State) : (leaveHold p s).cnt = s.cnt := rfl
@[simp] theorem leaveHold_el (p : DigitPos) (s : State) : (leaveHold p s).el = s.el := rfl
@[simp] theorem leaveHold_frame (p : DigitPos) (s : State) : (leaveHold p s).frame = s.frame := rfl
@[simp] theorem leaveHold_snap (p : DigitPos) (s : State) : (leaveHold p s).snap = s.snap := rfl
@[simp] theorem leaveHold_tgt (p : DigitPos) (s : State) : (leaveHold p s).tgt = s.tgt := rfl
@[simp] theorem leaveHold_word (p : DigitPos) (s : State) : (leaveHold p s).word = s.word := rfl
@[simp] theorem leaveHold_wlen (p : DigitPos) (s : State) : (leaveHold p s).wlen = s.wlen := rfl
@[simp] theorem leaveHold_pos (p : DigitPos) (s : State) : (leaveHold p s).pos = s.pos := rfl
@[simp] theorem leaveHold_phase (p : DigitPos) (s : State) : (leaveHold p s).phase = s.phase := rfl
@[simp] theorem leaveHold_hc (p : DigitPos) (s : State) : (leaveHold p s).hc = s.hc := rfl
@[simp] theorem leaveHold_nrep (p : DigitPos) (s : State) : (leaveHold p s).nrep = s.nrep := rfl
@[simp] theorem leaveHold_dwell (p : DigitPos) (s : State) : (leaveHold p s).dwell = s.dwell := rfl
@[simp] theorem leaveHold_blinkIvl (p : DigitPos) (s : State) : (leaveHold p s).blinkIvl = s.blinkIvl := rfl
@[simp] theorem leaveHold_scrollIvl (p : DigitPos) (s : State) : (leaveHold p s).scrollIvl = s.scrollIvl := rfl
@[simp] theorem leaveHold_clockIvl (p : DigitPos) (s : State) : (leaveHold p s).clockIvl = s.clockIvl := rfl
@[simp] theorem leaveHold_done (p : DigitPos) (s : State) : (leaveHold p s).done = s.done := rfl
@[simp] theorem leaveHold_err (p : DigitPos) (s : State) : (leaveHold p s).err = s.err := rfl
@[simp] theorem leaveHold_ecode (p : DigitPos) (s : State) : (leaveHold p s).ecode = s.ecode := rfl

/-! ## setCount -/

@[simp] theorem setCount_cfg (c : Nat) (s : State) : (setCount c s).cfg = s.cfg := rfl
@[simp] theorem setCount_inputs (c : Nat) (s : State) : (setCount c s).inputs = s.inputs := rfl
@[simp] theorem setCount_cycle (c : Nat) (s : State) : (setCount c s).cycle = s.cycle := rfl
@[simp] theorem setCount_mode (c : Nat) (s : State) : (setCount c s).mode = s.mode := rfl
@[simp] theorem setCount_seq (c : Nat) (s : State) : (setCount c s).seq = s.seq := rfl
@[simp] theorem setCount_pre (c : Nat) (s : State) : (setCount c s).pre = s.pre := rfl
@[simp] theorem setCount_cnt (c : Nat) (s : State) : (setCount c s).cnt = BitVec.ofNat 16 c := rfl
@[simp] theorem setCount_el (c : Nat) (s : State) : (setCount c s).el = s.el := rfl
@[simp] theorem setCount_frame (c : Nat) (s : State) : (setCount c s).frame = s.frame := rfl
@[simp] theorem setCount_snap (c : Nat) (s : State) : (setCount c s).snap = s.snap := rfl
@[simp] theorem setCount_tgt (c : Nat) (s : State) : (setCount c s).tgt = s.tgt := rfl
@[simp] theorem setCount_word (c : Nat) (s : State) : (setCount c s).word = s.word := rfl
@[simp] theorem setCount_wlen (c : Nat) (s : State) : (setCount c s).wlen = s.wlen := rfl
@[simp] theorem setCount_pos (c : Nat) (s : State) : (setCount c s).pos = s.pos := rfl
@[simp] theorem setCount_phase (c : Nat) (s : State) : (setCount c s).phase = s.phase := rfl
@[simp] theorem setCount_hc (c : Nat) (s : State) : (setCount c s).hc = s.hc := rfl
@[simp] theorem setCount_nrep (c : Nat) (s : State) : (setCount c s).nrep = s.nrep := rfl
@[simp] theorem setCount_dwell (c : Nat) (s : State) : (setCount c s).dwell = s.dwell := rfl
@[simp] theorem setCount_blinkIvl (c : Nat) (s : State) : (setCount c s).blinkIvl = s.blinkIvl := rfl
@[simp] theorem setCount_scrollIvl (c : Nat) (s : State) : (setCount c s).scrollIvl = s.scrollIvl := rfl
@[simp] theorem setCount_clockIvl (c : Nat) (s : State) : (setCount c s).clockIvl = s.clockIvl := rfl
@[simp] theorem setCount_done (c : Nat) (s : State) : (setCount c s).done = s.done := rfl
@[simp] theorem setCount_err (c : Nat) (s : State) : (setCount c s).err = s.err := rfl
@[simp] theorem setCount_ecode (c : Nat) (s : State) : (setCount c s).ecode = s.ecode := rfl

/-! ## raiseCmdError -/

@[simp] theorem raiseCmdError_cfg (code : BitVec 2) (s : State) : (raiseCmdError code s).cfg = s.cfg := by
  unfold raiseCmdError; split <;> rfl
@[simp] theorem raiseCmdError_inputs (code : BitVec 2) (s : State) : (raiseCmdError code s).inputs = s.inputs := by
  unfold raiseCmdError; split <;> rfl
@[simp] theorem raiseCmdError_cycle (code : BitVec 2) (s : State) : (raiseCmdError code s).cycle = s.cycle := by
  unfold raiseCmdError; split <;> rfl
@[simp] theorem raiseCmdError_mode (code : BitVec 2) (s : State) : (raiseCmdError code s).mode = s.mode := by
  unfold raiseCmdError; split <;> rfl
@[simp] theorem raiseCmdError_seq (code : BitVec 2) (s : State) : (raiseCmdError code s).seq = s.seq := by
  unfold raiseCmdError; split <;> rfl
@[simp] theorem raiseCmdError_pre (code : BitVec 2) (s : State) : (raiseCmdError code s).pre = s.pre := by
  unfold raiseCmdError; split <;> rfl
@[simp] theorem raiseCmdError_cnt (code : BitVec 2) (s : State) : (raiseCmdError code s).cnt = s.cnt := by
  unfold raiseCmdError; split <;> rfl
@[simp] theorem raiseCmdError_el (code : BitVec 2) (s : State) : (raiseCmdError code s).el = s.el := by
  unfold raiseCmdError; split <;> rfl
@[simp] theorem raiseCmdError_frame (code : BitVec 2) (s : State) : (raiseCmdError code s).frame = s.frame := by
  unfold raiseCmdError; split <;> rfl
@[simp] theorem raiseCmdError_snap (code : BitVec 2) (s : State) : (raiseCmdError code s).snap = s.snap := by
  unfold raiseCmdError; split <;> rfl
@[simp] theorem raiseCmdError_tgt (code : BitVec 2) (s : State) : (raiseCmdError code s).tgt = s.tgt := by
  unfold raiseCmdError; split <;> rfl
@[simp] theorem raiseCmdError_word (code : BitVec 2) (s : State) : (raiseCmdError code s).word = s.word := by
  unfold raiseCmdError; split <;> rfl
@[simp] theorem raiseCmdError_wlen (code : BitVec 2) (s : State) : (raiseCmdError code s).wlen = s.wlen := by
  unfold raiseCmdError; split <;> rfl
@[simp] theorem raiseCmdError_pos (code : BitVec 2) (s : State) : (raiseCmdError code s).pos = s.pos := by
  unfold raiseCmdError; split <;> rfl
@[simp] theorem raiseCmdError_phase (code : BitVec 2) (s : State) : (raiseCmdError code s).phase = s.phase := by
  unfold raiseCmdError; split <;> rfl
@[simp] theorem raiseCmdError_hc (code : BitVec 2) (s : State) : (raiseCmdError code s).hc = s.hc := by
  unfold raiseCmdError; split <;> rfl
@[simp] theorem raiseCmdError_nrep (code : BitVec 2) (s : State) : (raiseCmdError code s).nrep = s.nrep := by
  unfold raiseCmdError; split <;> rfl
@[simp] theorem raiseCmdError_dwell (code : BitVec 2) (s : State) : (raiseCmdError code s).dwell = s.dwell := by
  unfold raiseCmdError; split <;> rfl
@[simp] theorem raiseCmdError_blinkIvl (code : BitVec 2) (s : State) : (raiseCmdError code s).blinkIvl = s.blinkIvl := by
  unfold raiseCmdError; split <;> rfl
@[simp] theorem raiseCmdError_scrollIvl (code : BitVec 2) (s : State) : (raiseCmdError code s).scrollIvl = s.scrollIvl := by
  unfold raiseCmdError; split <;> rfl
@[simp] theorem raiseCmdError_clockIvl (code : BitVec 2) (s : State) : (raiseCmdError code s).clockIvl = s.clockIvl := by
  unfold raiseCmdError; split <;> rfl
@[simp] theorem raiseCmdError_done (code : BitVec 2) (s : State) : (raiseCmdError code s).done = s.done := by
  unfold raiseCmdError; split <;> rfl
@[simp] theorem raiseCmdError_err (code : BitVec 2) (s : State) : (raiseCmdError code s).err = true := by
  unfold raiseCmdError; split <;> simp_all
@[simp] theorem raiseCmdError_ecode (code : BitVec 2) (s : State) : (raiseCmdError code s).ecode = if s.err then s.ecode else code := by
  unfold raiseCmdError; split <;> simp_all

end Sys2Proof.Machine
end

