-- ==== Sys2Proof/Laws/Ops.lean ====
section
/-! SUPPORT. The pins, the word buffer and the error record: what each operation can do. -/

namespace Sys2Proof.Machine

@[simp] theorem pins_withPins (s : State) (i : Inputs) : pins (withPins s i) = i := rfl

@[simp] theorem pins_timebase (s : State) : pins (timebase s) = pins s := rfl

@[simp] theorem currentCommand_timebase (s : State) : currentCommand (timebase s) = currentCommand s := rfl

/-- Two states with the same listed inputs and the same cycle number have the same pins. -/
theorem pins_congr {s t : State} (hi : t.inputs = s.inputs) (hc : t.cycle = s.cycle) : pins t = pins s := by
  simp only [pins, hi, hc]

/-- With only quiet samples listed, the current cycle is quiet. -/
theorem pins_quiet {s : State} (h : QuietInputs s) : Quiet (pins s) := by
  unfold pins
  split
  · exact ⟨rfl, rfl⟩
  · exact h _ (by simp [*])

/-- The samples after the current one stay quiet. -/
theorem quietInputs_tail {s t : State} (h : QuietInputs s) (ht : t.inputs = s.inputs.tail) : QuietInputs t := by
  intro i hi
  exact h i (List.mem_of_mem_tail (ht ▸ hi))

/-- A quiet cycle executes NOP (30_encoding.md R64). -/
theorem currentCommand_quiet {s : State} (h : (pins s).cmdValid = false) : currentCommand s = .nop := by
  simp [currentCommand, commandWord, h]; rfl

theorem readWord_appendWord (c : CharCode) (s : State) (i : Nat) (h : s.wlen.toNat < s.word.length) :
    readWord (appendWord c s) i = if i = s.wlen.toNat then c else readWord s i := by
  simp only [readWord, appendWord_word, List.getD_eq_getElem?_getD]
  by_cases hi : i = s.wlen.toNat
  · subst hi; simp [List.getElem?_set_self h]
  · rw [List.getElem?_set_ne (fun h2 => hi h2.symm), if_neg hi]

/-- WPUSH into a buffer that is not full keeps the buffer well-formed. -/
theorem appendWord_wordWf (c : CharCode) {s : State} (hm : s.cfg.wordMax ≤ 124) (h : WordWf s)
    (hlt : s.wlen.toNat < s.cfg.wordMax) : WordWf (appendWord c s) := by
  refine ⟨by simpa using h.1, ?_⟩
  have : (s.wlen + 1).toNat = s.wlen.toNat + 1 := by
    rw [BitVec.toNat_add]; simp; omega
  refine Nat.le_trans (Nat.le_of_eq this) ?_
  simpa using hlt

/-- A rejected command keeps the buffer well-formed. -/
theorem raiseCmdError_wordWf (code : BitVec 2) {s : State} (h : WordWf s) : WordWf (raiseCmdError code s) := by
  unfold WordWf at *
  simpa using h

/-- Emptying the buffer, by WRST or by reset, keeps it well-formed. -/
theorem emptied_wordWf {s t : State} (h : WordWf s) (hw : t.word = s.word) (hc : t.cfg = s.cfg)
    (hl : t.wlen = 0) : WordWf t := by
  refine ⟨by rw [hw, hc]; exact h.1, by simp [hl]⟩

/-- The reset state's word buffer is well-formed. -/
theorem reset_wordWf : WordWf State.reset := by
  refine ⟨?_, ?_⟩ <;> simp [State.reset, defaultConfig]

/-- With an empty buffer the padded word is blank (43_animation.md R102). -/
theorem pad4_empty {s : State} (h : s.wlen = 0) : pad4 s = blank4 := by
  simp [pad4, padChar, h, blank4]

/-- With an empty buffer a scroll tick brings in a blank (43_animation.md R111). -/
theorem tickScroll_empty {r : State} (h : r.wlen = 0) (t : State) : (tickScroll r t).frame[3] = blankChar := by
  simp [tickScroll, shiftIn, scrollChar, h]

/-- A rejected command keeps the error record well-formed, for the causes of 60_exceptions.md R118. -/
theorem raiseCmdError_errorRecordWf {code : BitVec 2} (hc : code ≠ 0) {s : State} (h : ErrorRecordWf s) :
    ErrorRecordWf (raiseCmdError code s) := by
  unfold ErrorRecordWf at *
  cases he : s.err <;> simp_all

end Sys2Proof.Machine
end

