-- ==== Sys2Proof/Laws/Refresh.lean ====
section
/-! SUPPORT. The timebase and the sequencer: when a strobe falls, what a tick and a pass end can do, and which
fields the sequencer leaves to the command of the cycle. -/

namespace Sys2Proof.Machine

/-! ## Timebase -/

theorem strobe_iff (s : State) (h : 1 ≤ s.cfg.tbCycles) : strobe s = true ↔ s.pre + 1 = s.cfg.tbCycles := by
  simp [strobe]; omega

theorem sat16_toNat (n : Nat) : (sat16 n).toNat = min n 65535 := by
  simp [sat16]

theorem elapsed_toNat (s : State) :
    (elapsed s).toNat = if strobe s then min (s.el.toNat + 1) 65535 else s.el.toNat := by
  unfold elapsed; split <;> simp [sat16_toNat]

/-- With one cycle per strobe, every cycle is a strobe (41_refresh.md R83). -/
theorem strobe_of_one {s : State} (h1 : s.cfg.tbCycles = 1) (h : s.pre < s.cfg.tbCycles) : strobe s = true := by
  simp [strobe]; omega

theorem timebase_pre_lt (s : State) (h : s.pre < s.cfg.tbCycles) : (timebase s).pre < s.cfg.tbCycles := by
  simp only [timebase_pre]
  split
  · omega
  · next hs => simp [strobe] at hs; omega

/-! ## Ticks -/

/-- What a tick may write: the frame, and the strategy's POS, PHASE and HC. Every other field stays. -/
structure TickFrame (t k : State) : Prop where
  cfg : k.cfg = t.cfg
  inputs : k.inputs = t.inputs
  cycle : k.cycle = t.cycle
  mode : k.mode = t.mode
  seq : k.seq = t.seq
  pre : k.pre = t.pre
  cnt : k.cnt = t.cnt
  el : k.el = t.el
  snap : k.snap = t.snap
  tgt : k.tgt = t.tgt
  word : k.word = t.word
  wlen : k.wlen = t.wlen
  nrep : k.nrep = t.nrep
  dwell : k.dwell = t.dwell
  blinkIvl : k.blinkIvl = t.blinkIvl
  scrollIvl : k.scrollIvl = t.scrollIvl
  clockIvl : k.clockIvl = t.clockIvl
  done : k.done = t.done
  err : k.err = t.err
  ecode : k.ecode = t.ecode

theorem tickFrame_refl (t : State) : TickFrame t t := by constructor <;> rfl

theorem blinkEnds_iff (r : State) :
    blinkEnds r = true ↔ 0 ≤ repeatBound r.nrep ∧ (r.hc.toNat : Int) = 2 * repeatBound r.nrep := by
  unfold blinkEnds halfCycles
  rw [decide_eq_true_eq]
  constructor <;> rintro ⟨h1, h2⟩ <;> exact ⟨h1, by omega⟩

theorem countHalfCycle_bounded {r : State} (h : 0 ≤ repeatBound r.nrep) (t : State) :
    countHalfCycle r t = setHalfCycles (halfCycles r) t := if_pos h

theorem countHalfCycle_unbounded {r : State} (h : repeatBound r.nrep < 0) (t : State) :
    countHalfCycle r t = t := if_neg (by omega)

/-- What a blink tick can be: the last one, or a flip to the other phase (43_animation.md R108). -/
theorem tickBlink_cases (r t : State) :
    (blinkEnds r = true ∧ tickBlink r t = ⟨countHalfCycle r t, r.frame, true⟩) ∨
    (blinkEnds r = false ∧ r.phase = .showing ∧
      tickBlink r t = ⟨flipTo .blanked blank4 (countHalfCycle r t), blank4, false⟩) ∨
    (blinkEnds r = false ∧ r.phase = .blanked ∧
      tickBlink r t = ⟨flipTo .showing r.tgt (countHalfCycle r t), r.tgt, false⟩) := by
  unfold tickBlink
  cases blinkEnds r <;> cases r.phase <;> simp

theorem countHalfCycle_frame (r t : State) : TickFrame t (countHalfCycle r t) := by
  unfold countHalfCycle; split <;> constructor <;> rfl

theorem tickBlink_frame (r t : State) : TickFrame t (tickBlink r t).state := by
  have h := countHalfCycle_frame r t
  unfold tickBlink
  dsimp only
  split
  · exact h
  · split <;> exact ⟨h.cfg, h.inputs, h.cycle, h.mode, h.seq, h.pre, h.cnt, h.el, h.snap, h.tgt, h.word, h.wlen,
      h.nrep, h.dwell, h.blinkIvl, h.scrollIvl, h.clockIvl, h.done, h.err, h.ecode⟩

theorem tick_frame (r t : State) : TickFrame t (tick r t).state := by
  unfold tick
  split
  · exact tickFrame_refl t
  · exact tickFrame_refl t
  · exact tickBlink_frame r t
  · constructor <;> rfl
  · constructor <;> rfl
  · exact tickFrame_refl t

/-- Only a blink tick terminates (43_animation.md R104). -/
theorem tick_term (r t : State) : (tick r t).term = true ↔ r.mode = .blink ∧ blinkEnds r = true := by
  unfold tick
  cases h : r.mode <;> simp [tickBlink, tickScroll, tickClock]
  split
  · simp_all
  · next hb => cases hp : r.phase <;> simp_all

/-- A tick that does not terminate leaves its frame in FRAME (43_animation.md R108, R111, R115). -/
theorem tick_frame_written (r t : State) (hf : r.frame = t.frame) (h : (tick r t).term = false) :
    (tick r t).state.frame = (tick r t).frame := by
  unfold tick at *
  cases hm : r.mode <;> simp only [hm] at h ⊢ <;> first | exact hf.symm | rfl | skip
  unfold tickBlink at *
  dsimp only at *
  split at h
  · simp at h
  · next hb => simp only [hb]; cases hp : r.phase <;> simp

/-! ## The sequencer step -/

/-- The fields the sequencer step leaves as the command and the timebase made them: a non-mode command
writes only these (41_refresh.md R90). -/
structure SeqFrame (t u : State) : Prop where
  cfg : u.cfg = t.cfg
  inputs : u.inputs = t.inputs
  cycle : u.cycle = t.cycle
  pre : u.pre = t.pre
  tgt : u.tgt = t.tgt
  word : u.word = t.word
  wlen : u.wlen = t.wlen
  nrep : u.nrep = t.nrep
  dwell : u.dwell = t.dwell
  blinkIvl : u.blinkIvl = t.blinkIvl
  scrollIvl : u.scrollIvl = t.scrollIvl
  clockIvl : u.clockIvl = t.clockIvl
  err : u.err = t.err
  ecode : u.ecode = t.ecode

theorem seqFrame_refl (t : State) : SeqFrame t t := by constructor <;> rfl

theorem passEnd_frame (r t : State) : SeqFrame t (passEnd r t) := by
  have h := tick_frame r (clearElapsed t)
  unfold passEnd
  dsimp only
  split
  · split <;> exact ⟨h.cfg, h.inputs, h.cycle, h.pre, h.tgt, h.word, h.wlen, h.nrep, h.dwell, h.blinkIvl,
      h.scrollIvl, h.clockIvl, h.err, h.ecode⟩
  · constructor <;> rfl

theorem sequencerStep_frame (r t : State) : SeqFrame t (sequencerStep r t) := by
  unfold sequencerStep
  split
  · exact seqFrame_refl t
  · constructor <;> rfl
  · unfold holdStep
    split
    · split
      · exact passEnd_frame r t
      · constructor <;> rfl
    · constructor <;> rfl

theorem sequencer_frame (i : Instr) (r t : State) : SeqFrame t (sequencer i r t) := by
  unfold sequencer
  split
  · exact seqFrame_refl t
  · exact sequencerStep_frame r t

/-- `t` with the inputs, the storage and the error record of `a`: the fields a non-mode command may write, and
the input schedule. -/
def withHostSide (a t : State) : State :=
  { t with inputs := a.inputs, word := a.word, wlen := a.wlen, dwell := a.dwell, blinkIvl := a.blinkIvl,
           scrollIvl := a.scrollIvl, clockIvl := a.clockIvl, err := a.err, ecode := a.ecode }

theorem tick_withHostSide (r a t : State) :
    tick r (withHostSide a t) = { tick r t with state := withHostSide a (tick r t).state } := by
  unfold tick
  cases r.mode with
  | blink =>
    have hc : countHalfCycle r (withHostSide a t) = withHostSide a (countHalfCycle r t) := by
      unfold countHalfCycle; split <;> rfl
    simp only
    unfold tickBlink
    cases blinkEnds r <;> cases r.phase <;> simp [hc] <;> rfl
  | idle => rfl
  | static => rfl
  | scroll => rfl
  | clock => rfl
  | done => rfl

theorem passEnd_withHostSide (r a t : State) : passEnd r (withHostSide a t) = withHostSide a (passEnd r t) := by
  have h : clearElapsed (withHostSide a t) = withHostSide a (clearElapsed t) := rfl
  unfold passEnd
  rw [h, tick_withHostSide]
  dsimp only
  split
  · split <;> rfl
  · rfl

/-- The sequencer step and the writes of a non-mode command do not meet: they may be made in either order
(41_refresh.md R90). -/
theorem sequencerStep_withHostSide (r a t : State) :
    sequencerStep r (withHostSide a t) = withHostSide a (sequencerStep r t) := by
  unfold sequencerStep
  cases r.seq with
  | off => rfl
  | gap p => rfl
  | hold p =>
    simp only [holdStep]
    split
    · split
      · exact passEnd_withHostSide r a t
      · rfl
    · rfl

/-- Of the inputs, the sequencer step reads the time of day alone (70_reset_and_hazards.md R137). -/
theorem sequencerStep_readsTime (r t : State) (i : List Inputs)
    (hh : (pins { r with inputs := i }).todHour = (pins r).todHour)
    (hm : (pins { r with inputs := i }).todMin = (pins r).todMin) :
    sequencerStep { r with inputs := i } t = sequencerStep r t := by
  have ht : ∀ k : State, tick { r with inputs := i } k = tick r k := by
    intro k
    unfold tick
    dsimp only
    split
    all_goals first
      | rfl
      | simp only [tickClock, hh, hm]
  have hp : passEnd { r with inputs := i } t = passEnd r t := by
    unfold passEnd
    rw [ht]
    rfl
  unfold sequencerStep holdStep
  rw [hp]
  rfl

/-- A pass end either starts the next pass or, at blink termination only, goes dark (41_refresh.md R89). -/
theorem passEnd_cases (r t : State) :
    (fires r = false ∧ passEnd r t = startPass r.frame t) ∨
    (fires r = true ∧ (tick r (clearElapsed t)).term = false ∧
      passEnd r t = startPass (tick r (clearElapsed t)).frame (tick r (clearElapsed t)).state) ∨
    (fires r = true ∧ r.mode = .blink ∧ blinkEnds r = true ∧
      passEnd r t = terminate (tick r (clearElapsed t)).state) := by
  cases hf : fires r
  · left; simp [passEnd, hf]
  · right
    cases ht : (tick r (clearElapsed t)).term
    · left; simp [passEnd, hf, ht]
    · right
      have := (tick_term r (clearElapsed t)).mp ht
      simp [passEnd, hf, ht, this]

/-- What one sequencer step can be (41_refresh.md R86 to R88). -/
theorem sequencerStep_cases (r t : State) :
    (r.seq = .off ∧ sequencerStep r t = t) ∨
    (∃ p, r.seq = .gap p ∧ sequencerStep r t = gapStep p t) ∨
    (∃ p, r.seq = .hold p ∧ holdCount r < r.dwell.toNat ∧
      sequencerStep r t = setCount (holdCount r) t) ∨
    (∃ p, r.seq = .hold p ∧ r.dwell.toNat ≤ holdCount r ∧ p ≠ 3 ∧
      sequencerStep r t = leaveHold p t) ∨
    (r.seq = .hold 3 ∧ r.dwell.toNat ≤ holdCount r ∧ sequencerStep r t = passEnd r t) := by
  cases h : r.seq with
  | off => left; simp [sequencerStep, h]
  | gap p => right; left; exact ⟨p, rfl, by simp [sequencerStep, h]⟩
  | hold p =>
    right; right
    by_cases hd : r.dwell.toNat ≤ holdCount r
    · right
      by_cases hp : p = 3
      · right; subst hp; exact ⟨rfl, hd, by simp [sequencerStep, h, holdStep, hd]⟩
      · left; exact ⟨p, rfl, hd, hp, by simp [sequencerStep, h, holdStep, hd, hp]⟩
    · left; exact ⟨p, rfl, by omega, by simp [sequencerStep, h, holdStep, hd]⟩

end Sys2Proof.Machine
end

