-- ==== Sys2Proof/Laws/Step.lean ====
section
/-! SUPPORT. One step: every command answers a next state, what a cycle can be, and how a run unfolds. -/

namespace Sys2Proof.Machine

/-- The state a command leaves: the value of `exec`, which never stops. -/
theorem exec_answers_next (i : Instr) (s : State) : ∃ t, exec i s = .next t := by
  cases i
  case wpush c => simp only [exec, execWpush]; split <;> exact ⟨_, rfl⟩
  case sclock => simp only [exec, execSclock]; split <;> exact ⟨_, rfl⟩
  all_goals exact ⟨_, rfl⟩

/-- One cycle is a reset, or the command of the cycle on the timebase's state followed by the sequencer. -/
theorem step_cases {s t : State} (h : step s = .next t) :
    ((pins s).rst = true ∧ t = advanceInputs (resetCycle s)) ∨
    ((pins s).rst = false ∧ ∃ u, exec (currentCommand s) (timebase s) = .next u ∧
      t = advanceInputs (sequencer (currentCommand s) s u)) := by
  unfold step at h
  cases hr : (pins s).rst
  · right
    obtain ⟨u, hu⟩ := exec_answers_next (currentCommand s) (timebase s)
    simp only [hr, hu] at h
    exact ⟨rfl, u, hu, by simpa using h.symm⟩
  · left
    simp only [hr] at h
    exact ⟨rfl, by simpa using h.symm⟩

/-- A cycle without reset whose command's meaning answers `u`. -/
theorem step_of_exec {s u : State} (hr : (pins s).rst = false)
    (hu : exec (currentCommand s) (timebase s) = .next u) :
    step s = .next (advanceInputs (sequencer (currentCommand s) s u)) := by
  simp [step, hr, hu]

/-- A quiet cycle: the timebase and the sequencer alone. -/
theorem step_quiet {s : State} (h : Quiet (pins s)) :
    step s = .next (advanceInputs (sequencerStep s (timebase s))) := by
  have hc := currentCommand_quiet h.2
  rw [step_of_exec h.1 (u := timebase s) (by rw [hc]; rfl), hc]
  rfl

/-- The inputs advance by one sample in every cycle. -/
theorem step_inputs {s t : State} (h : step s = .next t) : t.inputs = s.inputs.tail := by
  rcases step_cases h with ⟨_, rfl⟩ | ⟨_, u, hu, rfl⟩
  · rfl
  · have hs := (sequencer_frame (currentCommand s) s u).inputs
    have he : u.inputs = s.inputs := by
      revert hu
      cases currentCommand s <;> simp only [exec, execNop, execClear, execWrst, execWpush, execSetregDwell,
        execSetregBlinkIvl, execSetregScrollIvl, execSetregClockIvl, execSstatic, execSblink, execSscroll,
        execSclock, execReservedOp9, execReservedOpAB, execReservedOpCF, execReservedSel] <;> intro hu
      case wpush => split at hu <;> (cases hu; simp)
      case sclock => split at hu <;> (cases hu; simp)
      all_goals (cases hu; simp)
    simp [hs, he]

/-! ## Runs -/

theorem runsTo_zero (s : State) : RunsTo 0 s s := rfl

/-- A run is a step and the rest of the run. -/
theorem runsTo_succ (k : Nat) (s u t : State) (h : step s = .next u) : RunsTo (k + 1) s t ↔ RunsTo k u t := by
  unfold RunsTo
  have hs : Sys2Proof.core.step s = .next u := h
  constructor <;> intro hr
  · simpa [Host.Core.run, hs] using hr
  · simpa [Host.Core.run, hs] using hr

/-- Runs compose. -/
theorem runsTo_add (j k : Nat) {s u t : State} (h1 : RunsTo j s u) (h2 : RunsTo k u t) : RunsTo (j + k) s t := by
  induction j generalizing s with
  | zero =>
    have : s = u := Host.Outcome.next.inj h1
    subst this; simpa using h2
  | succ j ih =>
    have hv : ∃ v, step s = .next v := by
      by_cases hr : (pins s).rst = true
      · exact ⟨_, by simp only [step, hr]; rfl⟩
      · obtain ⟨w, hw⟩ := exec_answers_next (currentCommand s) (timebase s)
        exact ⟨_, step_of_exec (by simpa using hr) hw⟩
    obtain ⟨v, hv⟩ := hv
    have h1' := (runsTo_succ j s v u hv).mp h1
    have h3 := ih h1'
    have : j + 1 + k = (j + k) + 1 := by omega
    rw [this]
    exact (runsTo_succ (j + k) s v t hv).mpr h3

end Sys2Proof.Machine
end

