-- ==== Sys2Proof/Laws/Commands.lean ====
section
/-! SUPPORT. What the meanings of the commands can write: a non-mode command writes the storage and the error
record alone (41_refresh.md R90), and a mode command leaves those alone. -/

namespace Sys2Proof.Machine

/-- `u` differs from `t` at most in WORD, WLEN, the duration registers, ERR and ECODE. -/
structure StorageOnly (t u : State) : Prop where
  cfg : u.cfg = t.cfg
  inputs : u.inputs = t.inputs
  cycle : u.cycle = t.cycle
  mode : u.mode = t.mode
  seq : u.seq = t.seq
  pre : u.pre = t.pre
  cnt : u.cnt = t.cnt
  el : u.el = t.el
  frame : u.frame = t.frame
  snap : u.snap = t.snap
  tgt : u.tgt = t.tgt
  pos : u.pos = t.pos
  phase : u.phase = t.phase
  hc : u.hc = t.hc
  nrep : u.nrep = t.nrep
  done : u.done = t.done

theorem storageOnly_refl (t : State) : StorageOnly t t := by constructor <;> rfl

theorem raiseCmdError_storageOnly (code : BitVec 2) (s : State) : StorageOnly s (raiseCmdError code s) := by
  constructor <;> simp

/-- A command that is no mode command writes only the storage and the error record (41_refresh.md R90). -/
theorem exec_storageOnly {i : Instr} {s u : State} (hm : isModeCommand s.cfg.hasClock i = false)
    (h : exec i s = .next u) : StorageOnly s u := by
  cases i with
  | clear => simp [isModeCommand] at hm
  | sstatic => simp [isModeCommand] at hm
  | sblink n => simp [isModeCommand] at hm
  | sscroll => simp [isModeCommand] at hm
  | sclock =>
    simp only [isModeCommand] at hm
    simp only [exec, execSclock, hm] at h
    cases h
    exact raiseCmdError_storageOnly _ s
  | wpush c =>
    simp only [exec, execWpush] at h
    split at h <;> cases h
    · constructor <;> rfl
    · exact raiseCmdError_storageOnly _ s
  | nop => cases h; exact storageOnly_refl s
  | wrst => cases h; constructor <;> rfl
  | setregDwell v => cases h; constructor <;> rfl
  | setregBlinkIvl v => cases h; constructor <;> rfl
  | setregScrollIvl v => cases h; constructor <;> rfl
  | setregClockIvl v => cases h; constructor <;> rfl
  | reservedOp9 => cases h; exact raiseCmdError_storageOnly _ s
  | reservedOpAB low => cases h; exact raiseCmdError_storageOnly _ s
  | reservedOpCF low => cases h; exact raiseCmdError_storageOnly _ s
  | reservedSel sel => cases h; exact raiseCmdError_storageOnly _ s

/-- What a mode command can be: CLEAR, or the start of one strategy (41_refresh.md R90). -/
theorem exec_modeCommand {i : Instr} {s u : State} (hm : isModeCommand s.cfg.hasClock i = true)
    (h : exec i s = .next u) :
    (i = .clear ∧ u = stopStrategy s) ∨
    (i = .sstatic ∧ u = startStrategy .static (pad4 s) s) ∨
    (∃ n, i = .sblink n ∧ u = armBlink n (pad4 s) (startStrategy .blink (pad4 s) s)) ∨
    (i = .sscroll ∧ u = rewindScroll (startStrategy .scroll blank4 s)) ∨
    (i = .sclock ∧ s.cfg.hasClock = true ∧
      u = startStrategy .clock (clockFrame (pins s).todHour (pins s).todMin) s) := by
  cases i <;> simp only [isModeCommand, Bool.false_eq_true] at hm
  case clear => cases h; exact .inl ⟨rfl, rfl⟩
  case sstatic => cases h; exact .inr (.inl ⟨rfl, rfl⟩)
  case sblink n => cases h; exact .inr (.inr (.inl ⟨n, rfl, rfl⟩))
  case sscroll => cases h; exact .inr (.inr (.inr (.inl ⟨rfl, rfl⟩)))
  case sclock =>
    simp only [exec, execSclock, hm] at h
    cases h
    exact .inr (.inr (.inr (.inr ⟨rfl, hm, rfl⟩)))

/-- The step of a cycle in which the sequencer steps: a command that writes the storage alone, then the
sequencer step. -/
theorem step_of_sequencerSteps {s : State} (h : SequencerSteps s) :
    ∃ u, exec (currentCommand s) (timebase s) = .next u ∧ StorageOnly (timebase s) u ∧
      step s = .next (advanceInputs (sequencerStep s u)) := by
  obtain ⟨u, hu⟩ := exec_answers_next (currentCommand s) (timebase s)
  refine ⟨u, hu, exec_storageOnly (by simpa using h.2) hu, ?_⟩
  rw [step_of_exec h.1 hu]
  simp [sequencer, h.2]

/-- The step of a cycle with a mode command: the command alone. -/
theorem step_of_modeCommand {s u : State} (hr : (pins s).rst = false)
    (hm : isModeCommand s.cfg.hasClock (currentCommand s) = true)
    (hu : exec (currentCommand s) (timebase s) = .next u) : step s = .next (advanceInputs u) := by
  rw [step_of_exec hr hu]
  simp [sequencer, hm]

/-- The strobe of a cycle as the count of the statements. -/
theorem strobesNow_eq (s : State) (h : 1 ≤ s.cfg.tbCycles) : strobesNow s = if strobe s then 1 else 0 := by
  have := strobe_iff s h
  unfold strobesNow
  by_cases hs : strobe s = true
  · simp [hs, this.mp hs]
  · simp [hs]; intro h2; exact hs (this.mpr h2)

theorem elapsed_eq_elNow (s : State) (h : 1 ≤ s.cfg.tbCycles) : (elapsed s).toNat = elNow s := by
  rw [elapsed_toNat, elNow, strobesNow_eq s h]
  have := s.el.isLt
  split
  · simp
  · simp; omega

theorem holdCount_eq (s : State) (h : 1 ≤ s.cfg.tbCycles) : holdCount s = s.cnt.toNat + strobesNow s := by
  rw [holdCount, strobesNow_eq s h]

theorem fires_eq_tickDue (s : State) (h : 1 ≤ s.cfg.tbCycles) : fires s = tickDue s := by
  unfold fires tickDue interval
  cases s.mode <;> simp [elapsed_eq_elNow s h]

/-- PRE after a cycle without reset, as a count modulo TB_CYCLES. -/
theorem timebase_pre_mod (s : State) (h : s.pre < s.cfg.tbCycles) :
    (timebase s).pre = (s.pre + 1) % s.cfg.tbCycles := by
  have := strobe_iff s (by omega)
  simp only [timebase_pre]
  split
  · next hs => rw [this.mp hs]; simp
  · next hs =>
    have : s.pre + 1 ≠ s.cfg.tbCycles := fun h2 => hs (this.mpr h2)
    rw [Nat.mod_eq_of_lt (by omega)]

end Sys2Proof.Machine
end

