-- ==== Sys2Proof/Laws/Decode.lean ====
section
/-! SUPPORT. The fields of a packed command word, and the fields of a word as numbers. -/

namespace Sys2Proof

theorem opField_toNat (w : CmdWord) : (opField w).toNat = w.toNat / 2 ^ 20 := by
  simp [opField, Nat.shiftRight_eq_div_pow]
  have := w.isLt
  omega

theorem selField_toNat (w : CmdWord) : (selField w).toNat = w.toNat / 2 ^ 16 % 16 := by
  simp [selField, Nat.shiftRight_eq_div_pow]

theorem immField_toNat (w : CmdWord) : (immField w).toNat = w.toNat % 2 ^ 16 := by
  simp [immField]

theorem charField_toNat (w : CmdWord) : (charField w).toNat = w.toNat % 2 ^ 8 := by
  simp [charField]

theorem packFields_toNat (op sel : BitVec 4) (imm : BitVec 16) :
    (packFields op sel imm).toNat = op.toNat * 2 ^ 20 + sel.toNat * 2 ^ 16 + imm.toNat := by
  simp only [packFields, BitVec.toNat_ofNat]
  omega

@[simp] theorem opField_packFields (op sel : BitVec 4) (imm : BitVec 16) :
    opField (packFields op sel imm) = op := by
  apply BitVec.eq_of_toNat_eq
  rw [opField_toNat, packFields_toNat]
  omega

@[simp] theorem selField_packFields (op sel : BitVec 4) (imm : BitVec 16) :
    selField (packFields op sel imm) = sel := by
  apply BitVec.eq_of_toNat_eq
  rw [selField_toNat, packFields_toNat]
  omega

@[simp] theorem immField_packFields (op sel : BitVec 4) (imm : BitVec 16) :
    immField (packFields op sel imm) = imm := by
  apply BitVec.eq_of_toNat_eq
  rw [immField_toNat, packFields_toNat]
  omega

@[simp] theorem charField_packFields (op sel : BitVec 4) (imm : BitVec 16) :
    charField (packFields op sel imm) = imm.setWidth 8 := by
  apply BitVec.eq_of_toNat_eq
  rw [charField_toNat, packFields_toNat, BitVec.toNat_setWidth]
  omega

end Sys2Proof
end

