-- ==== Sys2Proof/Laws/Glyph.lean ====
section
/-! SUPPORT. What the constraints on the glyph table give for a lookup and for the segments of a slot. -/

namespace Sys2Proof.Machine

/-- The glyph of a code is that of its upper case (40_encoder.md R72). -/
theorem glyphAt_foldCase {g : GlyphTable} (h : GlyphLegal g) (c : CharCode) : glyphAt g (foldCase c) = glyphAt g c := by
  unfold foldCase
  split
  · next hc =>
    have hk := h.1 ⟨c.toNat - 0x61, by omega⟩
    have h1 : BitVec.ofNat 8 (0x41 + (c.toNat - 0x61) + 0x20) = c := by bv_omega
    have h2 : BitVec.ofNat 8 (0x41 + (c.toNat - 0x61)) = c - 0x20 := by bv_omega
    simp only [h1, h2] at hk
    exact hk.symm
  · rfl

/-- An unsupported code and the space are blank (40_encoder.md R73, R74). -/
theorem glyphAt_blank {g : GlyphTable} (h : GlyphLegal g) {c : CharCode} (hc : supported c = false ∨ c = 0x20) :
    glyphAt g c = 0x00 := by
  rcases hc with hc | rfl
  · have h2 := h.2.1 ⟨c.toNat, c.isLt⟩
    simp only [BitVec.ofNat_toNat, BitVec.setWidth_eq] at h2
    exact h2 hc
  · exact h.2.2.1

/-- `1` and `I` are alike, in either case (40_encoder.md R75, R72). -/
theorem glyphAt_one {g : GlyphTable} (h : GlyphLegal g) {c : CharCode} (hc : foldCase c = 0x49) :
    glyphAt g c = glyphAt g 0x31 := by
  rw [← glyphAt_foldCase h c, hc]; exact h.2.2.2.1.symm

/-- `0` and `O` differ, in either case (40_encoder.md R76, R72). -/
theorem glyphAt_zero {g : GlyphTable} (h : GlyphLegal g) {c : CharCode} (hc : foldCase c = 0x4F) :
    glyphAt g c ≠ glyphAt g 0x30 := by
  rw [← glyphAt_foldCase h c, hc]; exact h.2.2.2.2.symm

/-- The segments of a slot are the glyph of its position (41_refresh.md R85). -/
theorem segOut_slot {s : State} {p : DigitPos} (h : s.seq = .gap p ∨ s.seq = .hold p) :
    segOut s = glyphAt s.cfg.glyph s.snap[p] := by
  rcases h with h | h <;> simp [segOut, h, snapGlyph]

end Sys2Proof.Machine
end

