-- ==== Sys2Proof/Laws/PerInstr.lean ====
section
/-! SUPPORT. One lemma for each command about its encoding: the opcode that 30_encoding.md R61 and R63 give its
row. -/

/-- The opcode, bits 23:20, of each row (30_encoding.md R61, R63). -/
def Sys2Proof.Laws.OpField.opcodeOf : Sys2Proof.Instr → BitVec 4
  | .nop => 0x0
  | .clear => 0x1
  | .wrst => 0x2
  | .wpush _ => 0x3
  | .setregDwell _ => 0x4
  | .setregBlinkIvl _ => 0x4
  | .setregScrollIvl _ => 0x4
  | .setregClockIvl _ => 0x4
  | .sstatic => 0x5
  | .sblink _ => 0x6
  | .sscroll => 0x7
  | .sclock => 0x8
  | .reservedOp9 => 0x9
  | .reservedOpAB low => 0xA + low.setWidth 4
  | .reservedOpCF low => 0xC + low.setWidth 4
  | .reservedSel _ => 0x4

/-- The encoding of the command carries its row's opcode. -/
def Sys2Proof.Laws.OpField.Statement (i : Sys2Proof.Instr) : Prop :=
  Sys2Proof.opField (Sys2Proof.encode i) = Sys2Proof.Laws.OpField.opcodeOf i

theorem Sys2Proof.Laws.OpField.nop : Sys2Proof.Laws.OpField.Statement .nop :=
  opField_packFields _ _ _

theorem Sys2Proof.Laws.OpField.clear : Sys2Proof.Laws.OpField.Statement .clear :=
  opField_packFields _ _ _

theorem Sys2Proof.Laws.OpField.wrst : Sys2Proof.Laws.OpField.Statement .wrst :=
  opField_packFields _ _ _

theorem Sys2Proof.Laws.OpField.wpush (c : CharCode) : Sys2Proof.Laws.OpField.Statement (.wpush c) :=
  opField_packFields _ _ _

theorem Sys2Proof.Laws.OpField.setregDwell (v : BitVec 16) :
    Sys2Proof.Laws.OpField.Statement (.setregDwell v) :=
  opField_packFields _ _ _

theorem Sys2Proof.Laws.OpField.setregBlinkIvl (v : BitVec 16) :
    Sys2Proof.Laws.OpField.Statement (.setregBlinkIvl v) :=
  opField_packFields _ _ _

theorem Sys2Proof.Laws.OpField.setregScrollIvl (v : BitVec 16) :
    Sys2Proof.Laws.OpField.Statement (.setregScrollIvl v) :=
  opField_packFields _ _ _

theorem Sys2Proof.Laws.OpField.setregClockIvl (v : BitVec 16) :
    Sys2Proof.Laws.OpField.Statement (.setregClockIvl v) :=
  opField_packFields _ _ _

theorem Sys2Proof.Laws.OpField.sstatic : Sys2Proof.Laws.OpField.Statement .sstatic :=
  opField_packFields _ _ _

theorem Sys2Proof.Laws.OpField.sblink (n : BitVec 16) : Sys2Proof.Laws.OpField.Statement (.sblink n) :=
  opField_packFields _ _ _

theorem Sys2Proof.Laws.OpField.sscroll : Sys2Proof.Laws.OpField.Statement .sscroll :=
  opField_packFields _ _ _

theorem Sys2Proof.Laws.OpField.sclock : Sys2Proof.Laws.OpField.Statement .sclock :=
  opField_packFields _ _ _

theorem Sys2Proof.Laws.OpField.reservedOp9 : Sys2Proof.Laws.OpField.Statement .reservedOp9 :=
  opField_packFields _ _ _

theorem Sys2Proof.Laws.OpField.reservedOpAB (low : BitVec 1) :
    Sys2Proof.Laws.OpField.Statement (.reservedOpAB low) :=
  opField_packFields _ _ _

theorem Sys2Proof.Laws.OpField.reservedOpCF (low : BitVec 2) :
    Sys2Proof.Laws.OpField.Statement (.reservedOpCF low) :=
  opField_packFields _ _ _

theorem Sys2Proof.Laws.OpField.reservedSel (sel : BitVec 4) :
    Sys2Proof.Laws.OpField.Statement (.reservedSel sel) :=
  opField_packFields _ _ _
end

