-- ==== Sys2Proof/Machine/Assembler.lean ====
section
/-! DEFINITION. The assembler's view of the command port: command lines, `WAIT k`, the pseudo-instructions
and their expansions, the text syntax, and the input samples a sequence of lines presents (30_encoding.md
R66, R67; 70_reset_and_hazards.md R131). -/

namespace Sys2Proof.Machine

/-- The register names SETREG takes (R66). -/
inductive AsmReg where
  | dwell
  | blinkIvl
  | scrollIvl
  | clockIvl
deriving DecidableEq, Repr

/-- One line: a command, `WAIT k`, or a pseudo-instruction (R66, R67). -/
inductive AsmLine where
  | nop
  | clear
  | wrst
  | wpush (c : CharCode)
  | setreg (r : AsmReg) (v : BitVec 16)
  | sstatic
  | sblink (n : BitVec 16)
  | sscroll
  | sclock
  | wait (k : Nat)
  | wstr (s : List CharCode)
  | showText (s : List CharCode)
  | blinkText (s : List CharCode) (n : BitVec 16)
  | scrollText (s : List CharCode)
deriving DecidableEq, Repr

/-- SETREG by register name (R66). -/
def setregOf (r : AsmReg) (v : BitVec 16) : Instr :=
  match r with
  | .dwell => .setregDwell v
  | .blinkIvl => .setregBlinkIvl v
  | .scrollIvl => .setregScrollIvl v
  | .clockIvl => .setregClockIvl v

/-- `WSTR "s"`: WRST, then one WPUSH for each character (R67). -/
def expandWstr (s : List CharCode) : List Instr := .wrst :: s.map .wpush

/-- What a line stands for, one entry for each cycle, `none` being a cycle with `cmd_valid = 0`
(R66, R67). -/
def expandLine : AsmLine → List (Option Instr)
  | .nop => [some .nop]
  | .clear => [some .clear]
  | .wrst => [some .wrst]
  | .wpush c => [some (.wpush c)]
  | .setreg r v => [some (setregOf r v)]
  | .sstatic => [some .sstatic]
  | .sblink n => [some (.sblink n)]
  | .sscroll => [some .sscroll]
  | .sclock => [some .sclock]
  | .wait k => List.replicate k none
  | .wstr s => (expandWstr s).map some
  | .showText s => (expandWstr s).map some ++ [some .sstatic]
  | .blinkText s n => (expandWstr s).map some ++ [some (.sblink n)]
  | .scrollText s => (expandWstr s).map some ++ [some .sscroll]

/-- The line is legal in the configuration: a string fits the word buffer (R67), and SCLOCK needs
`HAS_CLOCK` (R66). -/
def lineLegal (cfg : Config) : AsmLine → Bool
  | .nop => true
  | .clear => true
  | .wrst => true
  | .wpush _ => true
  | .setreg _ _ => true
  | .sstatic => true
  | .sblink _ => true
  | .sscroll => true
  | .sclock => cfg.hasClock
  | .wait _ => true
  | .wstr s => decide (s.length ≤ cfg.wordMax)
  | .showText s => decide (s.length ≤ cfg.wordMax)
  | .blinkText s _ => decide (s.length ≤ cfg.wordMax)
  | .scrollText s => decide (s.length ≤ cfg.wordMax)

/-! ## Input samples -/

/-- A cycle of the schedule: the pins `base` with the command, or without one. -/
def sampleOf (base : Inputs) : Option Instr → Inputs
  | some i => { base with rst := false, cmdValid := true, cmdWord := encode i }
  | none => { base with rst := false, cmdValid := false }

/-- The samples a sequence of lines presents, the other pins as in `base`. -/
def presentLines (base : Inputs) (ls : List AsmLine) : List Inputs :=
  (ls.flatMap expandLine).map (sampleOf base)

/-- The source's process entry surface: reset, `SCROLL "text"`, and CLEAR after `k` cycles, when the host
stops (70_reset_and_hazards.md R131). -/
def entrySurface (base : Inputs) (text : List CharCode) (k : Nat) : List Inputs :=
  { base with rst := true } :: presentLines base [.scrollText text, .wait k, .clear]

/-! ## Text syntax (R66) -/

/-- A token of a line. -/
inductive AsmToken where
  /-- A mnemonic, a register name or a number. -/
  | atom (s : List Char)
  /-- A character literal `'x'`. -/
  | chr (c : Char)
  /-- A string literal. -/
  | str (s : List Char)
  | comma
deriving DecidableEq, Repr

/-- Where the reader of a line stands: between tokens, in an atom, or in a string, with what it has read of
it (last character first). -/
inductive LexState where
  | between
  | inAtom (acc : List Char)
  | inStr (acc : List Char)
deriving DecidableEq, Repr

/-- The token that ends where the reader stands, if any. -/
def flushAtom : LexState → List AsmToken
  | .between => []
  | .inAtom acc => [.atom acc.reverse]
  | .inStr _ => []

/-- The tokens of one line; `;` starts a comment, except inside a literal. `none` for an open string. -/
def lexLine : LexState → List Char → Option (List AsmToken)
  | .inStr _, [] => none
  | .inStr acc, c :: rest =>
    if c = '"' then (lexLine .between rest).map (.str acc.reverse :: ·)
    else lexLine (.inStr (c :: acc)) rest
  | st, [] => some (flushAtom st)
  | st, '\'' :: x :: '\'' :: rest => (lexLine .between rest).map (flushAtom st ++ .chr x :: ·)
  | st, c :: rest =>
    if c = ';' then some (flushAtom st)
    else if c = '"' then (lexLine (.inStr []) rest).map (flushAtom st ++ ·)
    else if c = ',' then (lexLine .between rest).map (flushAtom st ++ .comma :: ·)
    else if c = ' ' ∨ c = '\t' then (lexLine .between rest).map (flushAtom st ++ ·)
    else match st with
      | .inAtom acc => lexLine (.inAtom (c :: acc)) rest
      | _ => lexLine (.inAtom [c]) rest

/-- The value of a decimal digit. -/
def digitValue (c : Char) : Option Nat :=
  if '0'.toNat ≤ c.toNat ∧ c.toNat ≤ '9'.toNat then some (c.toNat - '0'.toNat) else none

/-- A decimal number, read from the left. -/
def decimalFrom (n : Nat) : List Char → Option Nat
  | [] => some n
  | c :: rest => (digitValue c).bind fun d => decimalFrom (10 * n + d) rest

/-- A non-empty decimal number. -/
def decimal : List Char → Option Nat
  | [] => none
  | c :: rest => decimalFrom 0 (c :: rest)

/-- The code of a character: its ASCII code point (30_encoding.md R56). -/
def codeOf (c : Char) : Option CharCode :=
  if c.toNat < 256 then some (BitVec.ofNat 8 c.toNat) else none

/-- The codes of a string. -/
def codesOf (s : List Char) : Option (List CharCode) := s.mapM codeOf

/-- The operand `c` of WPUSH: a character literal or 0..255 (R66). -/
def charOperand : AsmToken → Option CharCode
  | .chr c => codeOf c
  | .atom s => (decimal s).bind fun n => if n ≤ 255 then some (BitVec.ofNat 8 n) else none
  | .str _ => none
  | .comma => none

/-- The operand `v` of SETREG, 0..65535 (R66). -/
def valueOperand : AsmToken → Option (BitVec 16)
  | .atom s => (decimal s).bind fun n => if n ≤ 65535 then some (BitVec.ofNat 16 n) else none
  | .chr _ => none
  | .str _ => none
  | .comma => none

/-- The operand `n` of SBLINK, -32768..32767 (R66). -/
def boundOperand : AsmToken → Option (BitVec 16)
  | .atom ('-' :: s) => (decimal s).bind fun n => if n ≤ 32768 then some (BitVec.ofInt 16 (-(n : Int))) else none
  | .atom s => (decimal s).bind fun n => if n ≤ 32767 then some (BitVec.ofNat 16 n) else none
  | .chr _ => none
  | .str _ => none
  | .comma => none

/-- The register operand of SETREG (R66). -/
def regOperand : AsmToken → Option AsmReg
  | .atom s =>
    if s = "DWELL".toList then some .dwell
    else if s = "BLINK_IVL".toList then some .blinkIvl
    else if s = "SCROLL_IVL".toList then some .scrollIvl
    else if s = "CLOCK_IVL".toList then some .clockIvl
    else none
  | .chr _ => none
  | .str _ => none
  | .comma => none

/-- A line's command from its mnemonic and operand tokens (R66, R67). -/
def parseCommand (m : List Char) (ops : List AsmToken) : Option AsmLine :=
  match ops with
  | [] =>
    if m = "NOP".toList then some .nop
    else if m = "CLEAR".toList then some .clear
    else if m = "WRST".toList then some .wrst
    else if m = "SSTATIC".toList then some .sstatic
    else if m = "SSCROLL".toList then some .sscroll
    else if m = "SCLOCK".toList then some .sclock
    else none
  | [.str s] =>
    if m = "WSTR".toList then (codesOf s).map .wstr
    else if m = "SHOW".toList then (codesOf s).map .showText
    else if m = "SCROLL".toList then (codesOf s).map .scrollText
    else none
  | [a] =>
    if m = "WPUSH".toList then (charOperand a).map .wpush
    else if m = "SBLINK".toList then (boundOperand a).map .sblink
    else if m = "WAIT".toList then
      match a with
      | .atom s => (decimal s).map .wait
      | _ => none
    else none
  | [.str s, .comma, a] =>
    if m = "BLINK".toList then (codesOf s).bind fun cs => (boundOperand a).map (.blinkText cs) else none
  | [a, .comma, b] =>
    if m = "SETREG".toList then (regOperand a).bind fun r => (valueOperand b).map (.setreg r) else none
  | _ => none

/-- One line of text: no command (a blank line or a comment), or one `AsmLine` (R66). `none` where it is no
line of the syntax. -/
def parseLine (text : List Char) : Option (List AsmLine) :=
  match lexLine .between text with
  | none => none
  | some [] => some []
  | some (.atom m :: ops) => (parseCommand m ops).map ([·])
  | some _ => none

end Sys2Proof.Machine
end

