-- ==== Sys2Proof/Tests/Slice0.lean ====
section
/-! SUPPORT. The model's own tests. Expected values come from spec/95_test_vectors.md, from the examples of the
rules, or from the encodings of 30_encoding.md by hand; each test names its source. After them, one witness for
every statement with hypotheses: a concrete state and operands that meet them together. -/

namespace Sys2Proof.Tests
open Sys2Proof Sys2Proof.Machine

/-! ## Helpers -/

/-- Pins without reset and without a command. -/
def bare : Inputs := ⟨false, false, 0, 0, 0, 0⟩

/-- Pins that present the word `w`. -/
def present (w : CmdWord) : Inputs := { bare with cmdValid := true, cmdWord := w }

/-- Pins in reset. -/
def inReset : Inputs := { bare with rst := true }

/-- `s` with the word `w` presented. -/
def on (s : State) (w : CmdWord) : State := { s with inputs := [present w] }

/-- What `f` shows of the state after one step. -/
def seen {α : Type} (f : State → α) (s : State) : Option α :=
  match step s with
  | .next t => some (f t)
  | .fault _ => none
  | .refused _ => none

/-- The reset state with mode `m` at sequencer position `q`. -/
def running (m : Mode) (q : SeqPos) : State := { State.reset with mode := m, seq := q }

/-- `s` with the word `cs` in the buffer. -/
def holding (cs : List CharCode) (s : State) : State :=
  { s with word := cs ++ List.replicate (64 - cs.length) 0, wlen := BitVec.ofNat 7 cs.length }

/-- `s` showing the frame `f`. -/
def showing (f : Frame) (s : State) : State := { s with frame := f, snap := f }

/-- "TEST". -/
def test : List CharCode := [0x54, 0x45, 0x53, 0x54]

/-- "GOOD". -/
def good : Frame := #v[0x47, 0x4F, 0x4F, 0x44]

/-- The parameters with the Clock strategy present. -/
def clockCfg : Config := { defaultConfig with hasClock := true }

/-- The parameters with a strobe in every third cycle. -/
def slowCfg : Config := { defaultConfig with tbCycles := 3 }

/-! ## Ill-formed terms and parameters are refused -/

theorem test_selector_3_is_not_reserved : (Instr.reservedSel 3).wellFormed = false := by decide
theorem test_selector_0_is_not_reserved : (Instr.reservedSel 0).wellFormed = false := by decide
theorem test_no_timebase_refused : ¬ConfigLegal { defaultConfig with tbCycles := 0 } := fun h => absurd h.1 (by decide)
theorem test_no_buffer_refused : ¬ConfigLegal { defaultConfig with wordMax := 0 } := fun h => absurd h.2.1 (by decide)
theorem test_long_buffer_refused : ¬ConfigLegal { defaultConfig with wordMax := 125 } :=
  fun h => absurd h.2.2.1 (by decide)
/-- A table with one segment lit everywhere has no blank space (40_encoder.md R74). -/
theorem test_bad_glyphs_refused : ¬GlyphLegal (Vector.replicate 256 0x01) :=
  fun h => absurd h.2.2.1 (by decide)
/-- A table that is blank everywhere does not tell `0` from `O` (40_encoder.md R76). -/
theorem test_blank_glyphs_refused : ¬GlyphLegal (Vector.replicate 256 0x00) :=
  fun h => absurd h.2.2.2.2 (by decide)

/-! ## Decoding: words written out bit by bit from 30_encoding.md R61 and R63, ignored bits set in some -/

theorem test_decode_nop : decode 0b0000_0000_0000_0000_0000_0000 = .nop := by decide
theorem test_decode_nop_ignores : decode 0b0000_1010_1011_1100_1101_1110 = .nop := by decide
theorem test_decode_clear : decode 0b0001_0000_0000_0000_0000_0000 = .clear := by decide
theorem test_decode_wrst : decode 0b0010_1111_0000_0000_0000_0001 = .wrst := by decide
theorem test_decode_wpush : decode 0b0011_0000_0000_0000_0101_0100 = .wpush 0x54 := by decide
theorem test_decode_wpush_ignores : decode 0b0011_1001_1111_1111_0101_0011 = .wpush 0x53 := by decide
theorem test_decode_setreg_dwell : decode 0b0100_0000_0000_0000_0000_0010 = .setregDwell 2 := by decide
theorem test_decode_setreg_blink : decode 0b0100_0001_0000_0000_0001_0000 = .setregBlinkIvl 16 := by decide
theorem test_decode_setreg_scroll : decode 0b0100_0010_0000_0000_0000_1000 = .setregScrollIvl 8 := by decide
theorem test_decode_setreg_clock : decode 0b0100_0011_1111_1111_1111_1111 = .setregClockIvl 65535 := by decide
theorem test_decode_setreg_sel4 : decode 0b0100_0100_0000_0000_0000_0001 = .reservedSel 4 := by decide
theorem test_decode_setreg_sel15 : decode 0b0100_1111_0000_0000_0000_0000 = .reservedSel 15 := by decide
theorem test_decode_sstatic : decode 0b0101_0000_0000_0000_0000_0000 = .sstatic := by decide
theorem test_decode_sblink : decode 0b0110_0000_1000_0000_0000_0010 = .sblink 0x8002 := by decide
theorem test_decode_sscroll : decode 0b0111_0000_0000_0000_0000_0000 = .sscroll := by decide
theorem test_decode_sclock : decode 0b1000_0000_0000_0000_0000_0000 = .sclock := by decide
theorem test_decode_op9 : decode 0b1001_0000_0000_0000_0000_0000 = .reservedOp9 := by decide
theorem test_decode_opA : decode 0b1010_0000_0000_0000_0000_0000 = .reservedOpAB 0 := by decide
theorem test_decode_opB : decode 0b1011_0000_0000_0000_0000_0000 = .reservedOpAB 1 := by decide
theorem test_decode_opC : decode 0b1100_0000_0000_0000_0000_0000 = .reservedOpCF 0 := by decide
theorem test_decode_opF : decode 0b1111_0000_0000_0000_0000_0000 = .reservedOpCF 3 := by decide
theorem test_table_word : decodeTableWord 24 0x6F0005 = some (.sblink 5) := by decide
/-- Every command is exactly 24 bits (30_encoding.md R65). -/
theorem test_table_word_too_long : decodeTableWord 32 0x100000 = none := by decide
/-- The assembler examples of 30_encoding.md R66. -/
theorem test_encode_examples :
    encode (.wpush 0x54) = 0x300054 ∧ encode (.setregScrollIvl 8) = 0x420008 ∧ encode (.sblink 2) = 0x600002 ∧
    encode (.sblink (BitVec.ofInt 16 (-1))) = 0x60FFFF := by decide

/-! ## The glyph table (vectors E1 to E13; 40_encoder.md R80) -/

theorem glyphRef_legal : GlyphLegal glyphRefTable := by
  refine ⟨?_, ?_, ?_, ?_, ?_⟩ <;> decide +kernel

theorem test_glyphs_supported :
    ([0x20, 0x2E, 0x30, 0x4F, 0x6F, 0x31, 0x49, 0x69, 0x38, 0x41, 0x61, 0x54, 0x74] : List CharCode).map
      (glyphAt glyphRefTable) =
    [0x00, 0x80, 0x3F, 0x5C, 0x5C, 0x06, 0x06, 0x06, 0x7F, 0x77, 0x77, 0x78, 0x78] := by decide +kernel

theorem test_glyphs_unsupported :
    ([0x4B, 0x6D, 0x51, 0x76, 0x57, 0x78, 0x00, 0x0A, 0x21, 0x2D, 0x7F, 0x80, 0xFF] : List CharCode).all
      (fun c => glyphAt glyphRefTable c == 0x00 && !supported c) = true := by decide +kernel

/-- The supported set has 52 codes (40_encoder.md R80). -/
theorem test_supported_count :
    ((List.range 256).filter fun n => supported (BitVec.ofNat 8 n)).length = 52 := by decide +kernel

/-! ## One step of each command -/

/-- H1: only EL changes. -/
theorem test_nop :
    step (on { State.reset with el := 5 } 0x000000) =
      .next { State.reset with el := 6, cycle := 1 } := by rfl

/-- H3. -/
theorem test_clear :
    seen (fun t => ((t.mode, t.seq, t.frame), t.pos, digOut t, segOut t))
      (on { showing #v[0x20, 0x54, 0x45, 0x53] (running .scroll (.hold 2)) with pos := 3 } 0x100000) =
    some ((.idle, .off, #v[0x20, 0x54, 0x45, 0x53]), 3, 0, 0) := by decide

/-- H4. -/
theorem test_clear_keeps_error :
    seen (fun t => (t.mode, t.done, t.err, t.ecode))
      (on { running .done .off with done := true, err := true, ecode := 3 } 0x100000) =
    some (.idle, false, true, 3) := by decide

/-- EL counts the strobe of CLEAR's cycle (41_refresh.md R83; notes/assumptions/21.md). -/
theorem test_clear_counts_strobe : seen (fun t => t.el) (on { running .scroll (.hold 2) with el := 5 } 0x100000) =
    some 6 := by decide

/-- H5. -/
theorem test_wrst : seen (fun t => (t.wlen, t.word.take 4)) (on (holding test State.reset) 0x200000) =
    some (0, test) := by decide

/-- H6 and H7. -/
theorem test_wpush :
    seen (fun t => (t.wlen, t.word.take 3)) (on (holding [0x54, 0x45] State.reset) 0x30FF53) =
    some (3, [0x54, 0x45, 0x53]) := by decide

/-- H9. -/
theorem test_wpush_full :
    seen (fun t => (t.wlen, t.word, t.err, t.ecode))
      (on { State.reset with cfg := { defaultConfig with wordMax := 4 }, word := test, wlen := 4 } 0x300045) =
    some (4, test, true, 3) := by decide

/-- H11. -/
theorem test_setreg_dwell : seen (fun t => (t.dwell, t.blinkIvl)) (on State.reset 0x400002) = some (2, 200) := by
  decide

/-- H12. -/
theorem test_setreg_blink : seen (fun t => (t.blinkIvl, t.scrollIvl)) (on State.reset 0x410010) = some (16, 60) := by
  decide

/-- H13. -/
theorem test_setreg_scroll : seen (fun t => (t.scrollIvl, t.clockIvl)) (on State.reset 0x420008) =
    some (8, 1000) := by decide

/-- H14. -/
theorem test_setreg_clock : seen (fun t => (t.clockIvl, t.dwell, t.err)) (on State.reset 0x43FFFF) =
    some (65535, 1, false) := by decide

/-- H15. -/
theorem test_reserved_sel : seen (fun t => (t.err, t.ecode, t.dwell)) (on State.reset 0x470005) =
    some (true, 2, 1) := by decide

/-- H16: the sequencer steps. -/
theorem test_reserved_opF : seen (fun t => (t.err, t.ecode, t.seq)) (on (running .static (.gap 1)) 0xF00000) =
    some (true, 1, .hold 1) := by decide

/-- The first cause is kept (P5, H10). -/
theorem test_reserved_opA : seen (fun t => (t.err, t.ecode)) (on { State.reset with err := true, ecode := 3 } 0xA00000) =
    some (true, 3) := by decide

/-- 30_encoding.md R63. -/
theorem test_reserved_op9 : seen (fun t => (t.err, t.ecode, t.mode)) (on State.reset 0x900000) =
    some (true, 1, .idle) := by decide

/-- H17. -/
theorem test_sclock_absent : seen (fun t => (t.err, t.ecode, t.mode)) (on State.reset 0x800000) =
    some (true, 1, .idle) := by decide

/-- H18: a word without `cmd_valid` is not seen. -/
theorem test_invalid_word :
    seen (fun t => t.err) { State.reset with inputs := [{ bare with cmdWord := 0xF00000 }] } = some false := by decide

/-- T1. -/
theorem test_sstatic :
    seen (fun t => (t.mode, t.seq, t.frame, t.snap, t.el)) (on (holding [0x48, 0x69] { State.reset with el := 9 }) 0x500000) =
    some (.static, .gap 0, #v[0x48, 0x69, 0x20, 0x20], #v[0x48, 0x69, 0x20, 0x20], 0) := by decide

/-- T3: a longer word shows its first four characters. -/
theorem test_sstatic_truncates :
    seen (fun t => t.frame) (on (holding [0x53, 0x43, 0x52, 0x4F, 0x4C, 0x4C] State.reset) 0x500000) =
    some #v[0x53, 0x43, 0x52, 0x4F] := by decide

/-- The example of 43_animation.md R107. -/
theorem test_sblink :
    seen (fun t => (t.mode, t.frame, t.tgt, t.phase, t.hc, t.nrep))
      (on (holding good.toList { State.reset with hc := 7, phase := .blanked }) 0x600002) =
    some (.blink, good, good, .showing, 0, 2) := by decide

/-- SC9. -/
theorem test_sscroll :
    seen (fun t => (t.mode, t.seq, t.frame, t.pos, t.el))
      (on { showing good (running .static (.hold 1)) with pos := 5, el := 9 } 0x700000) =
    some (.scroll, .gap 0, #v[0x20, 0x20, 0x20, 0x20], 0, 0) := by decide

/-- The example of 43_animation.md R114: hour 14, minute 5 is " 205". -/
theorem test_sclock :
    seen (fun t => (t.mode, t.frame, t.snap))
      { State.reset with cfg := clockCfg, inputs := [{ present 0x800000 with todHour := 14, todMin := 5 }] } =
    some (.clock, #v[0x20, 0x32, 0x30, 0x35], #v[0x20, 0x32, 0x30, 0x35]) := by decide

/-! ## Ticks and the sequencer, one step each -/

/-- The state at the pass end of mode `m` with the interval elapsed. -/
def passEnding (m : Mode) : State :=
  { running m (.hold 3) with blinkIvl := 8, scrollIvl := 8, clockIvl := 8, el := 7 }

/-- B8. -/
theorem test_blink_to_blank :
    seen (fun t => (t.hc, t.phase, t.frame, t.snap))
      { showing good (passEnding .blink) with tgt := good, nrep := 2 } =
    some (1, .blanked, #v[0x20, 0x20, 0x20, 0x20], #v[0x20, 0x20, 0x20, 0x20]) := by decide

/-- B10. -/
theorem test_blink_ends :
    seen (fun t => ((t.mode, t.seq, t.done), t.hc, t.frame, t.phase))
      { showing good (passEnding .blink) with tgt := good, nrep := 2, hc := 4 } =
    some ((.done, .off, true), 5, good, .showing) := by decide

/-- B11: an unbounded blink does not count. -/
theorem test_blink_forever :
    seen (fun t => (t.mode, t.hc, t.phase, t.frame))
      { passEnding .blink with tgt := good, nrep := BitVec.ofInt 16 (-5), phase := .blanked } =
    some (.blink, 0, .showing, good) := by decide

/-- SC4. -/
theorem test_scroll_tick :
    seen (fun t => (t.frame, t.snap, t.pos))
      { holding test (showing #v[0x20, 0x20, 0x54, 0x45] (passEnding .scroll)) with pos := 2 } =
    some (#v[0x20, 0x54, 0x45, 0x53], #v[0x20, 0x54, 0x45, 0x53], 3) := by decide

/-- SC6: the position wraps at L + 4. -/
theorem test_scroll_wraps :
    seen (fun t => (t.frame, t.pos))
      { holding test (showing #v[0x54, 0x20, 0x20, 0x20] (passEnding .scroll)) with pos := 7 } =
    some (#v[0x20, 0x20, 0x20, 0x20], 0) := by decide

/-- The example of 43_animation.md R115: hour 0, minute 30 is "1230". -/
theorem test_clock_tick :
    seen (fun t => (t.frame, t.el))
      { passEnding .clock with cfg := clockCfg, inputs := [{ bare with todMin := 30 }] } =
    some (#v[0x31, 0x32, 0x33, 0x30], 0) := by decide

/-- K3, K4, K10, K12, K13. -/
theorem test_clock_frames :
    clockFrame 1 5 = #v[0x20, 0x31, 0x30, 0x35] ∧ clockFrame 9 59 = #v[0x20, 0x39, 0x35, 0x39] ∧
    clockFrame 22 45 = #v[0x31, 0x30, 0x34, 0x35] ∧ clockFrame 24 0 = #v[0x32, 0x34, 0x30, 0x30] ∧
    clockFrame 31 63 = #v[0x33, 0x31, 0x36, 0x33] := by decide

/-- Q9 in its cycle 6: the count 4 ends the HOLD once DWELL is 1. -/
theorem test_lowered_dwell : seen (fun t => t.seq) { running .static (.hold 0) with cnt := 3 } = some (.gap 1) := by
  decide

/-- X2: a blink ends in the cycle of a non-mode command. -/
theorem test_blink_ends_beside_wpush :
    seen (fun t => (t.mode, t.wlen, statusOut t))
      (on (holding good.toList { showing good (passEnding .blink) with tgt := good, nrep := 2, hc := 4 }) 0x300058) =
    some (.done, 5, 0x0515) := by decide

/-- X1: a START in a pass-end cycle wins over the tick. -/
theorem test_start_beats_tick :
    seen (fun t => (t.mode, t.frame, t.pos, t.seq, statusOut t))
      (on (holding test (passEnding .scroll)) 0x500000) =
    some (.static, #v[0x54, 0x45, 0x53, 0x54], 0, .gap 0, 0x0401) := by decide

/-- X4, X5: reset wins over any command. -/
theorem test_reset :
    seen (fun t => ((t.mode, t.seq, t.wlen, t.dwell), t.err, t.ecode, statusOut t))
      { holding test (running .static (.hold 0)) with
        dwell := 9, err := true, ecode := 3, inputs := [{ present 0x300041 with rst := true }] } =
    some ((.idle, .off, 0, 1), false, 0, 0) := by decide

/-- Q3, Q4. -/
theorem test_outputs :
    (digOut (running .static (.hold 0)), segOut (showing #v[0x48, 0x69, 0x20, 0x20] (running .static (.hold 0)))) =
      (0b0001, 0x76) ∧
    (digOut (running .static (.hold 3)), segOut (showing #v[0x31, 0x32, 0x33, 0x30] (running .static (.hold 3)))) =
      (0b1000, 0x3F) := by decide +kernel

/-- W5, W8, W10. -/
theorem test_status :
    statusOut { running .done .off with done := true, wlen := 4 } = 0x0415 ∧
    statusOut { State.reset with err := true, ecode := 3, wlen := 4 } = 0x04E0 ∧
    statusOut { running .static (.gap 0) with wlen := 64 } = 0x4001 := by decide

/-- The word a row is placed as is the one the next step runs (H6 by the row's word). -/
theorem test_withFetchWord :
    seen (fun t => (t.wlen, t.word.take 1)) (State.reset.withFetchWord 24 0x300053) = some (1, [0x53]) := by decide

/-! ## The assembler (30_encoding.md R66, R67) -/

theorem test_asm_line :
    parseLine "SETREG SCROLL_IVL, 8 ; slow".toList = some [.setreg .scrollIvl 8] ∧
    parseLine "WPUSH 'T'".toList = some [.wpush 0x54] ∧
    parseLine "SBLINK -1".toList = some [.sblink 0xFFFF] ∧
    parseLine "; nothing".toList = some [] := by decide +kernel

theorem test_asm_scroll :
    (presentLines bare [.scrollText [0x54, 0x45]]).map (fun i => (i.cmdValid, i.cmdWord)) =
    [(true, 0x200000), (true, 0x300054), (true, 0x300045), (true, 0x700000)] := by decide

theorem test_asm_wait : (presentLines bare [.clear, .wait 2]).map (fun i => (i.cmdValid, i.cmdWord)) =
    [(true, 0x100000), (false, 0), (false, 0)] := by decide

/-! ## Witnesses: concrete states and operands that meet the hypotheses of each statement, clause by clause -/

/-- The bounds of `BlockInv` that a concrete state decides. -/
abbrev InvChecks (s : State) : Prop :=
  ((1 ≤ s.cfg.tbCycles ∧ 1 ≤ s.cfg.wordMax ∧ s.cfg.wordMax ≤ 124) ∧ s.pre < s.cfg.tbCycles) ∧
  (WordWf s ∧ SeqMatchesMode s) ∧ ((s.done = true ↔ s.mode = .done) ∧ s.pos.toNat ≤ s.cfg.wordMax + 3) ∧
  (ErrorRecordWf s ∧ (s.mode = .clock → s.cfg.hasClock = true)) ∧ BlinkCountWf s ∧ s.snap = s.frame ∧ BlinkFrameWf s

theorem inv_of_checks {s : State} (hg : s.cfg.glyph = glyphRefTable) (h : InvChecks s) : BlockInv s := by
  obtain ⟨⟨⟨h1, h2, h3⟩, h4⟩, ⟨h5, h6⟩, ⟨h7, h8⟩, ⟨h9, h10⟩, h11, h12, h13⟩ := h
  exact ⟨⟨h1, h2, h3, hg ▸ glyphRef_legal⟩, h4, h5, h6, h7, h8, h9, h10, h11, h12, h13⟩

/-- STATIC in HOLD of position `p`, with DWELL 3 and `c` strobes counted. -/
def dwelling (p : DigitPos) (c : BitVec 16) : State := { running .static (.hold p) with dwell := 3, cnt := c }

/-- A blink at its pass end: bound `n`, `h` half-cycles counted, in phase `ph`; a strobe in every cycle makes
its elapsed count exactly the interval. -/
def blinking (n h : BitVec 16) (ph : Phase) : State :=
  { passEnding .blink with nrep := n, hc := h, phase := ph }

/-- The witness of `WellFormed`: every constructor, the reserved selectors at both ends of their range. -/
theorem witness_DecodeOfEncodeIsIdentity :
    ([.nop, .clear, .wrst, .wpush 0xFF, .setregDwell 0xFFFF, .setregBlinkIvl 0, .setregScrollIvl 1,
      .setregClockIvl 2, .sstatic, .sblink 0x8000, .sscroll, .sclock, .reservedOp9, .reservedOpAB 1,
      .reservedOpCF 3, .reservedSel 4, .reservedSel 15] : List Instr).all Instr.wellFormed = true := by decide

/-- The numbers of each clause at the ends of their ranges: opcodes 4, 0xA, 0xB, 0xC, 0xF, selectors 3, 4, 15. -/
theorem witness_OpcodeMapOfEveryWord :
    ([0x000000, 0x1FFFFF, 0x200000, 0x3000FF, 0x40FFFF, 0x410000, 0x420000, 0x43FFFF, 0x440000, 0x4FFFFF,
      0x500000, 0x60FFFF, 0x700000, 0x800000, 0x9FFFFF, 0xA00000, 0xBFFFFF, 0xC00000, 0xFFFFFF] : List CmdWord).map
      (fun w => (w.toNat / 2 ^ 20, w.toNat / 2 ^ 16 % 16, w.toNat % 2 ^ 16)) =
    [(0x0, 0, 0), (0x1, 15, 0xFFFF), (0x2, 0, 0), (0x3, 0, 0xFF), (0x4, 0, 0xFFFF), (0x4, 1, 0), (0x4, 2, 0),
      (0x4, 3, 0xFFFF), (0x4, 4, 0), (0x4, 15, 0xFFFF), (0x5, 0, 0), (0x6, 0, 0xFFFF), (0x7, 0, 0), (0x8, 0, 0),
      (0x9, 15, 0xFFFF), (0xA, 0, 0), (0xB, 15, 0xFFFF), (0xC, 0, 0), (0xF, 15, 0xFFFF)] := by decide

theorem witness_StepRunsTheDecodedCommand :
    (pins State.reset).rst = false ∧ (pins State.reset).cmdValid = false ∧
    Presents (on State.reset 0x300054) (encode (.wpush 0x54)) ∧ (Instr.wpush 0x54).WellFormed := by decide

theorem witness_EveryStepKeepsInvariant :
    BlockInv State.reset ∧ BlockInv (dwelling 3 2) ∧ BlockInv (blinking 32767 65534 .showing) :=
  ⟨inv_of_checks rfl (by decide), inv_of_checks rfl (by decide), inv_of_checks rfl (by decide)⟩

theorem witness_ResetCycleGivesResetState :
    (pins { State.reset with inputs := [inReset, inReset] }).rst = true ∧
    seen (fun t => (pins t).rst) { State.reset with inputs := [inReset, inReset] } = some true ∧
    (pins { State.reset with err := true, ecode := 3 }).rst = false := by decide

/-- A START command, CLEAR, a due tick, and a strobe without a tick at the last count before 0xFFFF. -/
theorem witness_TimebaseCountsStrobes :
    (BlockInv (on State.reset 0x500000) ∧ (pins (on State.reset 0x500000)).rst = false ∧
      isModeCommand false (currentCommand (on State.reset 0x500000)) = true ∧
      currentCommand (on State.reset 0x500000) ≠ .clear) ∧
    (BlockInv (on State.reset 0x100000) ∧ currentCommand (on State.reset 0x100000) = .clear) ∧
    (BlockInv (blinking 2 0 .showing) ∧ SequencerSteps (blinking 2 0 .showing) ∧ AtPassEnd (blinking 2 0 .showing) ∧
      tickDue (blinking 2 0 .showing) = true) ∧
    (BlockInv { State.reset with el := 65535 } ∧ SequencerSteps { State.reset with el := 65535 } ∧
      ¬AtPassEnd { State.reset with el := 65535 }) :=
  ⟨⟨inv_of_checks rfl (by decide), by decide, by decide, by decide⟩, ⟨inv_of_checks rfl (by decide), by decide⟩,
   ⟨inv_of_checks rfl (by decide), by decide, by decide, by decide⟩,
   ⟨inv_of_checks rfl (by decide), by decide, by decide⟩⟩

/-- A START in a pass-end cycle, and CLEAR. -/
theorem witness_ModeCommandReplacesSequencerStep :
    (pins (on (passEnding .scroll) 0x500000)).rst = false ∧
    isModeCommand (on (passEnding .scroll) 0x500000).cfg.hasClock (currentCommand (on (passEnding .scroll) 0x500000)) =
      true ∧
    isModeCommand false (currentCommand (on (passEnding .scroll) 0x100000)) = true := by decide

theorem witness_OffDoesNothing :
    (State.reset.seq = .off ∧ SequencerSteps State.reset) ∧
    ((on State.reset 0x100000).seq = .off ∧ currentCommand (on State.reset 0x100000) = .clear) ∧
    seen (fun t => decide (t.seq ≠ .off)) (on State.reset 0x600002) = some true := by decide

theorem witness_GapLastsOneCycle :
    (running .static (.gap 3)).seq = .gap 3 ∧ SequencerSteps (running .static (.gap 3)) := by decide

/-- The three clauses at the boundary: 1 + 1 < 3 stays, 2 + 1 = 3 ends, at position 2 and at position 3. -/
theorem witness_HoldEndsWhenDwellIsReached :
    (BlockInv (dwelling 2 1) ∧ SequencerSteps (dwelling 2 1) ∧
      (dwelling 2 1).cnt.toNat + strobesNow (dwelling 2 1) < (dwelling 2 1).dwell.toNat) ∧
    (BlockInv (dwelling 2 2) ∧ SequencerSteps (dwelling 2 2) ∧
      (dwelling 2 2).dwell.toNat ≤ (dwelling 2 2).cnt.toNat + strobesNow (dwelling 2 2)) ∧
    (BlockInv (dwelling 3 2) ∧ SequencerSteps (dwelling 3 2) ∧
      (dwelling 3 2).dwell.toNat ≤ (dwelling 3 2).cnt.toNat + strobesNow (dwelling 3 2)) :=
  ⟨⟨inv_of_checks rfl (by decide), by decide, by decide⟩, ⟨inv_of_checks rfl (by decide), by decide, by decide⟩,
   ⟨inv_of_checks rfl (by decide), by decide, by decide⟩⟩

/-- OFF, a GAP, a HOLD, and a SNAP that changes. -/
theorem witness_SequencerNeverSkipsAPosition :
    (BlockInv State.reset ∧ SequencerSteps State.reset) ∧
    (BlockInv (running .scroll (.gap 0)) ∧ SequencerSteps (running .scroll (.gap 0))) ∧
    (BlockInv (dwelling 3 2) ∧ SequencerSteps (dwelling 3 2)) ∧
    (BlockInv (holding test (passEnding .scroll)) ∧ SequencerSteps (holding test (passEnding .scroll)) ∧
      seen (fun t => decide (t.snap ≠ blank4)) (holding test (passEnding .scroll)) = some true) :=
  ⟨⟨inv_of_checks rfl (by decide), by decide⟩, ⟨inv_of_checks rfl (by decide), by decide⟩,
   ⟨inv_of_checks rfl (by decide), by decide⟩, ⟨inv_of_checks rfl (by decide), by decide, by decide⟩⟩

/-- A pass end one strobe before the interval has elapsed, and one of STATIC. -/
theorem witness_PassEndWithoutTickRepeatsFrame :
    (BlockInv { passEnding .scroll with el := 6 } ∧ SequencerSteps { passEnding .scroll with el := 6 } ∧
      AtPassEnd { passEnding .scroll with el := 6 } ∧ tickDue { passEnding .scroll with el := 6 } = false) ∧
    (BlockInv (dwelling 3 2) ∧ AtPassEnd (dwelling 3 2) ∧ tickDue (dwelling 3 2) = false) :=
  ⟨⟨inv_of_checks rfl (by decide), by decide, by decide, by decide⟩,
   ⟨inv_of_checks rfl (by decide), by decide, by decide⟩⟩

theorem witness_OutputsFollowSequencer :
    State.reset.seq = .off ∧ (running .static (.gap 3)).seq = .gap 3 ∧ (dwelling 3 2).seq = .hold 3 := by decide

/-- A HOLD that goes on, an edge at which the segments change, a mode command and a reset in a HOLD. -/
theorem witness_BreakBeforeMake :
    (digOut (dwelling 2 1) ≠ 0 ∧ seen (fun t => decide (digOut t ≠ 0)) (dwelling 2 1) = some true) ∧
    seen (fun t => decide (segOut t ≠ segOut (showing good (dwelling 0 2)))) (showing good (dwelling 0 2)) =
      some true ∧
    isModeCommand false (currentCommand (on (dwelling 2 1) 0x700000)) = true ∧
    (pins { dwelling 2 1 with inputs := [inReset] }).rst = true := by decide +kernel

theorem witness_QuiescentModesStayDark :
    (BlockInv State.reset ∧ State.reset.mode = .idle ∧ SequencerSteps State.reset) ∧
    (BlockInv { running .done .off with done := true } ∧ SequencerSteps { running .done .off with done := true }) :=
  ⟨⟨inv_of_checks rfl (by decide), by decide, by decide⟩, ⟨inv_of_checks rfl (by decide), by decide⟩⟩

/-- 'z' and 'Z' (the last letter), 'i' and 'o', the unsupported 0xFF, the space; and the same shown: 'K', a
space, '1' beside 'I', '0' beside 'O'. -/
theorem witness_EncoderMeetsTheGlyphConstraints :
    ConfigLegal defaultConfig ∧
    (foldCase 0x7A = foldCase 0x5A ∧ foldCase 0x69 = 0x49 ∧ foldCase 0x6F = 0x4F ∧ supported 0xFF = false) ∧
    (pins { State.reset with inputs := [{ bare with encIn := 0x20 }] }).encIn = 0x20 ∧
    (pins { State.reset with inputs := [{ bare with encIn := 0x31 }] }).encIn = 0x31 ∧
    (pins { State.reset with inputs := [{ bare with encIn := 0x30 }] }).encIn = 0x30 ∧
    ((showing #v[0x4B, 0x20, 0x31, 0x30] (running .static (.gap 0))).seq = .gap 0 ∧ supported 0x4B = false) ∧
    (showing #v[0x4B, 0x20, 0x31, 0x30] (running .static (.hold 1))).snap[1] = 0x20 ∧
    (showing #v[0x4B, 0x20, 0x31, 0x30] (running .static (.hold 2))).snap[2] = 0x31 ∧
    (showing #v[0x4B, 0x20, 0x31, 0x30] (running .static (.gap 3))).snap[3] = 0x30 ∧
    foldCase (showing #v[0x69, 0x6F, 0x20, 0x20] (running .static (.hold 0))).snap[0] = 0x49 ∧
    foldCase (showing #v[0x69, 0x6F, 0x20, 0x20] (running .static (.gap 1))).snap[1] = 0x4F :=
  ⟨⟨by decide, by decide, by decide, glyphRef_legal⟩, by decide, by decide, by decide, by decide, by decide,
   by decide, by decide, by decide, by decide, by decide⟩

theorem witness_NopIsACycleWithoutCommand : (0x0ABCDE : CmdWord).toNat / 2 ^ 20 = 0 := by decide

theorem witness_ClearStopsAndBlanks :
    BlockInv (on (dwelling 2 1) 0x1FFFFF) ∧ (0x1FFFFF : CmdWord).toNat / 2 ^ 20 = 1 ∧
    Presents (on (dwelling 2 1) 0x1FFFFF) 0x1FFFFF := ⟨inv_of_checks rfl (by decide), by decide, by decide⟩

theorem witness_WrstEmptiesTheWord : (0x2FFFFF : CmdWord).toNat / 2 ^ 20 = 2 := by decide

/-- A buffer with its last place free, and a full one. -/
theorem witness_WpushAppendsOrRejects :
    (0x30FF53 : CmdWord).toNat / 2 ^ 20 = 3 ∧
    (BlockInv { State.reset with wlen := 63 } ∧ (63 : BitVec 7).toNat < defaultConfig.wordMax) ∧
    (BlockInv { State.reset with wlen := 64 } ∧ (64 : BitVec 7).toNat = defaultConfig.wordMax) :=
  ⟨by decide, ⟨inv_of_checks rfl (by decide), by decide⟩, ⟨inv_of_checks rfl (by decide), by decide⟩⟩

theorem witness_SetregWritesOneDuration :
    ([0x400000, 0x41FFFF, 0x420008, 0x43FFFF] : List CmdWord).map (fun w => (w.toNat / 2 ^ 20, w.toNat / 2 ^ 16 % 16)) =
    [(4, 0), (4, 1), (4, 2), (4, 3)] := by decide

/-- Q9 in its cycle 5, with the new DWELL equal to the strobes counted, at positions 2 and 3. -/
theorem witness_LoweredDwellEndsHoldNextCycle :
    ∀ p ∈ ([2, 3] : List DigitPos), BlockInv (on (dwelling p 1) 0x400002) ∧
      (on (dwelling p 1) 0x400002).seq = .hold p ∧ (pins (on (dwelling p 1) 0x400002)).rst = false ∧
      currentCommand (on (dwelling p 1) 0x400002) = .setregDwell 2 ∧
      (on (dwelling p 1) 0x400002).cnt.toNat + strobesNow (on (dwelling p 1) 0x400002) <
        (on (dwelling p 1) 0x400002).dwell.toNat ∧
      (2 : BitVec 16).toNat ≤ (on (dwelling p 1) 0x400002).cnt.toNat + strobesNow (on (dwelling p 1) 0x400002) ∧
      seen (fun t => decide (SequencerSteps t)) (on (dwelling p 1) 0x400002) = some true := by
  intro p hp
  simp only [List.mem_cons, List.not_mem_nil, or_false] at hp
  rcases hp with rfl | rfl <;>
    exact ⟨inv_of_checks rfl (by decide), by decide, by decide, by decide, by decide, by decide, by decide⟩

theorem witness_ReservedWordsOnlyRecordAnError : State.reset.cfg.hasClock = false := by decide

/-- Each cause, the words at the ends of their ranges, and the accepted SCLOCK, SETREG and WPUSH beside them. -/
theorem witness_RejectedCommandsRecordTheFirstCause :
    ([0x800000, 0x900000, 0xFFFFFF, 0x440000, 0x4FFFFF, 0x43FFFF, 0x7FFFFF, 0x300053] : List CmdWord).map
      (rejectCause State.reset) = [1, 1, 1, 2, 2, 0, 0, 0] ∧
    rejectCause { State.reset with cfg := clockCfg } 0x800000 = 0 ∧
    rejectCause { State.reset with wlen := 63 } 0x300053 = 0 ∧
    rejectCause { State.reset with wlen := 64 } 0x300053 = 3 := by decide

theorem witness_StartCommandsBeginANewPass :
    (BlockInv (on (dwelling 2 1) 0x500000) ∧ (pins (on (dwelling 2 1) 0x500000)).rst = false ∧
      currentCommand (on (dwelling 2 1) 0x500000) = .sstatic) ∧
    currentCommand (on (dwelling 2 1) 0x60FFFF) = .sblink 0xFFFF ∧
    currentCommand (on (dwelling 2 1) 0x700000) = .sscroll ∧
    (BlockInv (on { State.reset with cfg := clockCfg } 0x800000) ∧
      currentCommand (on { State.reset with cfg := clockCfg } 0x800000) = .sclock) :=
  ⟨⟨inv_of_checks rfl (by decide), by decide, by decide⟩, by decide, by decide,
   ⟨inv_of_checks rfl (by decide), by decide⟩⟩

/-- The frames of SSTATIC and SBLINK with a word of three characters: index 2 inside it, index 3 outside. -/
theorem witness_SstaticShowsThePaddedWord :
    (2 : Nat) < (holding [0x41, 0x42, 0x43] State.reset).wlen.toNat ∧
    ¬(3 : Nat) < (holding [0x41, 0x42, 0x43] State.reset).wlen.toNat := by decide

theorem witness_SclockShowsTheTime : ({ State.reset with cfg := clockCfg } : State).cfg.hasClock = true := by decide

/-- The hours at the ends of their ranges. -/
theorem witness_ClockFrameFormatsTheTime :
    ([0, 1, 9, 10, 12, 13, 22, 23, 24, 31] : List Nat).map hour12 = [12, 1, 9, 10, 12, 1, 10, 11, 24, 31] := by decide

theorem witness_StaticFrameNeverChanges :
    BlockInv { dwelling 2 1 with inputs := [present 0x300041, bare] } ∧
    ({ dwelling 2 1 with inputs := [present 0x300041, bare] } : State).mode = .static ∧
    NoModeCommands { dwelling 2 1 with inputs := [present 0x300041, bare] } :=
  ⟨inv_of_checks rfl (by decide), by decide, by decide⟩

/-- The hypotheses of a blink tick, at the largest bound with the last half-cycle; and states of the other
clauses: not the last one in either phase, and an unbounded blink. -/
theorem witness_BlinkTickFlipsOrTerminates :
    (BlockInv (blinking 32767 65534 .showing) ∧ SequencerSteps (blinking 32767 65534 .showing) ∧
      AtPassEnd (blinking 32767 65534 .showing) ∧ (blinking 32767 65534 .showing).mode = .blink ∧
      (blinking 32767 65534 .showing).blinkIvl.toNat ≤ elNow (blinking 32767 65534 .showing) ∧
      (0 ≤ (32767 : BitVec 16).toInt ∧ ((65534 : BitVec 16).toNat : Int) + 1 = 2 * (32767 : BitVec 16).toInt + 1)) ∧
    (BlockInv (blinking 32767 65533 .blanked) ∧
      ¬((65533 : BitVec 16).toNat : Int) + 1 = 2 * (32767 : BitVec 16).toInt + 1) ∧
    (BlockInv (blinking 1 0 .showing) ∧ ¬((0 : BitVec 16).toNat : Int) + 1 = 2 * (1 : BitVec 16).toInt + 1) ∧
    (BlockInv (blinking 0x8000 0 .blanked) ∧ (0x8000 : BitVec 16).toInt < 0) :=
  ⟨⟨inv_of_checks rfl (by decide), by decide, by decide, by decide, by decide, by decide⟩,
   ⟨inv_of_checks rfl (by decide), by decide⟩, ⟨inv_of_checks rfl (by decide), by decide⟩,
   ⟨inv_of_checks rfl (by decide), by decide⟩⟩

/-- The last character of the word, the first blank after it, and the largest position. -/
theorem witness_ScrollTickShiftsTheView :
    (∀ p ∈ ([3, 4, 67] : List (BitVec 7)), BlockInv { holding test (passEnding .scroll) with pos := p }) ∧
    SequencerSteps (holding test (passEnding .scroll)) ∧ AtPassEnd (holding test (passEnding .scroll)) ∧
    (passEnding .scroll).scrollIvl.toNat ≤ elNow (passEnding .scroll) := by
  refine ⟨?_, by decide, by decide, by decide⟩
  intro p hp
  simp only [List.mem_cons, List.not_mem_nil, or_false] at hp
  rcases hp with rfl | rfl | rfl <;> exact inv_of_checks rfl (by decide)

theorem witness_ClockTickReadsTheTime :
    BlockInv { passEnding .clock with cfg := clockCfg } ∧ SequencerSteps { passEnding .clock with cfg := clockCfg } ∧
    AtPassEnd { passEnding .clock with cfg := clockCfg } ∧
    ({ passEnding .clock with cfg := clockCfg } : State).clockIvl.toNat ≤ elNow { passEnding .clock with cfg := clockCfg } :=
  ⟨inv_of_checks rfl (by decide), by decide, by decide, by decide⟩

theorem witness_ScrollShowsThePeriodicStream :
    BlockInv (holding test State.reset) ∧ 1 ≤ (holding test State.reset).wlen.toNat :=
  ⟨inv_of_checks rfl (by decide), by decide⟩

/-- The last half-cycle of the largest and of the smallest bound, and the bounds below 0 at both ends. -/
theorem witness_BlinkAlternatesTwoNPlusOneTimes :
    (0 ≤ (32767 : BitVec 16).toInt ∧ ((65534 : Nat) : Int) ≤ 2 * (32767 : BitVec 16).toInt) ∧
    (0 ≤ (0 : BitVec 16).toInt ∧ ((0 : Nat) : Int) ≤ 2 * (0 : BitVec 16).toInt) ∧
    (0xFFFF : BitVec 16).toInt < 0 ∧ (0x8000 : BitVec 16).toInt < 0 := by decide

theorem witness_PassVisitsEachPositionOnce :
    BlockInv (running .scroll (.gap 0)) ∧ (running .scroll (.gap 0)).cfg.tbCycles = 1 ∧
    QuietInputs { running .scroll (.gap 0) with inputs := [bare] } :=
  ⟨inv_of_checks rfl (by decide), by decide, by decide⟩

/-- A HOLD entered with the prescaler at its last value, DWELL 1, at positions 2 and 3; and DWELL 0. -/
theorem witness_HoldLastsDwellStrobes :
    BlockInv { running .static (.hold 2) with cfg := slowCfg, pre := 2 } ∧
    BlockInv { running .static (.hold 3) with cfg := slowCfg, pre := 2 } ∧
    BlockInv { running .static (.hold 3) with cfg := slowCfg, dwell := 0 } ∧
    (running .static (.hold 3)).cnt = 0 ∧ 1 ≤ (running .static (.hold 3)).dwell.toNat ∧
    QuietInputs (running .static (.hold 3)) :=
  ⟨inv_of_checks rfl (by decide), inv_of_checks rfl (by decide), inv_of_checks rfl (by decide), by decide, by decide,
   by decide⟩

theorem witness_SteadyPassLastsFourDwells :
    BlockInv { running .blink (.gap 0) with cfg := slowCfg } ∧ 2 ≤ slowCfg.tbCycles ∧
    1 ≤ (running .blink (.gap 0)).dwell.toNat ∧ (running .blink (.gap 0)).pre = 0 ∧
    QuietInputs (running .blink (.gap 0)) :=
  ⟨inv_of_checks rfl (by decide), by decide, by decide, by decide, by decide⟩

theorem witness_TicksFallAtEveryMthPassEnd :
    BlockInv (running .blink (.gap 0)) ∧ (running .blink (.gap 0)).cfg.tbCycles = 1 ∧
    (running .blink (.gap 0)).el = 0 ∧ QuietInputs (running .blink (.gap 0)) ∧
    interval (running .blink (.gap 0)) = some 200 ∧
    interval { running .scroll (.gap 0) with scrollIvl := 0 } = some 0 :=
  ⟨inv_of_checks rfl (by decide), by decide, by decide, by decide, by decide, by decide⟩

theorem witness_ScrollRunShowsTheStream :
    BlockInv (holding test (running .scroll (.gap 0))) ∧ (holding test (running .scroll (.gap 0))).cfg.tbCycles = 1 ∧
    QuietInputs (holding test (running .scroll (.gap 0))) ∧ (holding test (running .scroll (.gap 0))).el = 0 ∧
    (holding test (running .scroll (.gap 0))).pos = 0 ∧
    (holding test (running .scroll (.gap 0))).frame = #v[0x20, 0x20, 0x20, 0x20] :=
  ⟨inv_of_checks rfl (by decide), by decide, by decide, by decide, by decide, by decide⟩

/-- P2 in its cycle 7. -/
theorem witness_BoundedBlinkEndsDark :
    BlockInv { showing good (running .blink (.gap 0)) with tgt := good, nrep := 2, blinkIvl := 16 } ∧
    QuietInputs (running .blink (.gap 0)) ∧ (running .blink (.gap 0)).hc = 0 ∧
    (running .blink (.gap 0)).phase = .showing ∧ 0 ≤ (2 : BitVec 16).toInt :=
  ⟨inv_of_checks rfl (by decide), by decide, by decide, by decide, by decide⟩

/-- Steps that change WORD and WLEN, TGT and NREP, and each duration register. -/
theorem witness_StorageHasOnlyItsWriters :
    seen (fun t => decide (t.word ≠ State.reset.word ∧ t.wlen ≠ 0)) (on State.reset 0x300041) = some true ∧
    seen (fun t => decide (t.tgt ≠ blank4 ∧ t.nrep ≠ 0)) (on (holding test State.reset) 0x600002) = some true ∧
    seen (fun t => decide (t.dwell ≠ 1)) (on State.reset 0x400002) = some true ∧
    seen (fun t => decide (t.blinkIvl ≠ 200)) (on State.reset 0x410002) = some true ∧
    seen (fun t => decide (t.scrollIvl ≠ 60)) (on State.reset 0x420002) = some true ∧
    seen (fun t => decide (t.clockIvl ≠ 1000)) (on State.reset 0x430002) = some true := by decide

/-- Steps that change MODE and DONE, FRAME, POS, and PHASE and HC, each by a tick. -/
theorem witness_StrategyStateHasOnlyItsWriters :
    BlockInv (blinking 0 0 .showing) ∧ (pins (blinking 0 0 .showing)).rst = false ∧
    seen (fun t => decide (t.mode ≠ .blink ∧ t.done ≠ false)) (blinking 0 0 .showing) = some true ∧
    BlockInv (holding test (passEnding .scroll)) ∧
    seen (fun t => decide (t.frame ≠ blank4 ∧ t.pos ≠ 0)) (holding test (passEnding .scroll)) = some true ∧
    BlockInv (blinking 1 0 .showing) ∧
    seen (fun t => decide (t.phase ≠ .showing ∧ t.hc ≠ 0)) (blinking 1 0 .showing) = some true :=
  ⟨inv_of_checks rfl (by decide), by decide, by decide, inv_of_checks rfl (by decide), by decide,
   inv_of_checks rfl (by decide), by decide⟩

/-- Two non-mode commands; SCLOCK is one without `HAS_CLOCK`. -/
theorem witness_NonModeCommandsLeaveTheNextOutputsAlone :
    isModeCommand false (decode 0x300041) = false ∧ isModeCommand false (decode 0x800000) = false := by decide

/-- Another word that agrees below WLEN = 1. -/
theorem witness_EntriesAboveWlenAreNeverRead :
    BlockInv (holding [0x41] State.reset) ∧
    ((0x41 :: List.replicate 63 0x42 : List CharCode)).length = (holding [0x41] State.reset).word.length ∧
    (∀ i, i < (holding [0x41] State.reset).wlen.toNat →
      (0x41 :: List.replicate 63 0x42 : List CharCode)[i]? = (holding [0x41] State.reset).word[i]?) :=
  ⟨inv_of_checks rfl (by decide), by decide, by decide⟩

/-- SCLOCK without `HAS_CLOCK`, and CLOCK one strobe before its interval has elapsed. -/
theorem witness_TimeInputsAreReadOnlyByTheClock :
    (BlockInv (on State.reset 0x800000) ∧ (on State.reset 0x800000).cfg.hasClock = false ∧
      (on State.reset 0x800000).mode ≠ .clock) ∧
    (BlockInv { passEnding .clock with cfg := clockCfg, el := 6 } ∧
      currentCommand { passEnding .clock with cfg := clockCfg, el := 6 } ≠ .sclock ∧
      tickDue { passEnding .clock with cfg := clockCfg, el := 6 } = false) :=
  ⟨⟨inv_of_checks rfl (by decide), by decide, by decide⟩, ⟨inv_of_checks rfl (by decide), by decide, by decide⟩⟩

end Sys2Proof.Tests
end

/-! What each field of the `status` output reads (10_state.md R36). Every lemma locates its field in the
concatenation `statusWord`; the two codes keep their names `modeCode` and `phaseBit`. -/

namespace Sys2Proof.Machine

theorem phaseBit_getLsbD_zero_iff (p : Phase) : (phaseBit p).getLsbD 0 = true ↔ p = .blanked := by
  cases p <;> decide

/-- The concatenation at the sum of its fields' widths, the form in which `BitVec`'s lemmas about `++` apply;
`statusWord` has it at the width 16. The proofs below keep the sum as it is (`-Nat.reduceAdd`). -/
theorem statusOut_getLsbD (s : State) (i : Nat) :
    (statusOut s).getLsbD i = (0#1 ++ s.wlen ++ s.ecode ++ BitVec.ofBool s.err ++ BitVec.ofBool s.done ++
      phaseBit s.phase ++ modeCode s.mode).getLsbD i := rfl

/-- As `statusOut_getLsbD`, for a field of several bits. -/
theorem statusOut_extractLsb' (s : State) (start len : Nat) :
    (statusOut s).extractLsb' start len = (0#1 ++ s.wlen ++ s.ecode ++ BitVec.ofBool s.err ++
      BitVec.ofBool s.done ++ phaseBit s.phase ++ modeCode s.mode).extractLsb' start len := rfl

theorem statusOut_mode (s : State) : (statusOut s).extractLsb' 0 3 = modeCode s.mode :=
  BitVec.extractLsb'_append_eq_right

theorem statusOut_phase (s : State) : (statusOut s).getLsbD 3 = (phaseBit s.phase).getLsbD 0 := by
  simp [statusOut_getLsbD, BitVec.getLsbD_append, -Nat.reduceAdd, -BitVec.getLsbD_eq_getElem]

theorem statusOut_done (s : State) : (statusOut s).getLsbD 4 = s.done := by
  simp [statusOut_getLsbD, BitVec.getLsbD_append, -Nat.reduceAdd, -BitVec.getLsbD_eq_getElem]

theorem statusOut_err (s : State) : (statusOut s).getLsbD 5 = s.err := by
  simp [statusOut_getLsbD, BitVec.getLsbD_append, -Nat.reduceAdd, -BitVec.getLsbD_eq_getElem]

theorem statusOut_reserved (s : State) : (statusOut s).getLsbD 15 = false := by
  simp [statusOut_getLsbD, BitVec.getLsbD_append, -Nat.reduceAdd, -BitVec.getLsbD_eq_getElem]

theorem statusOut_ecode (s : State) : (statusOut s).extractLsb' 6 2 = s.ecode := by
  simp [statusOut_extractLsb', BitVec.extractLsb'_append_eq_of_le, BitVec.extractLsb'_append_eq_right,
    -Nat.reduceAdd]

theorem statusOut_wlen (s : State) : (statusOut s).extractLsb' 8 7 = s.wlen := by
  simp [statusOut_extractLsb', BitVec.extractLsb'_append_eq_of_le, BitVec.extractLsb'_append_eq_right,
    -Nat.reduceAdd]

/-- Settles O19: each field is read off by its own lemma. The statement spells out the codes of MODE and
PHASE, which the mode's six cases and `phaseBit_getLsbD_zero_iff` give. -/
theorem statusWordFields : Obligations.StatusWordFields := by
  intro s
  have hphase : (statusOut s).getLsbD 3 = true ↔ s.phase = .blanked := by
    rw [statusOut_phase, phaseBit_getLsbD_zero_iff]
  refine ⟨?mode, hphase, statusOut_done s, statusOut_err s, statusOut_ecode s, statusOut_wlen s,
    statusOut_reserved s⟩
  case mode =>
    rw [statusOut_mode]
    cases s.mode <;> rfl

end Sys2Proof.Machine

/-! The word as its three fields (30_encoding.md R59), and the command that each field pattern stands for. -/

namespace Sys2Proof

theorem packFields_fields (w : CmdWord) : packFields (opField w) (selField w) (immField w) = w := by
  apply BitVec.eq_of_toNat_eq
  rw [packFields_toNat, opField_toNat, selField_toNat, immField_toNat]
  omega

theorem packFields_eq_append (op sel : BitVec 4) (imm : BitVec 16) : packFields op sel imm = op ++ sel ++ imm := by
  apply BitVec.eq_of_toNat_eq
  rw [packFields_toNat, BitVec.toNat_append, BitVec.toNat_append, ← Nat.shiftLeft_add_eq_or_of_lt sel.isLt,
    ← Nat.shiftLeft_add_eq_or_of_lt imm.isLt]
  omega

@[simp] theorem and_mask4 (v : BitVec 4) : v &&& 15#4 = v := BitVec.and_allOnes

@[simp] theorem and_mask16 (v : BitVec 16) : v &&& 65535#16 = v := BitVec.and_allOnes

/-- A mask acts on each field by itself. -/
theorem and_packFields (w : CmdWord) (op sel : BitVec 4) (imm : BitVec 16) :
    w &&& packFields op sel imm = packFields (opField w &&& op) (selField w &&& sel) (immField w &&& imm) := by
  conv_lhs => rw [← packFields_fields w]
  simp only [packFields_eq_append]
  exact BitVec.and_append.trans (congrArg (· ++ _) BitVec.and_append)

theorem immField_and_charMask (w : CmdWord) : immField w &&& 255#16 = (charField w).setWidth 16 := by
  apply BitVec.eq_of_toNat_eq
  rw [BitVec.toNat_and, BitVec.toNat_setWidth, immField_toNat, charField_toNat]
  exact (Nat.and_two_pow_sub_one_eq_mod _ 8).trans (by omega)

/-- `DecodeView w i`: the fields of the word `w` are those of a word of the command `i` (30_encoding.md R61,
R63). A case split on `decodeView w` says, for each row, what the fields are. -/
inductive DecodeView (w : CmdWord) : Instr → Prop
  | nop : opField w = 0x0 → DecodeView w .nop
  | clear : opField w = 0x1 → DecodeView w .clear
  | wrst : opField w = 0x2 → DecodeView w .wrst
  | wpush : opField w = 0x3 → DecodeView w (.wpush (charField w))
  | setregDwell : opField w = 0x4 → selField w = 0 → DecodeView w (.setregDwell (immField w))
  | setregBlinkIvl : opField w = 0x4 → selField w = 1 → DecodeView w (.setregBlinkIvl (immField w))
  | setregScrollIvl : opField w = 0x4 → selField w = 2 → DecodeView w (.setregScrollIvl (immField w))
  | setregClockIvl : opField w = 0x4 → selField w = 3 → DecodeView w (.setregClockIvl (immField w))
  | reservedSel : opField w = 0x4 → 4 ≤ (selField w).toNat → DecodeView w (.reservedSel (selField w))
  | sstatic : opField w = 0x5 → DecodeView w .sstatic
  | sblink : opField w = 0x6 → DecodeView w (.sblink (immField w))
  | sscroll : opField w = 0x7 → DecodeView w .sscroll
  | sclock : opField w = 0x8 → DecodeView w .sclock
  | reservedOp9 : opField w = 0x9 → DecodeView w .reservedOp9
  | reservedOpAB (low : BitVec 1) : opField w = 0xA + low.setWidth 4 → DecodeView w (.reservedOpAB low)
  | reservedOpCF (low : BitVec 2) : opField w = 0xC + low.setWidth 4 → DecodeView w (.reservedOpCF low)

theorem decodeView_ite {w : CmdWord} {p : Prop} [Decidable p] {i j : Instr} (hi : p → DecodeView w i)
    (hj : ¬p → DecodeView w j) : DecodeView w (if p then i else j) := by
  by_cases h : p
  · rw [if_pos h]; exact hi h
  · rw [if_neg h]; exact hj h

theorem decodeSetreg_view {w : CmdWord} (hop : opField w = 0x4) :
    DecodeView w (decodeSetreg (selField w) (immField w)) :=
  decodeView_ite (.setregDwell hop) fun h0 =>
  decodeView_ite (.setregBlinkIvl hop) fun h1 =>
  decodeView_ite (.setregScrollIvl hop) fun h2 =>
  decodeView_ite (.setregClockIvl hop) fun h3 =>
  .reservedSel hop (by bv_omega)

/-- The low bits of the opcode, read from the word. -/
theorem extractLsb'_20_eq_opField (w : CmdWord) (len : Nat) (h : len ≤ 4) :
    w.extractLsb' 20 len = (opField w).setWidth len := by
  apply BitVec.eq_of_toNat_eq
  simp [opField, Nat.mod_mod_of_dvd _ (Nat.pow_dvd_pow 2 h)]

theorem opcodeAB_eq_add_low (op : BitVec 4) (h : op = 0xA ∨ op = 0xB) : op = 0xA + (op.setWidth 1).setWidth 4 := by
  rcases h with rfl | rfl <;> decide

theorem opcodeCF_eq_add_low (op : BitVec 4) (h : 0xC ≤ op.toNat) : op = 0xC + (op.setWidth 2).setWidth 4 := by
  revert op
  decide

theorem decodeView (w : CmdWord) : DecodeView w (decode w) :=
  decodeView_ite .nop fun h0 =>
  decodeView_ite .clear fun h1 =>
  decodeView_ite .wrst fun h2 =>
  decodeView_ite .wpush fun h3 =>
  decodeView_ite decodeSetreg_view fun h4 =>
  decodeView_ite .sstatic fun h5 =>
  decodeView_ite .sblink fun h6 =>
  decodeView_ite .sscroll fun h7 =>
  decodeView_ite .sclock fun h8 =>
  decodeView_ite .reservedOp9 fun h9 =>
  decodeView_ite
    (fun hAB => by
      rw [extractLsb'_20_eq_opField w 1 (by decide)]
      exact .reservedOpAB _ (opcodeAB_eq_add_low _ hAB))
    fun hAB => by
      rw [extractLsb'_20_eq_opField w 2 (by decide)]
      exact .reservedOpCF _ (opcodeCF_eq_add_low _ (by bv_omega))

theorem decode_wellFormed (w : CmdWord) : (decode w).WellFormed := by
  have hv := decodeView w
  generalize decode w = i at hv
  cases hv with
  | reservedSel _ hsel => exact decide_eq_true hsel
  | _ => rfl

theorem decodeSetreg_reserved {sel : BitVec 4} (h : 4 ≤ sel.toNat) (imm : BitVec 16) :
    decodeSetreg sel imm = .reservedSel sel := by
  rw [decodeSetreg, if_neg, if_neg, if_neg, if_neg] <;> rintro rfl <;> exact absurd h (by decide)

/-- Decoding undoes encoding (30_encoding.md R61). -/
theorem decode_encode {i : Instr} (h : i.WellFormed) : decode (encode i) = i := by
  cases i with
  | wpush c => simp [decode, encode, BitVec.setWidth_setWidth_of_le]
  | reservedSel sel => simp [decode, encode, decodeSetreg_reserved (of_decide_eq_true h)]
  | reservedOpAB low => revert low; decide
  | reservedOpCF low => revert low; decide
  | _ => simp [decode, encode, decodeSetreg]

theorem usedBits_eq (w : CmdWord) :
    Machine.usedBits w =
      if opField w = 0x3 then packFields 0xF 0 0xFF
      else if opField w = 0x4 then
        (if (selField w).toNat ≤ 3 then packFields 0xF 0xF 0xFFFF else packFields 0xF 0xF 0)
      else if opField w = 0x6 then packFields 0xF 0 0xFFFF
      else packFields 0xF 0 0 := by
  simp only [Machine.usedBits, ← opField_toNat, ← selField_toNat, BitVec.toNat_eq]
  rfl

theorem nine_le_opcodeAB (low : BitVec 1) : 9 ≤ (0xA + low.setWidth 4 : BitVec 4).toNat := by
  revert low; decide

theorem nine_le_opcodeCF (low : BitVec 2) : 9 ≤ (0xC + low.setWidth 4 : BitVec 4).toNat := by
  revert low; decide

theorem usedBits_reservedOpcode {w : CmdWord} (h : 9 ≤ (opField w).toNat) :
    Machine.usedBits w = packFields 0xF 0 0 := by
  rw [usedBits_eq, if_neg, if_neg, if_neg] <;> intro hop <;> rw [hop] at h <;> exact absurd h (by decide)

/-- Encoding a word's command keeps the bits the command uses and clears the others (30_encoding.md R62). -/
theorem encode_decode (w : CmdWord) : encode (decode w) = w &&& Machine.usedBits w := by
  have hv := decodeView w
  generalize decode w = i at hv
  cases hv with
  | reservedOpAB low hop =>
    rw [usedBits_reservedOpcode (hop ▸ nine_le_opcodeAB low)]
    simp [encode, and_packFields, hop]
  | reservedOpCF low hop =>
    rw [usedBits_reservedOpcode (hop ▸ nine_le_opcodeCF low)]
    simp [encode, and_packFields, hop]
  | reservedSel hop hsel => simp [usedBits_eq, encode, and_packFields, hop, Nat.not_le.mpr hsel]
  | setregDwell hop hsel | setregBlinkIvl hop hsel | setregScrollIvl hop hsel | setregClockIvl hop hsel =>
    simp [usedBits_eq, encode, and_packFields, hop, hsel]
  | wpush hop => simp [usedBits_eq, encode, and_packFields, hop, immField_and_charMask]
  | _ hop => simp [usedBits_eq, encode, and_packFields, hop]

/-- Clearing the ignored bits leaves the command (30_encoding.md R62). -/
theorem decode_and_usedBits (w : CmdWord) : decode (w &&& Machine.usedBits w) = decode w := by
  rw [← encode_decode, decode_encode (decode_wellFormed w)]

end Sys2Proof

namespace Sys2Proof.Machine

/-! A cycle with other pins. Beside the reset and the command, a cycle without reset reads the time of day
alone, so the cycle with the pins `i` that give the same time is written in terms of the state itself. -/

/-- R117 as one record update, whether or not an error was recorded before. -/
theorem raiseCmdError_eq (code : BitVec 2) (s : State) :
    raiseCmdError code s = { s with err := true, ecode := if s.err then s.ecode else code } := by
  obtain ⟨⟩ := s
  simp only [raiseCmdError]
  split
  · next h => subst h; rfl
  · next h => rw [Bool.not_eq_false] at h; subst h; rfl

theorem raiseCmdError_withPins (code : BitVec 2) (s : State) (i : Inputs) :
    raiseCmdError code (withPins s i) = withPins (raiseCmdError code s) i := by
  rw [raiseCmdError_eq, raiseCmdError_eq]; rfl

section
variable {s : State} {i : Inputs}
  (hhour : i.todHour = (pins s).todHour) (hmin : i.todMin = (pins s).todMin)
include hhour hmin

theorem exec_withPins {c : Instr} {t u : State} (ht : pins t = pins s) (hu : exec c t = .next u) :
    exec c (withPins t i) = .next (withPins u i) := by
  cases c with
  | wpush c =>
    by_cases hroom : t.wlen.toNat < t.cfg.wordMax
    · rw [exec, execWpush, if_pos hroom] at hu
      cases hu
      exact if_pos hroom
    · rw [exec, execWpush, if_neg hroom] at hu
      cases hu
      exact (if_neg hroom).trans (congrArg Host.Outcome.next (raiseCmdError_withPins _ t i))
  | sclock =>
    by_cases hon : t.cfg.hasClock = true
    · rw [exec, execSclock, if_pos hon, ht, ← hhour, ← hmin] at hu
      cases hu
      exact if_pos hon
    · rw [exec, execSclock, if_neg hon] at hu
      cases hu
      exact (if_neg hon).trans (congrArg Host.Outcome.next (raiseCmdError_withPins _ t i))
  | reservedOp9 | reservedOpAB low | reservedOpCF low | reservedSel sel =>
    cases hu
    exact congrArg Host.Outcome.next (raiseCmdError_withPins _ t i)
  | _ => cases hu; rfl

theorem sequencerStep_withPins (t : State) :
    sequencerStep (withPins s i) (withPins t i) = withPins (sequencerStep s t) i := by
  calc sequencerStep (withPins s i) (withPins t i)
      = sequencerStep s (withPins t i) := sequencerStep_readsTime s _ _ hhour hmin
    _ = withHostSide (withPins t i) (sequencerStep s t) := sequencerStep_withHostSide s (withPins t i) t
    _ = withPins (withHostSide t (sequencerStep s t)) i := rfl
    _ = withPins (sequencerStep s t) i := by rw [← sequencerStep_withHostSide s t t]; rfl

theorem step_withPins {c : Instr} {u : State} (hr : i.rst = false) (hc : currentCommand (withPins s i) = c)
    (hu : exec c (timebase s) = .next u) :
    step (withPins s i) = .next (advanceInputs (sequencer c s u)) := by
  subst hc
  rw [step_of_exec (s := withPins s i) hr (exec_withPins hhour hmin (pins_timebase s) hu)]
  unfold sequencer
  rw [sequencerStep_withPins hhour hmin, withPins_cfg]
  split <;> rfl

end

theorem currentCommand_presenting (s : State) (w : CmdWord) : currentCommand (presenting s w) = decode w := rfl

theorem currentCommand_withoutCommand (s : State) : currentCommand (withoutCommand s) = .nop :=
  currentCommand_quiet rfl

/-- The cycle that presents `w`, from the command's meaning on the state itself. -/
theorem step_presenting {s u : State} {w : CmdWord} (hu : exec (decode w) (timebase s) = .next u) :
    step (presenting s w) = .next (advanceInputs (sequencer (decode w) s u)) :=
  step_withPins (i := { pins s with rst := false, cmdValid := true, cmdWord := w }) rfl rfl rfl
    (currentCommand_presenting s w) hu

theorem step_withoutCommand (s : State) :
    step (withoutCommand s) = .next (advanceInputs (sequencerStep s (timebase s))) :=
  step_withPins (i := { pins s with rst := false, cmdValid := false }) (u := timebase s) rfl rfl rfl
    (currentCommand_withoutCommand s) rfl

/-- Settles O3: the word without its ignored bits decodes to the same command, and a cycle depends on the word
through its command alone. -/
theorem ignoredBitsNeverMatter : Obligations.IgnoredBitsNeverMatter := by
  intro w
  refine ⟨encode_decode w, fun s => ?_⟩
  have hd := decode_and_usedBits w
  obtain ⟨u, hu⟩ := exec_answers_next (decode w) (timebase s)
  rw [step_presenting hu, step_presenting (hd.symm ▸ hu), hd]

end Sys2Proof.Machine

/-! Which commands are rejected (60_exceptions.md R118), and what a rejected and an accepted command do to the
error record (R117). -/

namespace Sys2Proof.Machine

/-- The cause for which the command is rejected in state `s`, 0 if it is not: `rejectCause` by command. -/
def causeOf (s : State) : Instr → BitVec 2
  | .nop => 0
  | .clear => 0
  | .wrst => 0
  | .wpush _ => if s.cfg.wordMax ≤ s.wlen.toNat then causeWordFull else 0
  | .setregDwell _ => 0
  | .setregBlinkIvl _ => 0
  | .setregScrollIvl _ => 0
  | .setregClockIvl _ => 0
  | .sstatic => 0
  | .sblink _ => 0
  | .sscroll => 0
  | .sclock => if s.cfg.hasClock then 0 else causeReservedOpcode
  | .reservedOp9 => causeReservedOpcode
  | .reservedOpAB _ => causeReservedOpcode
  | .reservedOpCF _ => causeReservedOpcode
  | .reservedSel _ => causeReservedSelector

theorem rejectCause_eq (s : State) (w : CmdWord) :
    rejectCause s w =
      if 9 ≤ (opField w).toNat ∨ ((opField w).toNat = 8 ∧ s.cfg.hasClock = false) then causeReservedOpcode
      else if (opField w).toNat = 4 ∧ 4 ≤ (selField w).toNat then causeReservedSelector
      else if (opField w).toNat = 3 ∧ s.cfg.wordMax ≤ s.wlen.toNat then causeWordFull
      else 0 := by
  simp only [rejectCause, ← opField_toNat, ← selField_toNat]
  rfl

theorem rejectCause_eq_causeOf (s : State) (w : CmdWord) : rejectCause s w = causeOf s (decode w) := by
  have hv := decodeView w
  rw [rejectCause_eq]
  generalize decode w = i at hv
  cases hv with
  | reservedOpAB low hop => exact if_pos (.inl (hop ▸ nine_le_opcodeAB low))
  | reservedOpCF low hop => exact if_pos (.inl (hop ▸ nine_le_opcodeCF low))
  | reservedSel hop hsel => simp [causeOf, hop, hsel]
  | setregDwell hop hsel | setregBlinkIvl hop hsel | setregScrollIvl hop hsel | setregClockIvl hop hsel =>
    simp [causeOf, hop, hsel]
  | sclock hop => cases h : s.cfg.hasClock <;> simp [causeOf, hop, h]
  | _ hop => simp [causeOf, hop]

theorem causeOf_wpush_eq_zero_iff (s : State) (c : CharCode) :
    causeOf s (.wpush c) = 0 ↔ s.wlen.toNat < s.cfg.wordMax := by
  simp [causeOf, causeWordFull]

theorem causeOf_sclock_eq_zero_iff (s : State) : causeOf s .sclock = 0 ↔ s.cfg.hasClock = true := by
  simp [causeOf, causeReservedOpcode]

/-- A rejected command is no mode command and makes no write but the error record (60_exceptions.md R117). -/
theorem exec_of_rejected {s : State} {i : Instr} (h : causeOf s i ≠ 0) :
    isModeCommand s.cfg.hasClock i = false ∧ exec i s = .next (raiseCmdError (causeOf s i) s) := by
  cases i with
  | wpush c =>
    have hfull : ¬s.wlen.toNat < s.cfg.wordMax := fun hroom => h ((causeOf_wpush_eq_zero_iff s c).mpr hroom)
    simp [isModeCommand, exec, execWpush, causeOf, hfull, Nat.not_lt.mp hfull]
  | sclock =>
    have hoff : ¬s.cfg.hasClock = true := fun hon => h ((causeOf_sclock_eq_zero_iff s).mpr hon)
    simp [isModeCommand, exec, execSclock, causeOf, hoff]
  | reservedOp9 | reservedOpAB low | reservedOpCF low | reservedSel sel => exact ⟨rfl, rfl⟩
  | _ => exact absurd rfl h

/-- An accepted command leaves the error record alone (60_exceptions.md R117). -/
theorem exec_err_of_accepted {s u : State} {i : Instr} (h : causeOf s i = 0) (hu : exec i s = .next u) :
    u.err = s.err ∧ u.ecode = s.ecode := by
  cases i with
  | wpush c =>
    rw [exec, execWpush, if_pos ((causeOf_wpush_eq_zero_iff s c).mp h)] at hu
    cases hu
    exact ⟨rfl, rfl⟩
  | sclock =>
    rw [exec, execSclock, if_pos ((causeOf_sclock_eq_zero_iff s).mp h)] at hu
    cases hu
    exact ⟨rfl, rfl⟩
  | reservedOp9 | reservedOpAB low | reservedOpCF low | reservedSel sel =>
    simp [causeOf, causeReservedOpcode, causeReservedSelector] at h
  | _ => cases hu; exact ⟨rfl, rfl⟩

/-- The sequencer step neither reads nor writes the error record. -/
theorem sequencerStep_raiseCmdError (r t : State) (code : BitVec 2) :
    sequencerStep r (raiseCmdError code t) = raiseCmdError code (sequencerStep r t) := by
  have hframe := sequencerStep_frame r t
  rw [raiseCmdError_eq, raiseCmdError_eq, hframe.err, hframe.ecode]
  exact (sequencerStep_withHostSide r { t with err := true, ecode := if t.err then t.ecode else code } t).trans
    (congrArg (fun u : State => { u with err := true, ecode := if t.err then t.ecode else code })
      (sequencerStep_withHostSide r t t).symm)

/-- Settles O29: a rejected command's only write, `raiseCmdError`, commutes with the sequencer step of the cycle
without a command; an accepted one does not touch the error record, and neither does the sequencer. -/
theorem rejectedCommandsRecordTheFirstCause : Obligations.RejectedCommandsRecordTheFirstCause := by
  intro s w
  obtain ⟨t, ht⟩ := exec_answers_next (decode w) (timebase s)
  have hcause : causeOf (timebase s) (decode w) = rejectCause s w := (rejectCause_eq_causeOf s w).symm
  refine ⟨_, _, step_withoutCommand s, step_presenting ht, fun hrej => ?rejected, fun hacc => ?accepted⟩
  case rejected =>
    obtain ⟨hmode, hexec⟩ := exec_of_rejected (hcause.symm ▸ hrej)
    have hseq : sequencer (decode w) s t = raiseCmdError (rejectCause s w) (sequencerStep s (timebase s)) := by
      rw [hcause, ht] at hexec
      cases hexec
      rw [sequencer, if_neg (by simpa using hmode), sequencerStep_raiseCmdError]
    have hframe := sequencerStep_frame s (timebase s)
    rw [hseq, raiseCmdError_eq, hframe.err, hframe.ecode]
    rfl
  case accepted =>
    obtain ⟨herr, hecode⟩ := exec_err_of_accepted (hcause.trans hacc) ht
    have hframe := sequencer_frame (decode w) s t
    exact ⟨hframe.err.trans herr, hframe.ecode.trans hecode⟩

end Sys2Proof.Machine

/-! What a cycle does to the sequencer position, the snapshot and the outputs (41_refresh.md R85 to R94). -/

namespace Sys2Proof.Machine

/-! ## The outputs by sequencer position (R85) -/

@[simp] theorem oneHot_toNat (p : DigitPos) : (oneHot p).toNat = 2 ^ p.val := by
  revert p; decide

@[simp] theorem oneHot_getLsbD (p q : DigitPos) : (oneHot p).getLsbD q.val = decide (p = q) := by
  revert p q; decide

theorem oneHot_ne_zero (p : DigitPos) : oneHot p ≠ 0 := by
  revert p; decide

theorem oneHot_digLegal (p : DigitPos) : DigLegal (oneHot p) := by
  revert p; decide

theorem digOut_off {s : State} (h : s.seq = .off) : digOut s = 0 := by simp [digOut, h]

theorem digOut_gap {s : State} {p : DigitPos} (h : s.seq = .gap p) : digOut s = 0 := by simp [digOut, h]

theorem digOut_hold {s : State} {p : DigitPos} (h : s.seq = .hold p) : digOut s = oneHot p := by simp [digOut, h]

theorem segOut_off {s : State} (h : s.seq = .off) : segOut s = 0x00 := by simp [segOut, h]

/-- A digit is selected in a HOLD only. -/
theorem digOut_ne_zero_iff (s : State) : digOut s ≠ 0 ↔ ∃ p, s.seq = .hold p := by
  cases h : s.seq with
  | off => simp [digOut_off h]
  | gap p => simp [digOut_gap h]
  | hold p => exact iff_of_true (digOut_hold h ▸ oneHot_ne_zero p) ⟨p, rfl⟩

theorem digOut_getLsbD_iff (s : State) (p : DigitPos) : (digOut s).getLsbD p.val = true ↔ s.seq = .hold p := by
  cases h : s.seq with
  | off => simp [digOut_off h]
  | gap q => simp [digOut_gap h]
  | hold q => rw [digOut_hold h, oneHot_getLsbD, decide_eq_true_iff, SeqPos.hold.injEq]

theorem digOut_digLegal (s : State) : DigLegal (digOut s) := by
  cases h : s.seq with
  | off => exact .inl (digOut_off h)
  | gap p => exact .inl (digOut_gap h)
  | hold p => rw [digOut_hold h]; exact oneHot_digLegal p

/-! ## A cycle in which the sequencer steps (R86 to R89) -/

/-- `SeqMove s t`: what a cycle in which the sequencer steps, from `s` to `t`, can do to SEQ, CNT, SNAP and the
strategy. At a pass end the new snapshot and the tick's writes are left to `passEnd_cases`. -/
inductive SeqMove (s t : State) : Prop
  /-- OFF does nothing (R86). -/
  | stayOff : s.seq = .off → t.seq = .off → t.cnt = s.cnt → t.snap = s.snap → StrategyKept s t → SeqMove s t
  /-- GAP(p) lasts one cycle (R87). -/
  | enterHold (p : DigitPos) : s.seq = .gap p → t.seq = .hold p → t.cnt = 0 → t.snap = s.snap → StrategyKept s t →
      SeqMove s t
  /-- HOLD(p) counts its strobes (R88). -/
  | stayHold (p : DigitPos) : s.seq = .hold p → holdCount s < s.dwell.toNat → t.seq = .hold p →
      t.cnt = BitVec.ofNat 16 (holdCount s) → t.snap = s.snap → StrategyKept s t → SeqMove s t
  /-- HOLD(p) has reached DWELL before the last position (R88). -/
  | leaveHold (p : DigitPos) : s.seq = .hold p → s.dwell.toNat ≤ holdCount s → p ≠ 3 → t.seq = .gap (p + 1) →
      t.cnt = s.cnt → t.snap = s.snap → StrategyKept s t → SeqMove s t
  /-- The pass ends and the next one begins (R89). -/
  | nextPass : s.seq = .hold 3 → s.dwell.toNat ≤ holdCount s → t.seq = .gap 0 → t.cnt = s.cnt → t.mode = s.mode →
      SeqMove s t
  /-- The pass ends with the last tick of a blink (R89). -/
  | blinkTerminates : s.seq = .hold 3 → s.dwell.toNat ≤ holdCount s → t.seq = .off → t.cnt = s.cnt →
      t.snap = s.snap → s.mode = .blink → t.mode = .done → SeqMove s t

/-- A command that writes the storage alone leaves the strategy alone, and so does the timebase before it. -/
theorem StorageOnly.strategyKept {s u : State} (h : StorageOnly (timebase s) u) : StrategyKept s u :=
  ⟨h.mode, h.frame, h.tgt, h.pos, h.phase, h.hc, h.nrep, h.done⟩

theorem SeqMove.from_off {s t : State} (h : SeqMove s t) (hoff : s.seq = .off) :
    t.seq = .off ∧ t.cnt = s.cnt ∧ t.snap = s.snap ∧ StrategyKept s t := by
  cases h with
  | stayOff _ hseq hcnt hsnap hkept => exact ⟨hseq, hcnt, hsnap, hkept⟩
  | enterHold _ hs | stayHold _ hs | leaveHold _ hs | nextPass hs | blinkTerminates hs => cases hs.symm.trans hoff

theorem SeqMove.from_gap {s t : State} {p : DigitPos} (h : SeqMove s t) (hgap : s.seq = .gap p) :
    t.seq = .hold p ∧ t.cnt = 0 ∧ t.snap = s.snap ∧ StrategyKept s t := by
  cases h with
  | enterHold q hs hseq hcnt hsnap hkept => cases hs.symm.trans hgap; exact ⟨hseq, hcnt, hsnap, hkept⟩
  | stayOff hs | stayHold _ hs | leaveHold _ hs | nextPass hs | blinkTerminates hs => cases hs.symm.trans hgap

/-- A HOLD is entered from the GAP of its own position, and neither there nor in the HOLD does the snapshot
change. -/
theorem SeqMove.into_hold {s t : State} {p : DigitPos} (h : SeqMove s t) (hp : t.seq = .hold p) :
    (s.seq = .gap p ∨ s.seq = .hold p) ∧ t.snap = s.snap := by
  cases h with
  | enterHold q hs ht _ hsnap => cases ht.symm.trans hp; exact ⟨.inl hs, hsnap⟩
  | stayHold q hs _ ht _ hsnap => cases ht.symm.trans hp; exact ⟨.inr hs, hsnap⟩
  | stayOff _ ht | leaveHold _ _ _ _ ht | nextPass _ _ ht | blinkTerminates _ _ ht => cases ht.symm.trans hp

/-- The end of a pass, after a command that writes the storage alone. -/
theorem seqMove_passEnd {s u : State} (hseq : s.seq = .hold 3) (hd : s.dwell.toNat ≤ holdCount s)
    (hu : StorageOnly (timebase s) u) : SeqMove s (advanceInputs (passEnd s u)) := by
  have htick := tick_frame s (clearElapsed u)
  obtain ⟨-, heq⟩ | ⟨-, -, heq⟩ | ⟨-, hblink, -, heq⟩ := passEnd_cases s u <;> rw [heq]
  · exact .nextPass hseq hd rfl hu.cnt hu.mode
  · exact .nextPass hseq hd rfl (htick.cnt.trans hu.cnt) (htick.mode.trans hu.mode)
  · exact .blinkTerminates hseq hd rfl (htick.cnt.trans hu.cnt) (htick.snap.trans hu.snap) hblink rfl

theorem seqMove_sequencerStep {s u : State} (hu : StorageOnly (timebase s) u) :
    SeqMove s (advanceInputs (sequencerStep s u)) := by
  have hkept := hu.strategyKept
  obtain ⟨hseq, heq⟩ | ⟨p, hseq, heq⟩ | ⟨p, hseq, hd, heq⟩ | ⟨p, hseq, hd, hp, heq⟩ | ⟨hseq, hd, heq⟩ :=
    sequencerStep_cases s u <;> rw [heq]
  · exact .stayOff hseq (hu.seq.trans hseq) hu.cnt hu.snap { hkept with }
  · exact .enterHold p hseq rfl rfl hu.snap { hkept with }
  · exact .stayHold p hseq hd (hu.seq.trans hseq) rfl hu.snap { hkept with }
  · exact .leaveHold p hseq hd hp rfl hu.cnt hu.snap { hkept with }
  · exact seqMove_passEnd hseq hd hu

theorem step_seqMove {s : State} (h : SequencerSteps s) :
    ∃ t, step s = .next t ∧ t.cfg = s.cfg ∧ SeqMove s t := by
  obtain ⟨u, -, hu, hstep⟩ := step_of_sequencerSteps h
  exact ⟨_, hstep, (sequencerStep_frame s u).cfg.trans hu.cfg, seqMove_sequencerStep hu⟩

/-! ## A cycle with a mode command or a reset (R90) -/

/-- The START commands, SCLOCK among them only where it is no reserved word (43_animation.md R103). -/
abbrev StartCommand (hasClock : Bool) (i : Instr) : Prop :=
  i = .sstatic ∨ (∃ n, i = .sblink n) ∨ i = .sscroll ∨ (i = .sclock ∧ hasClock = true)

/-- A mode command is CLEAR, or a START command, which begins a pass. -/
theorem exec_clear_or_start {i : Instr} {s u : State} (hm : isModeCommand s.cfg.hasClock i = true)
    (hu : exec i s = .next u) :
    (i = .clear ∧ u = stopStrategy s) ∨ (StartCommand s.cfg.hasClock i ∧ u.seq = .gap 0) := by
  obtain h | ⟨hi, rfl⟩ | ⟨n, hi, rfl⟩ | ⟨hi, rfl⟩ | ⟨hi, hon, rfl⟩ := exec_modeCommand hm hu
  · exact .inl h
  · exact .inr ⟨.inl hi, rfl⟩
  · exact .inr ⟨.inr (.inl ⟨n, hi⟩), rfl⟩
  · exact .inr ⟨.inr (.inr (.inl hi)), rfl⟩
  · exact .inr ⟨.inr (.inr (.inr ⟨hi, hon⟩)), rfl⟩

theorem step_clear_or_start {s : State} (hr : (pins s).rst = false)
    (hm : isModeCommand s.cfg.hasClock (currentCommand s) = true) :
    ∃ t, step s = .next t ∧
      ((currentCommand s = .clear ∧ t = advanceInputs (stopStrategy (timebase s))) ∨
        (StartCommand s.cfg.hasClock (currentCommand s) ∧ t.seq = .gap 0)) := by
  obtain ⟨u, hu⟩ := exec_answers_next (currentCommand s) (timebase s)
  refine ⟨_, step_of_modeCommand hr hm hu, ?_⟩
  obtain ⟨hi, rfl⟩ | hstart := exec_clear_or_start (s := timebase s) hm hu
  · exact .inl ⟨hi, rfl⟩
  · exact .inr hstart

/-- A cycle with a reset or a mode command, which takes the place of the sequencer step (R90). -/
abbrev CutShort (s : State) : Prop :=
  (pins s).rst = true ∨ isModeCommand s.cfg.hasClock (currentCommand s) = true

/-- A mode command or reset leaves the sequencer dark, in OFF or in GAP(0) (R92). -/
theorem step_cutShort {s : State} (h : CutShort s) :
    ∃ t, step s = .next t ∧ (t.seq = .off ∨ t.seq = .gap 0) := by
  by_cases hr : (pins s).rst = true
  · exact ⟨advanceInputs (resetCycle s), if_pos hr, .inl rfl⟩
  · obtain ⟨t, ht, ⟨-, rfl⟩ | ⟨-, hseq⟩⟩ := step_clear_or_start (by simpa using hr) (h.resolve_left hr)
    · exact ⟨_, ht, .inl rfl⟩
    · exact ⟨t, ht, .inr hseq⟩

theorem sequencerSteps_of_not_cutShort {s : State} (h : ¬CutShort s) : SequencerSteps s := by
  simpa [CutShort, SequencerSteps] using h

/-! ## Break before make -/

/-- Every cycle into a HOLD keeps the segments, and comes from the GAP or the HOLD of the same position. -/
theorem step_into_hold {s t : State} {p : DigitPos} (h : step s = .next t) (hp : t.seq = .hold p) :
    (s.seq = .gap p ∨ s.seq = .hold p) ∧ segOut t = segOut s := by
  by_cases hcut : CutShort s
  · obtain ⟨t', ht', hseq⟩ := step_cutShort hcut
    cases ht'.symm.trans h
    rcases hseq with hseq | hseq <;> cases hseq.symm.trans hp
  · obtain ⟨t', ht', hcfg, hmove⟩ := step_seqMove (sequencerSteps_of_not_cutShort hcut)
    cases ht'.symm.trans h
    obtain ⟨hs, hsnap⟩ := hmove.into_hold hp
    exact ⟨hs, by rw [segOut_slot hs, segOut_slot (.inr hp), hcfg, hsnap]⟩

theorem step_answers_next (s : State) : ∃ t, step s = .next t := by
  by_cases hcut : CutShort s
  · obtain ⟨t, ht, -⟩ := step_cutShort hcut
    exact ⟨t, ht⟩
  · obtain ⟨t, ht, -⟩ := step_seqMove (sequencerSteps_of_not_cutShort hcut)
    exact ⟨t, ht⟩

/-- Settles O18: a digit is selected in a HOLD only, and by `step_into_hold` a HOLD follows the GAP or the HOLD
of its own position with the same segments. -/
theorem breakBeforeMake : Obligations.BreakBeforeMake := by
  intro s
  obtain ⟨t, ht⟩ := step_answers_next s
  refine ⟨t, ht, fun hs0 ht0 => ?sameDigit, fun hseg => ?segChange, fun p hp => ?ownGlyph, fun hcut => ?cutShort⟩
  case sameDigit =>
    obtain ⟨p, hp⟩ := (digOut_ne_zero_iff t).mp ht0
    obtain ⟨hs, hseg⟩ := step_into_hold ht hp
    have hhold : s.seq = .hold p := hs.resolve_left fun hgap => hs0 (digOut_gap hgap)
    exact ⟨by rw [digOut_hold hp, digOut_hold hhold], hseg⟩
  case segChange =>
    by_contra ht0
    obtain ⟨p, hp⟩ := (digOut_ne_zero_iff t).mp ht0
    exact hseg (step_into_hold ht hp).2
  case ownGlyph => exact segOut_slot (.inr ((digOut_getLsbD_iff t p).mp hp))
  case cutShort =>
    obtain ⟨t', ht', hseq⟩ := step_cutShort hcut
    cases ht'.symm.trans ht
    exact ⟨hseq, hseq.elim digOut_off digOut_gap⟩

/-- Settles O15: the moves of `SeqMove`; OFF is excluded by the invariant in the three modes that never
terminate. -/
theorem sequencerNeverSkipsAPosition : Obligations.SequencerNeverSkipsAPosition := by
  intro s hinv hsteps
  obtain ⟨t, ht, -, hmove⟩ := step_seqMove hsteps
  refine ⟨t, ht, ?_⟩
  cases hmove with
  | stayOff hs hnext _ hsnap _ =>
    obtain hmode | hmode := hinv.seqMode.mp hs <;> simp [hs, hnext, hsnap, hmode]
  | enterHold p hs hnext _ hsnap hkept => simp [hs, hnext, hsnap, hkept.mode]
  | stayHold p hs _ hnext _ hsnap hkept => simp [hs, hnext, hsnap, hkept.mode]
  | leaveHold p hs _ hp hnext _ hsnap hkept =>
    have hlt : p.val < 3 := Fin.val_lt_last hp
    simp [hs, hnext, hsnap, hkept.mode, hlt]
  | nextPass hs _ hnext _ hmode => simp [hs, hnext, hmode]
  | blinkTerminates hs _ hnext _ hsnap hblink hdone => simp [hs, hnext, hsnap, hblink, hdone]

/-- Settles O12: without a mode command OFF is the move `stayOff`; a mode command is CLEAR or a START. -/
theorem offDoesNothing : Obligations.OffDoesNothing := by
  intro s hoff hr
  cases hm : isModeCommand s.cfg.hasClock (currentCommand s) with
  | false =>
    obtain ⟨t, ht, -, hmove⟩ := step_seqMove ⟨hr, hm⟩
    obtain ⟨hseq, hcnt, hsnap, hkept⟩ := hmove.from_off hoff
    exact ⟨t, ht, fun _ => ⟨hseq, hcnt, hsnap, hkept⟩, fun _ => ⟨hseq, hcnt, hsnap⟩, fun hne => absurd hseq hne⟩
  | true =>
    obtain ⟨t, ht, hcase⟩ := step_clear_or_start hr hm
    refine ⟨t, ht, fun hsteps => absurd (hsteps.2.symm.trans hm) (by decide), fun hclear => ?clear, fun hne => ?start⟩
    case clear =>
      obtain ⟨-, rfl⟩ | ⟨hstart, -⟩ := hcase
      · exact ⟨rfl, rfl, rfl⟩
      · simp [StartCommand, hclear] at hstart
    case start =>
      obtain ⟨-, rfl⟩ | ⟨hstart, hseq⟩ := hcase
      · exact absurd rfl hne
      · exact ⟨hseq, hstart⟩

/-- Settles O13: from a GAP, `enterHold` is the only move. -/
theorem gapLastsOneCycle : Obligations.GapLastsOneCycle := by
  intro s p hgap hsteps
  obtain ⟨t, ht, -, hmove⟩ := step_seqMove hsteps
  exact ⟨t, ht, hmove.from_gap hgap⟩

/-- Settles O17: SEQ decides the digit lines, and `segOut_slot` gives the segments of GAP and HOLD alike. -/
theorem outputsFollowSequencer : Obligations.OutputsFollowSequencer := fun s =>
  ⟨fun h => ⟨digOut_off h, segOut_off h⟩, fun _ h => ⟨digOut_gap h, segOut_slot (.inl h)⟩,
    fun p h => ⟨by rw [digOut_hold h, oneHot_toNat], segOut_slot (.inr h)⟩, digOut_digLegal s⟩

end Sys2Proof.Machine

/-! NOP and WRST in the cycle that presents them (42_commands.md R97, R99), each beside the cycle without a
command. -/

namespace Sys2Proof.Machine

theorem opField_eq {w : CmdWord} {op : BitVec 4} (h : w.toNat / 2 ^ 20 = op.toNat) : opField w = op :=
  BitVec.eq_of_toNat_eq ((opField_toNat w).trans h)

theorem decode_nop {w : CmdWord} (h : w.toNat / 2 ^ 20 = 0) : decode w = .nop := by
  simp [decode, opField_eq (op := 0x0) h]

theorem decode_wrst {w : CmdWord} (h : w.toNat / 2 ^ 20 = 2) : decode w = .wrst := by
  simp [decode, opField_eq (op := 0x2) h]

/-- The sequencer step neither reads nor writes WLEN. -/
theorem sequencerStep_emptyWord (r t : State) :
    sequencerStep r (emptyWord t) = emptyWord (sequencerStep r t) :=
  calc sequencerStep r (emptyWord t)
      = withHostSide (emptyWord t) (sequencerStep r t) := sequencerStep_withHostSide r (emptyWord t) t
    _ = emptyWord (withHostSide t (sequencerStep r t)) := rfl
    _ = emptyWord (sequencerStep r t) := by rw [← sequencerStep_withHostSide r t t]; rfl

/-- A cycle that presents WRST ends as the cycle without a command, with the buffer emptied. -/
theorem step_presenting_wrst (s : State) {w : CmdWord} (hw : decode w = .wrst) :
    step (presenting s w) = .next (emptyWord (advanceInputs (sequencerStep s (timebase s)))) := by
  have hexec : exec (decode w) (timebase s) = .next (emptyWord (timebase s)) := by rw [hw]; rfl
  have hseq : sequencer (decode w) s (emptyWord (timebase s)) = emptyWord (sequencerStep s (timebase s)) := by
    rw [hw]; exact sequencerStep_emptyWord s (timebase s)
  rw [step_presenting hexec, hseq]
  rfl

theorem readWord_congr {s t : State} (h : t.word = s.word) (i : Nat) : readWord t i = readWord s i := by
  rw [readWord, readWord, h]

/-- Settles O22: NOP leaves the timebase's state to the sequencer, as a quiet cycle does. -/
theorem nopIsACycleWithoutCommand : Obligations.NopIsACycleWithoutCommand := by
  refine ⟨fun _ => rfl, fun s w hop => ⟨?same, step_quiet ⟨rfl, rfl⟩⟩⟩
  case same =>
    have hw : decode w = .nop := decode_nop hop
    have hexec : exec (decode w) (timebase s) = .next (timebase s) := by rw [hw]; rfl
    rw [step_presenting hexec, hw, step_withoutCommand]
    rfl

/-- Settles O24: WRST's write commutes with the sequencer step, which leaves WORD alone; WLEN = 0 then hides
every entry. -/
theorem wrstEmptiesTheWord : Obligations.WrstEmptiesTheWord := by
  refine ⟨fun _ => rfl, fun s w hop => ?_⟩
  have hword : (sequencerStep s (timebase s)).word = s.word := (sequencerStep_frame s (timebase s)).word
  exact ⟨_, _, step_withoutCommand s, step_presenting_wrst s (decode_wrst hop), rfl, rfl, rfl,
    readWord_congr hword, pad4_empty rfl, tickScroll_empty rfl _⟩

end Sys2Proof.Machine

/-! Starting a strategy, and the clock frame (43_animation.md R103, R113, R114). -/

namespace Sys2Proof.Machine

theorem isModeCommand_of_start {hasClock : Bool} {i : Instr} (h : StartCommand hasClock i) :
    isModeCommand hasClock i = true := by
  obtain rfl | ⟨n, rfl⟩ | rfl | ⟨rfl, hon⟩ := h
  · rfl
  · rfl
  · rfl
  · exact hon

/-- SCLOCK where the clock is present (R114). -/
theorem exec_sclock {s : State} (h : s.cfg.hasClock = true) :
    exec .sclock s = .next (startStrategy .clock (clockFrame (pins s).todHour (pins s).todMin) s) := if_pos h

/-- What every START command writes and what it keeps, whatever its strategy: from `s` the command leaves `u`
(R103). -/
structure StartsPass (s u : State) : Prop where
  cfg : u.cfg = s.cfg
  seq : u.seq = .gap 0
  snap : u.snap = u.frame
  el : u.el = 0
  done : u.done = false
  pre : u.pre = s.pre
  cnt : u.cnt = s.cnt
  err : u.err = s.err
  ecode : u.ecode = s.ecode
  word : u.word = s.word
  wlen : u.wlen = s.wlen
  dwell : u.dwell = s.dwell
  blinkIvl : u.blinkIvl = s.blinkIvl
  scrollIvl : u.scrollIvl = s.scrollIvl
  clockIvl : u.clockIvl = s.clockIvl

theorem startStrategy_startsPass (m : Mode) (f : Frame) (s : State) : StartsPass s (startStrategy m f s) := by
  constructor <;> rfl

theorem exec_startsPass {i : Instr} {s u : State} (hi : StartCommand s.cfg.hasClock i) (hu : exec i s = .next u) :
    StartsPass s u := by
  obtain rfl | ⟨n, rfl⟩ | rfl | ⟨rfl, hon⟩ := hi
  · cases hu; exact startStrategy_startsPass ..
  · cases hu; exact { startStrategy_startsPass .blink (pad4 s) s with }
  · cases hu; exact { startStrategy_startsPass .scroll blank4 s with }
  · rw [exec_sclock hon] at hu; cases hu; exact startStrategy_startsPass ..

/-- Settles O30: `exec_startsPass` for what the START commands have in common, and the meaning of each for its
mode and initial frame; the cycle adds the timebase alone. -/
theorem startCommandsBeginANewPass : Obligations.StartCommandsBeginANewPass := by
  rintro s i hinv hr rfl hi
  obtain ⟨u, hu⟩ := exec_answers_next (currentCommand s) (timebase s)
  have hstart : StartsPass (timebase s) u := exec_startsPass hi hu
  have hstep : step s = .next (advanceInputs u) := step_of_modeCommand hr (isModeCommand_of_start hi) hu
  have hseg : segOut (advanceInputs u) = glyphAt s.cfg.glyph u.frame[0] := by
    rw [segOut_slot (s := advanceInputs u) (.inl hstart.seq), advanceInputs_cfg, advanceInputs_snap, hstart.cfg,
      hstart.snap]
    rfl
  refine ⟨_, hstep, hstart.seq, hstart.snap, hstart.el, hstart.done, fun h => ?static, fun ⟨n, h⟩ => ?blink,
    fun h => ?scroll, fun h => ?clock, digOut_gap hstart.seq, hseg,
    hstart.pre.trans (timebase_pre_mod s hinv.preRange), hstart.cnt, hstart.err, hstart.ecode, hstart.word,
    hstart.wlen, hstart.dwell, hstart.blinkIvl, hstart.scrollIvl, hstart.clockIvl⟩
  case static => rw [h] at hu; cases hu; exact ⟨rfl, rfl⟩
  case blink => rw [h] at hu; cases hu; exact ⟨rfl, rfl⟩
  case scroll => rw [h] at hu; cases hu; exact ⟨rfl, rfl⟩
  case clock =>
    have hon : s.cfg.hasClock = true := by simpa [h] using hi
    rw [h, exec_sclock (s := timebase s) hon] at hu
    cases hu
    exact ⟨rfl, rfl⟩

/-- Settles O34: with HAS_CLOCK the meaning of SCLOCK is the start of the strategy alone. -/
theorem sclockShowsTheTime : Obligations.SclockShowsTheTime :=
  fun _ hon => ⟨_, exec_sclock hon, rfl, rfl⟩

theorem digitChar_toNat {x : Nat} (h : x ≤ 9) : (digitChar x).toNat = 0x30 + x := by
  rw [digitChar, BitVec.toNat_ofNat]
  omega

theorem hour12_midnight : hour12 0 = 12 := rfl

theorem hour12_afternoon {h : Nat} (h13 : 13 ≤ h) (h23 : h ≤ 23) : hour12 h = h - 12 := by
  rw [hour12, if_neg (by omega), if_pos ⟨h13, h23⟩]

/-- The hours of the morning and noon, and the hours out of range, are shown as they are. -/
theorem hour12_unchanged {h : Nat} (h0 : h ≠ 0) (h' : h ≤ 12 ∨ 24 ≤ h) : hour12 h = h := by
  rw [hour12, if_neg h0, if_neg (by omega)]

theorem hour12_le {h : Nat} (hh : h ≤ 31) : hour12 h ≤ 31 := by
  unfold hour12
  split
  · omega
  · split <;> omega

/-- Settles O35: the hour shown is `hour12`, which the ranges of the hour determine, and every number in a digit
position is at most 9. -/
theorem clockFrameFormatsTheTime : Obligations.ClockFrameFormatsTheTime := by
  intro h m
  have hh : hour12 h.toNat ≤ 31 := hour12_le (by omega)
  refine ⟨hour12 h.toNat, fun h0 => h0 ▸ hour12_midnight, hour12_afternoon,
    fun h1 h2 => hour12_unchanged (by omega) (.inl h2), fun h24 => hour12_unchanged (by omega) (.inr h24),
    fun h10 => ?tens, fun h10 => if_neg (by omega), digitChar_toNat (by omega), digitChar_toNat (by omega),
    digitChar_toNat (by omega)⟩
  case tens => exact (congrArg BitVec.toNat (if_pos h10)).trans (digitChar_toNat (by omega))

end Sys2Proof.Machine

/-! The ticks of the strategies (43_animation.md R108, R111, R112, R115): what a firing pass end does in each mode,
and the stream that repeated scroll ticks show. -/

namespace Sys2Proof.Machine

/-! ## The pass end in which a tick fires (41_refresh.md R89) -/

/-- A cycle at a pass end: a command that writes the storage alone, then the pass end. -/
theorem step_passEnd {s : State} (hinv : BlockInv s) (hsteps : SequencerSteps s) (hend : AtPassEnd s) :
    ∃ u, StorageOnly (timebase s) u ∧ step s = .next (advanceInputs (passEnd s u)) := by
  obtain ⟨u, -, hu, hstep⟩ := step_of_sequencerSteps hsteps
  obtain ⟨hseq, hdwell⟩ := hend
  have hcount : s.dwell.toNat ≤ holdCount s := holdCount_eq s hinv.cfgLegal.1 ▸ hdwell
  have hpass : sequencerStep s u = passEnd s u := by simp [sequencerStep, hseq, holdStep, hcount]
  exact ⟨u, hu, hpass ▸ hstep⟩

theorem passEnd_of_tick {r t k : State} {f : Frame} (hf : fires r = true)
    (hk : tick r (clearElapsed t) = ⟨k, f, false⟩) : passEnd r t = startPass f k := by
  simp [passEnd, hf, hk]

theorem passEnd_of_lastTick {r t k : State} {f : Frame} (hf : fires r = true)
    (hk : tick r (clearElapsed t) = ⟨k, f, true⟩) : passEnd r t = terminate k := by
  simp [passEnd, hf, hk]

theorem tick_blink {r : State} (h : r.mode = .blink) (t : State) : tick r t = tickBlink r t := by simp [tick, h]

theorem tick_scroll {r : State} (h : r.mode = .scroll) (t : State) : tick r t = tickScroll r t := by simp [tick, h]

theorem tick_clock {r : State} (h : r.mode = .clock) (t : State) : tick r t = tickClock r t := by simp [tick, h]

/-- A tick fires when the interval of the strategy is elapsed (R89). -/
theorem fires_of_interval {s : State} {n : Nat} (hinv : BlockInv s) (hi : interval s = some n) (hn : n ≤ elNow s) :
    fires s = true := by
  simp [fires_eq_tickDue s hinv.cfgLegal.1, tickDue, hi, hn]

/-! ## The clock tick (R115) -/

/-- Settles O39: the pass end starts a pass with the frame of `tickClock`, which writes FRAME alone. -/
theorem clockTickReadsTheTime : Obligations.ClockTickReadsTheTime := by
  intro s hinv hsteps hend hmode hivl
  obtain ⟨u, hu, hstep⟩ := step_passEnd hinv hsteps hend
  have hfires : fires s = true := fires_of_interval hinv (by rw [interval, hmode]) hivl
  rw [passEnd_of_tick hfires (tick_clock hmode _)] at hstep
  exact ⟨_, hstep, rfl, hu.mode.trans hmode, rfl, rfl, rfl, hu.tgt, hu.pos, hu.phase, hu.hc, hu.nrep, hu.done⟩

/-! ## The scroll tick (R111) -/

theorem BlockInv.wlen_le {s : State} (h : BlockInv s) : s.wlen.toNat ≤ 124 :=
  h.wordWf.2.trans h.cfgLegal.2.2.1

/-- POS advances without wrapping its register: WLEN + 4 is at most 128. -/
theorem nextPos_toNat {r : State} (h : r.wlen.toNat ≤ 124) :
    (nextPos r).toNat = (r.pos.toNat + 1) % (r.wlen.toNat + 4) := by
  have hlt : (r.pos.toNat + 1) % (r.wlen.toNat + 4) < r.wlen.toNat + 4 := Nat.mod_lt _ (by omega)
  exact BitVec.toNat_ofNat .. |>.trans (Nat.mod_eq_of_lt (by omega))

/-- Settles O38: the pass end starts a pass with the frame of `tickScroll`, which writes FRAME and POS alone. -/
theorem scrollTickShiftsTheView : Obligations.ScrollTickShiftsTheView := by
  intro s hinv hsteps hend hmode hivl
  obtain ⟨u, hu, hstep⟩ := step_passEnd hinv hsteps hend
  have hfires : fires s = true := fires_of_interval hinv (by rw [interval, hmode]) hivl
  rw [passEnd_of_tick hfires (tick_scroll hmode _)] at hstep
  exact ⟨_, hstep, rfl, hu.mode.trans hmode, rfl, rfl, rfl, rfl, rfl, rfl, nextPos_toNat hinv.wlen_le, hu.tgt,
    hu.phase, hu.hc, hu.nrep, hu.done⟩

/-! ## The blink tick (R108) -/

/-- While a bounded blink runs, HC has not passed 2N, and PHASE is its parity (R108). -/
theorem BlockInv.blinking {s : State} (hinv : BlockInv s) (hmode : s.mode = .blink) (h : 0 ≤ repeatBound s.nrep) :
    (s.hc.toNat : Int) ≤ 2 * repeatBound s.nrep ∧ (s.phase = .blanked ↔ s.hc.toNat % 2 = 1) :=
  (hinv.blinkCount.2 h).resolve_right fun ⟨_, _, hne⟩ => hne hmode

theorem BlockInv.hc_lt {s : State} (hinv : BlockInv s) (hmode : s.mode = .blink) (h : 0 ≤ repeatBound s.nrep) :
    s.hc.toNat < 65535 := by
  have hle := (hinv.blinking hmode h).1
  have hbound : repeatBound s.nrep ≤ 32767 := Int.le_of_lt_add_one (BitVec.toInt_lt (x := s.nrep))
  omega

/-- A half-cycle is counted for a bound of at least 0 only, and HC does not wrap (R108). -/
theorem countHalfCycle_writes_hc {r t : State} (ht : t.hc = r.hc)
    (hlt : 0 ≤ r.nrep.toInt → r.hc.toNat < 65535) :
    ∃ c, countHalfCycle r t = { t with hc := c } ∧ (0 ≤ r.nrep.toInt → c.toNat = r.hc.toNat + 1) ∧
      (r.nrep.toInt < 0 → c = r.hc) := by
  by_cases h : 0 ≤ r.nrep.toInt
  · refine ⟨_, countHalfCycle_bounded h t, fun _ => ?_, fun hneg => by omega⟩
    have := hlt h
    rw [halfCycles, BitVec.toNat_ofNat]
    omega
  · exact ⟨t.hc, countHalfCycle_unbounded (by simpa [repeatBound] using h) t, fun h0 => absurd h0 h, fun _ => ht⟩

theorem blinkEnds_iff_lastHalfCycle (r : State) :
    blinkEnds r = true ↔ 0 ≤ r.nrep.toInt ∧ (r.hc.toNat : Int) + 1 = 2 * r.nrep.toInt + 1 :=
  (blinkEnds_iff r).trans (and_congr_right fun _ => add_left_inj 1 |>.symm)

/-- A bounded blink ends SHOWING: the last half-cycle follows an even number of them (R108). -/
theorem BlockInv.showing_of_blinkEnds {s : State} (hinv : BlockInv s) (hmode : s.mode = .blink)
    (h : blinkEnds s = true) : s.phase = .showing := by
  obtain ⟨hbound, hlast⟩ := (blinkEnds_iff s).mp h
  have hparity := (hinv.blinking hmode hbound).2
  cases hphase : s.phase with
  | showing => rfl
  | blanked =>
    have hodd := hparity.mp hphase
    omega

theorem tickBlink_last {r : State} (h : blinkEnds r = true) (t : State) :
    tickBlink r t = ⟨countHalfCycle r t, r.frame, true⟩ := by
  simp [tickBlink, h]

/-- A blink tick that is not the last flips to the other phase and its frame. -/
theorem tickBlink_flips {r : State} (h : blinkEnds r = false) (t : State) :
    ∃ p f, tickBlink r t = ⟨flipTo p f (countHalfCycle r t), f, false⟩ ∧
      (r.phase = .showing → p = .blanked ∧ f = blank4) ∧ (r.phase = .blanked → p = .showing ∧ f = r.tgt) := by
  cases hphase : r.phase with
  | showing => exact ⟨.blanked, blank4, by simp [tickBlink, h, hphase], fun _ => ⟨rfl, rfl⟩, nofun⟩
  | blanked => exact ⟨.showing, r.tgt, by simp [tickBlink, h, hphase], nofun, fun _ => ⟨rfl, rfl⟩⟩

/-- Settles O37: the tick is the last one or flips the phase; the invariant gives the range of HC and the phase of
the last half-cycle. -/
theorem blinkTickFlipsOrTerminates : Obligations.BlinkTickFlipsOrTerminates := by
  intro s hinv hsteps hend hmode hivl
  obtain ⟨u, hu, hstep⟩ := step_passEnd hinv hsteps hend
  have hfires : fires s = true := fires_of_interval hinv (by rw [interval, hmode]) hivl
  obtain ⟨c, hcount, hbounded, hunbounded⟩ :=
    countHalfCycle_writes_hc (r := s) (t := clearElapsed u) hu.hc (hinv.hc_lt hmode)
  have htick := tick_blink hmode (clearElapsed u)
  cases hends : blinkEnds s with
  | true =>
    rw [tickBlink_last hends, hcount] at htick
    rw [passEnd_of_lastTick hfires htick] at hstep
    exact ⟨_, hstep, rfl, hu.tgt, hu.nrep, hu.pos, hbounded, hunbounded,
      fun _ _ => ⟨rfl, rfl, rfl, hu.frame, hu.snap, hu.phase, hinv.showing_of_blinkEnds hmode hends⟩,
      fun hnot => absurd ((blinkEnds_iff_lastHalfCycle s).mp hends) hnot⟩
  | false =>
    obtain ⟨p, f, hflip, hshowing, hblanked⟩ := tickBlink_flips hends (clearElapsed u)
    rw [hflip, hcount] at htick
    rw [passEnd_of_tick hfires htick] at hstep
    exact ⟨_, hstep, rfl, hu.tgt, hu.nrep, hu.pos, hbounded, hunbounded,
      fun h0 h => absurd ((blinkEnds_iff_lastHalfCycle s).mpr ⟨h0, h⟩) (by simp [hends]),
      fun _ => ⟨hu.mode.trans hmode, rfl, hu.done, rfl, hshowing, hblanked⟩⟩

/-! ## The stream of scroll ticks (R112) -/

/-- The `n`-th character from the left of the four blanks and the stream that follows them. -/
def tapeChar (s : State) (n : Nat) : CharCode :=
  if n < 4 then blankChar else scrollStream s ((n - 4) % (s.wlen.toNat + 4))

/-- The window of four characters at `k`, which the display shows after `k` ticks. -/
def tapeWindow (s : State) (k : Nat) : Frame :=
  #v[tapeChar s k, tapeChar s (k + 1), tapeChar s (k + 2), tapeChar s (k + 3)]

theorem tapeWindow_getElem (s : State) (k : Nat) (i : Fin 4) : (tapeWindow s k)[i] = tapeChar s (k + i.val) := by
  fin_cases i <;> rfl

theorem tapeWindow_zero (s : State) : tapeWindow s 0 = blank4 := rfl

/-- The four leading blanks are those at the end of each period. -/
theorem tapeChar_periodic (s : State) : Function.Periodic (tapeChar s) (s.wlen.toNat + 4) := by
  intro n
  by_cases hn : n < 4
  · have hmod : (n + (s.wlen.toNat + 4) - 4) % (s.wlen.toNat + 4) = n + s.wlen.toNat := by
      rw [Nat.mod_eq_of_lt] <;> omega
    rw [tapeChar, tapeChar, if_pos hn, if_neg (by omega), hmod, scrollStream, if_neg (by omega)]
    rfl
  · have hsub : n + (s.wlen.toNat + 4) - 4 = n - 4 + (s.wlen.toNat + 4) := by omega
    rw [tapeChar, tapeChar, if_neg hn, if_neg (by omega), hsub, Nat.add_mod_right]

theorem tapeWindow_periodic (s : State) : Function.Periodic (tapeWindow s) (s.wlen.toNat + 4) := by
  intro k
  have h := tapeChar_periodic s
  simp only [tapeWindow, Nat.add_right_comm k (s.wlen.toNat + 4), h _]

/-- In `u` the scroll of the word of `s` stands after `k` ticks. -/
structure ScrollView (s : State) (k : Nat) (u : State) : Prop where
  word : u.word = s.word
  wlen : u.wlen = s.wlen
  pos : u.pos.toNat = k % (s.wlen.toNat + 4)
  frame : u.frame = tapeWindow s k

/-- The character that tick `k + 1` brings in is the one after the window at `k`. -/
theorem ScrollView.scrollChar {s u : State} {k : Nat} (h : ScrollView s k u) : scrollChar u = tapeChar s (k + 4) := by
  rw [Machine.scrollChar, h.pos, h.wlen, readWord_congr h.word]
  rfl

theorem ScrollView.tick {s r t : State} {k : Nat} (hL : s.wlen.toNat ≤ 124) (h : ScrollView s k r)
    (hword : t.word = s.word) (hwlen : t.wlen = s.wlen) : ScrollView s (k + 1) (tickScroll r t).state where
  word := hword
  wlen := hwlen
  pos :=
    calc (nextPos r).toNat
        = (r.pos.toNat + 1) % (r.wlen.toNat + 4) := nextPos_toNat (h.wlen.symm ▸ hL)
      _ = (k + 1) % (s.wlen.toNat + 4) := by rw [h.wlen, h.pos, Nat.mod_add_mod]
  frame :=
    calc shiftIn r.frame (Machine.scrollChar r)
        = shiftIn (tapeWindow s k) (tapeChar s (k + 4)) := by rw [h.frame, h.scrollChar]
      _ = tapeWindow s (k + 1) := rfl

theorem scrollView_start (s : State) : ScrollView s 0 (rewindScroll (startStrategy .scroll blank4 s)) where
  word := rfl
  wlen := rfl
  pos := (Nat.zero_mod _).symm
  frame := (tapeWindow_zero s).symm

theorem scrollView_iterate {s s0 : State} (hL : s.wlen.toNat ≤ 124) (h : ScrollView s 0 s0) (k : Nat) :
    ScrollView s k (Nat.iterate (fun u => (tickScroll u u).state) k s0) := by
  induction k with
  | zero => exact h
  | succ k ih =>
    rw [Function.iterate_succ_apply']
    exact ih.tick hL ih.word ih.wlen

theorem tapeChar_first {s : State} (h : 1 ≤ s.wlen.toNat) : tapeChar s 4 = readWord s 0 := by
  have hmod : (4 - 4) % (s.wlen.toNat + 4) = 0 := Nat.zero_mod _
  rw [tapeChar, if_neg (by omega), hmod, scrollStream, if_pos (by omega)]

/-- Settles O40, by induction on the ticks (`scrollView_iterate`): after `k` of them the display shows the window
at `k` of a tape of period WLEN + 4 that begins with four blanks. -/
theorem scrollShowsThePeriodicStream : Obligations.ScrollShowsThePeriodicStream := by
  intro s hinv
  refine ⟨_, rfl, fun k => ?_⟩
  have hview := scrollView_iterate hinv.wlen_le (scrollView_start s)
  have hperiod := tapeWindow_periodic s
  refine ⟨fun i => ?window, (hview k).pos, ?period, fun hk => ?blank, fun hword => ⟨?rightmost, ?leftmost⟩⟩
  case window => rw [(hview k).frame]; exact tapeWindow_getElem s k i
  case period => rw [(hview _).frame, hperiod k, (hview k).frame]
  case blank => rw [(hview k).frame, ← hperiod.map_mod_nat k, hk]; exact tapeWindow_zero s
  case rightmost => rw [(hview 1).frame]; exact tapeChar_first hword
  case leftmost => rw [(hview 4).frame]; exact tapeChar_first hword

end Sys2Proof.Machine

/-! The reset cycle (70_reset_and_hazards.md R128), and the error record in a cycle without reset. -/

namespace Sys2Proof.Machine

/-- A reset cycle leaves the command port, the timebase and the sequencer out. -/
theorem step_of_reset {s : State} (hr : (pins s).rst = true) : step s = .next (advanceInputs (resetCycle s)) :=
  if_pos hr

/-- A further reset cycle finds every element at its reset value. -/
theorem resetCycle_after_reset (s : State) :
    resetCycle (advanceInputs (resetCycle s)) = advanceInputs (resetCycle s) := rfl

theorem statusOut_after_reset (s : State) : statusOut (advanceInputs (resetCycle s)) = 0 := by
  simp [statusOut, statusWord, modeCode, phaseBit]

/-- No command clears ERR, or changes the cause recorded with it (60_exceptions.md R117). -/
theorem exec_keeps_errorRecord {s u : State} {i : Instr} (herr : s.err = true) (hu : exec i s = .next u) :
    u.err = true ∧ u.ecode = s.ecode := by
  by_cases hacc : causeOf s i = 0
  · obtain ⟨hue, huc⟩ := exec_err_of_accepted hacc hu
    exact ⟨hue.trans herr, huc⟩
  · have hrej := (exec_of_rejected hacc).2
    rw [hu] at hrej
    cases hrej
    simp [herr]

/-- Settles O9: the reset cycle writes the reset table's values, and a second one finds them; without reset the
command keeps a recorded error, and the timebase and the sequencer do not touch it. -/
theorem resetCycleGivesResetState : Obligations.ResetCycleGivesResetState := by
  refine ⟨fun s hr => ?reset, fun s hr herr => ?kept⟩
  case reset =>
    refine ⟨advanceInputs (resetCycle s), step_of_reset hr, rfl, rfl, rfl, rfl, rfl, rfl, rfl, rfl, rfl, rfl, rfl,
      rfl, rfl, rfl, rfl, rfl, rfl, rfl, rfl, rfl, rfl, digOut_off rfl, segOut_off rfl, statusOut_after_reset s,
      fun hr' => ⟨advanceInputs (advanceInputs (resetCycle s)), ?again, rfl⟩⟩
    case again => rw [step_of_reset hr', resetCycle_after_reset]
  case kept =>
    obtain ⟨u, hu⟩ := exec_answers_next (currentCommand s) (timebase s)
    obtain ⟨hue, huc⟩ := exec_keeps_errorRecord (s := timebase s) herr hu
    have hframe := sequencer_frame (currentCommand s) s u
    exact ⟨_, step_of_exec hr hu, hframe.err.trans hue, hframe.ecode.trans huc⟩

end Sys2Proof.Machine

/-! Decoding undoes encoding, and the opcode map as plain arithmetic on the word (30_encoding.md R61, R63). -/

namespace Sys2Proof

/-- The table's view of a 24-bit word is the decoder's. -/
theorem decodeTableWord_toNat (w : CmdWord) : decodeTableWord 24 w.toNat = some (decode w) := by
  have hlt : ¬2 ^ 24 ≤ w.toNat := Nat.not_le.mpr w.isLt
  rw [decodeTableWord, decodeBits, if_neg (by decide), if_neg hlt, BitVec.ofNat_toNat, BitVec.setWidth_eq]

/-- Settles O1: `decode_encode`, which the table's view of the word repeats. -/
theorem decodeOfEncodeIsIdentity : Obligations.DecodeOfEncodeIsIdentity := fun i hi =>
  ⟨decode_encode hi, by rw [decodeTableWord_toNat, decode_encode hi]⟩

theorem immField_eq_ofNat (w : CmdWord) : immField w = BitVec.ofNat 16 (w.toNat % 2 ^ 16) :=
  BitVec.eq_of_toNat_eq (by rw [immField_toNat, BitVec.toNat_ofNat, Nat.mod_mod])

theorem charField_eq_ofNat (w : CmdWord) : charField w = BitVec.ofNat 8 (w.toNat % 256) :=
  BitVec.eq_of_toNat_eq (by rw [charField_toNat, BitVec.toNat_ofNat]; omega)

theorem selField_eq_ofNat (w : CmdWord) : selField w = BitVec.ofNat 4 (w.toNat / 2 ^ 16 % 16) :=
  BitVec.eq_of_toNat_eq (by rw [selField_toNat, BitVec.toNat_ofNat]; omega)

theorem decode_clear {w : CmdWord} (h : w.toNat / 2 ^ 20 = 1) : decode w = .clear := by
  simp [decode, Machine.opField_eq (op := 0x1) h]

theorem decode_wpush {w : CmdWord} (h : w.toNat / 2 ^ 20 = 3) :
    decode w = .wpush (BitVec.ofNat 8 (w.toNat % 256)) := by
  simp [decode, Machine.opField_eq (op := 0x3) h, charField_eq_ofNat]

theorem decode_setreg {w : CmdWord} (h : w.toNat / 2 ^ 20 = 4) :
    decode w = decodeSetreg (BitVec.ofNat 4 (w.toNat / 2 ^ 16 % 16)) (BitVec.ofNat 16 (w.toNat % 2 ^ 16)) := by
  simp [decode, Machine.opField_eq (op := 0x4) h, selField_eq_ofNat, immField_eq_ofNat]

theorem decode_reservedOpAB {w : CmdWord} (h : w.toNat / 2 ^ 20 = 0xA ∨ w.toNat / 2 ^ 20 = 0xB) :
    decode w = .reservedOpAB (BitVec.ofNat 1 (w.toNat / 2 ^ 20 - 0xA)) := by
  rcases h with h | h
  · rw [h]; simp [decode, Machine.opField_eq (op := 0xA) h, extractLsb'_20_eq_opField]
  · rw [h]; simp [decode, Machine.opField_eq (op := 0xB) h, extractLsb'_20_eq_opField]

theorem decode_reservedOpCF {w : CmdWord} (h : 0xC ≤ w.toNat / 2 ^ 20) :
    decode w = .reservedOpCF (BitVec.ofNat 2 (w.toNat / 2 ^ 20 - 0xC)) := by
  have hlow : (opField w).setWidth 2 = BitVec.ofNat 2 ((opField w).toNat - 0xC) := by
    rw [← opField_toNat] at h
    bv_omega
  have hcf : decode w = .reservedOpCF (w.extractLsb' 20 2) := by
    rw [← opField_toNat] at h
    have hne (op : BitVec 4) (hop : op.toNat < 0xC) : opField w ≠ op := by rintro rfl; omega
    simp [decode, hne]
  rw [hcf, extractLsb'_20_eq_opField w 2 (by decide), hlow, opField_toNat]

/-- Settles O2, one opcode at a time; the operands are the fields of the word as numbers. -/
theorem opcodeMapOfEveryWord : Obligations.OpcodeMapOfEveryWord := by
  intro w op sel imm
  have hchar : imm % 256 = w.toNat % 256 := Nat.mod_mod_of_dvd _ (by decide)
  refine ⟨Machine.decode_nop, decode_clear, Machine.decode_wrst, fun h => ?wpush, fun h hs => ?dwell,
    fun h hs => ?blinkIvl, fun h hs => ?scrollIvl, fun h hs => ?clockIvl, fun h hs => ?reservedSel, fun h => ?sstatic,
    fun h => ?sblink, fun h => ?sscroll, fun h => ?sclock, fun h => ?reservedOp9, decode_reservedOpAB,
    decode_reservedOpCF⟩
  case wpush => rw [hchar]; exact decode_wpush h
  case dwell => rw [decode_setreg h, show w.toNat / 2 ^ 16 % 16 = 0 from hs]; rfl
  case blinkIvl => rw [decode_setreg h, show w.toNat / 2 ^ 16 % 16 = 1 from hs]; rfl
  case scrollIvl => rw [decode_setreg h, show w.toNat / 2 ^ 16 % 16 = 2 from hs]; rfl
  case clockIvl => rw [decode_setreg h, show w.toNat / 2 ^ 16 % 16 = 3 from hs]; rfl
  case reservedSel => rw [decode_setreg h]; exact decodeSetreg_reserved (by rw [BitVec.toNat_ofNat]; omega) _
  case sstatic => simp [decode, Machine.opField_eq (op := 0x5) h]
  case sblink => simp [decode, Machine.opField_eq (op := 0x6) h, immField_eq_ofNat, imm]
  case sscroll => simp [decode, Machine.opField_eq (op := 0x7) h]
  case sclock => simp [decode, Machine.opField_eq (op := 0x8) h]
  case reservedOp9 => simp [decode, Machine.opField_eq (op := 0x9) h]

/-- Settles O4: each word is decoded by evaluation. -/
theorem exampleWordsDecode : Obligations.ExampleWordsDecode := by
  unfold Obligations.ExampleWordsDecode
  decide

end Sys2Proof

/-! The invariant of the block (10_state.md): the timebase, every command, the sequencer step and the reset cycle
keep it. -/

namespace Sys2Proof.Machine

theorem BlockInv.timebase {s : State} (h : BlockInv s) : BlockInv (timebase s) :=
  { h with preRange := timebase_pre_lt s h.preRange }

theorem BlockInv.advanceInputs {s : State} (h : BlockInv s) : BlockInv (advanceInputs s) := { h with }

/-- No half-cycle is counted yet. -/
theorem blinkCountWf_of_start {s : State} (hhc : s.hc = 0) (hphase : s.phase = .showing) : BlinkCountWf s := by
  refine ⟨fun _ => hhc, fun h0 => .inl ⟨?_, ?_⟩⟩
  · rw [hhc]; exact Int.mul_nonneg (by decide) h0
  · rw [hhc, hphase]; decide

theorem BlockInv.resetCycle {s : State} (h : BlockInv s) : BlockInv (resetCycle s) where
  cfgLegal := h.cfgLegal
  preRange := h.cfgLegal.1
  wordWf := emptied_wordWf h.wordWf rfl rfl rfl
  seqMode := iff_of_true rfl (.inl rfl)
  doneMode := iff_of_false nofun nofun
  posRange := Nat.zero_le _
  errRecord := iff_of_true rfl rfl
  clockOption := nofun
  blinkCount := blinkCountWf_of_start rfl rfl
  snapFrame := rfl
  blinkFrame := nofun

/-! ## The commands -/

/-- The strategy runs, so SEQ is not OFF (10_state.md R20). -/
theorem seqMatchesMode_of_active {s : State} (hseq : s.seq ≠ .off) (hmode : ¬(s.mode = .idle ∨ s.mode = .done)) :
    SeqMatchesMode s := iff_of_false hseq hmode

/-- A strategy other than Blink leaves the blink count as it was. -/
theorem BlinkCountWf.of_mode_ne_blink {s t : State} (h : BlinkCountWf s) (hhc : t.hc = s.hc)
    (hphase : t.phase = s.phase) (hnrep : t.nrep = s.nrep) (hmode : t.mode ≠ .blink) : BlinkCountWf t := by
  unfold BlinkCountWf at h ⊢
  rw [hhc, hphase, hnrep]
  exact ⟨h.1, fun h0 => (h.2 h0).imp_right fun ⟨hlast, hshowing, _⟩ => ⟨hlast, hshowing, hmode⟩⟩

theorem BlockInv.raiseCmdError {s : State} (h : BlockInv s) {code : BitVec 2} (hcode : code ≠ 0) :
    BlockInv (raiseCmdError code s) := by
  have herr := raiseCmdError_errorRecordWf hcode h.errRecord
  rw [raiseCmdError_eq] at herr ⊢
  exact { h with errRecord := herr }

theorem BlockInv.stopStrategy {s : State} (h : BlockInv s) : BlockInv (stopStrategy s) :=
  { h with
    seqMode := iff_of_true rfl (.inl rfl)
    doneMode := iff_of_false nofun nofun
    clockOption := nofun
    blinkCount := h.blinkCount.of_mode_ne_blink rfl rfl rfl nofun
    blinkFrame := nofun }

/-- The start of a strategy without blink count. -/
theorem BlockInv.startStrategy {s : State} (h : BlockInv s) (f : Frame) {m : Mode}
    (hm : m = .static ∨ m = .scroll ∨ (m = .clock ∧ s.cfg.hasClock = true)) : BlockInv (startStrategy m f s) :=
  have hactive : ¬(m = .idle ∨ m = .done) ∧ m ≠ .blink ∧ (m = .clock → s.cfg.hasClock = true) := by
    rcases hm with rfl | rfl | ⟨rfl, hon⟩
    · simp
    · simp
    · simp [hon]
  { h with
    seqMode := seqMatchesMode_of_active nofun hactive.1
    doneMode := iff_of_false nofun fun hd => hactive.1 (.inr hd)
    clockOption := hactive.2.2
    blinkCount := h.blinkCount.of_mode_ne_blink rfl rfl rfl hactive.2.1
    snapFrame := rfl
    blinkFrame := fun hb => absurd hb hactive.2.1 }

/-- The start of a blink: no half-cycle counted, SHOWING (43_animation.md R107). -/
theorem BlockInv.startBlink {s : State} (h : BlockInv s) (n : BitVec 16) (f : Frame) :
    BlockInv (armBlink n f (Machine.startStrategy .blink f s)) :=
  { h with
    seqMode := seqMatchesMode_of_active nofun nofun
    doneMode := iff_of_false nofun nofun
    clockOption := nofun
    blinkCount := blinkCountWf_of_start rfl rfl
    snapFrame := rfl
    blinkFrame := fun _ => rfl }

theorem BlockInv.exec_modeCommand {i : Instr} {s u : State} (h : BlockInv s)
    (hm : isModeCommand s.cfg.hasClock i = true) (hu : exec i s = .next u) : BlockInv u := by
  obtain ⟨-, rfl⟩ | ⟨-, rfl⟩ | ⟨n, -, rfl⟩ | ⟨-, rfl⟩ | ⟨-, hon, rfl⟩ := Machine.exec_modeCommand hm hu
  · exact h.stopStrategy
  · exact h.startStrategy _ (.inl rfl)
  · exact h.startBlink n _
  · exact { h.startStrategy blank4 (.inr (.inl rfl)) with posRange := Nat.zero_le _ }
  · exact h.startStrategy _ (.inr (.inr ⟨rfl, hon⟩))

theorem BlockInv.exec {i : Instr} {s u : State} (h : BlockInv s) (hu : exec i s = .next u) : BlockInv u := by
  by_cases hrej : causeOf s i = 0
  case neg =>
    rw [(exec_of_rejected hrej).2] at hu
    cases hu
    exact h.raiseCmdError hrej
  cases hm : isModeCommand s.cfg.hasClock i with
  | true => exact h.exec_modeCommand hm hu
  | false =>
    cases i with
    | wpush c =>
      have hroom := (causeOf_wpush_eq_zero_iff s c).mp hrej
      rw [Machine.exec, execWpush, if_pos hroom] at hu
      cases hu
      exact { h with wordWf := appendWord_wordWf c h.cfgLegal.2.2.1 h.wordWf hroom }
    | nop => cases hu; exact h
    | wrst => cases hu; exact { h with wordWf := emptied_wordWf h.wordWf rfl rfl rfl }
    | setregDwell v | setregBlinkIvl v | setregScrollIvl v | setregClockIvl v => cases hu; exact { h with }
    | clear | sstatic | sblink n | sscroll => cases hm
    | sclock => rw [(causeOf_sclock_eq_zero_iff s).mp hrej] at hm; cases hm
    | reservedOp9 | reservedOpAB low | reservedOpCF low | reservedSel sel =>
      simp [causeOf, causeReservedOpcode, causeReservedSelector] at hrej

/-! ## The sequencer step -/

theorem BlockInv.active {s : State} (h : BlockInv s) (hseq : s.seq ≠ .off) : ¬(s.mode = .idle ∨ s.mode = .done) :=
  fun hm => hseq (h.seqMode.mpr hm)

/-- A step of the sequencer to another position than OFF, with nothing written but SEQ and CNT. -/
theorem BlockInv.moveSeq {t : State} (ht : BlockInv t) (hoff : t.seq ≠ .off) {q : SeqPos} (hq : q ≠ .off)
    (c : BitVec 16) : BlockInv { t with seq := q, cnt := c } :=
  { ht with seqMode := seqMatchesMode_of_active hq (ht.active hoff) }

/-- The half-cycle of a blink tick is counted in the new phase, if the tick is not the last one. -/
theorem BlockInv.blinkCount_flip {r t : State} (hr : BlockInv r) (hmode : r.mode = .blink) (hends : blinkEnds r = false)
    (hnrep : t.nrep = r.nrep) (hbounded : 0 ≤ r.nrep.toInt → t.hc.toNat = r.hc.toNat + 1)
    (hunbounded : r.nrep.toInt < 0 → t.hc = r.hc) (hphase : t.phase = .blanked ↔ ¬r.phase = .blanked) :
    BlinkCountWf t := by
  unfold BlinkCountWf repeatBound
  rw [hnrep, hphase]
  refine ⟨fun h => (hunbounded h).trans (hr.blinkCount.1 h), fun h => .inl ?_⟩
  obtain ⟨hle, hparity⟩ := hr.blinking hmode h
  have hne : (r.hc.toNat : Int) ≠ 2 * r.nrep.toInt := fun heq => by
    simp [(blinkEnds_iff r).mpr ⟨h, heq⟩] at hends
  rw [hbounded h, hparity]
  unfold repeatBound at hle
  omega

theorem BlockInv.passEnd_blink {r t : State} (hr : BlockInv r) (ht : BlockInv t)
    (hrt : StorageOnly (Machine.timebase r) t) (hmode : r.mode = .blink) (hf : fires r = true) :
    BlockInv (passEnd r t) := by
  obtain ⟨c, hcount, hbounded, hunbounded⟩ :=
    countHalfCycle_writes_hc (r := r) (t := clearElapsed t) hrt.hc (hr.hc_lt hmode)
  have htick := tick_blink hmode (clearElapsed t)
  have hactive : ¬(t.mode = .idle ∨ t.mode = .done) := by simp [hrt.mode, hmode]
  cases hends : blinkEnds r with
  | true =>
    rw [tickBlink_last hends, hcount] at htick
    rw [passEnd_of_lastTick hf htick]
    obtain ⟨h0, hlast⟩ := (blinkEnds_iff_lastHalfCycle r).mp hends
    have hcount : BlinkCountWf (terminate { clearElapsed t with hc := c }) := by
      unfold BlinkCountWf repeatBound
      rw [show (terminate { clearElapsed t with hc := c }).nrep = r.nrep from hrt.nrep]
      exact ⟨fun hneg => by omega, fun _ => .inr
        ⟨by rw [← hlast]; exact congrArg Nat.cast (hbounded h0), hrt.phase.trans (hr.showing_of_blinkEnds hmode hends),
          nofun⟩⟩
    exact { ht with
      seqMode := iff_of_true rfl (.inr rfl)
      doneMode := iff_of_true rfl rfl
      clockOption := nofun
      blinkCount := hcount
      blinkFrame := nofun }
  | false =>
    obtain ⟨p, f, hflip, hshowing, hblanked⟩ := tickBlink_flips hends (clearElapsed t)
    rw [hflip, hcount] at htick
    rw [passEnd_of_tick hf htick]
    have hphase : p = .blanked ↔ ¬r.phase = .blanked := by
      cases hp : r.phase with
      | showing => simp [hshowing hp]
      | blanked => simp [hblanked hp]
    exact { ht with
      seqMode := seqMatchesMode_of_active nofun hactive
      blinkCount := hr.blinkCount_flip hmode hends hrt.nrep hbounded hunbounded hphase
      snapFrame := rfl
      blinkFrame := fun _ => by
        cases hp : r.phase with
        | showing => obtain ⟨rfl, rfl⟩ := hshowing hp; rfl
        | blanked => obtain ⟨rfl, rfl⟩ := hblanked hp; exact hrt.tgt.symm }

/-- The pass end keeps the invariant, where the reads see `r` and the command of the cycle has left `t`. -/
theorem BlockInv.passEnd {r t : State} (hr : BlockInv r) (ht : BlockInv t)
    (hrt : StorageOnly (Machine.timebase r) t) (hseq : r.seq = .hold 3) : BlockInv (passEnd r t) := by
  have hactive : ¬(t.mode = .idle ∨ t.mode = .done) := ht.active (by simp [hrt.seq, hseq])
  cases hf : fires r with
  | false =>
    rw [Machine.passEnd, hf]
    exact { ht with seqMode := seqMatchesMode_of_active nofun hactive, snapFrame := hrt.frame.symm }
  | true =>
    cases hmode : r.mode with
    | idle | static | done => simp [fires, hmode] at hf
    | blink => exact hr.passEnd_blink ht hrt hmode hf
    | scroll =>
      rw [passEnd_of_tick hf (tick_scroll hmode _)]
      have hne : t.mode ≠ .blink := by simp [hrt.mode, hmode]
      have hpos : (nextPos r).toNat < r.wlen.toNat + 4 := by
        rw [nextPos_toNat hr.wlen_le]; exact Nat.mod_lt _ (by omega)
      have hwlen : r.wlen.toNat ≤ t.cfg.wordMax := hrt.cfg ▸ hr.wordWf.2
      exact { ht with
        seqMode := seqMatchesMode_of_active nofun hactive
        posRange := (by omega : (nextPos r).toNat ≤ t.cfg.wordMax + 3)
        snapFrame := rfl
        blinkFrame := fun hb => absurd hb hne }
    | clock =>
      rw [passEnd_of_tick hf (tick_clock hmode _)]
      have hne : t.mode ≠ .blink := by simp [hrt.mode, hmode]
      exact { ht with
        seqMode := seqMatchesMode_of_active nofun hactive
        snapFrame := rfl
        blinkFrame := fun hb => absurd hb hne }

theorem BlockInv.sequencerStep {r t : State} (hr : BlockInv r) (ht : BlockInv t)
    (hrt : StorageOnly (Machine.timebase r) t) : BlockInv (sequencerStep r t) := by
  have hseq : t.seq = r.seq := hrt.seq
  obtain ⟨-, heq⟩ | ⟨p, hr', heq⟩ | ⟨p, hr', -, heq⟩ | ⟨p, hr', -, -, heq⟩ | ⟨hr', -, heq⟩ :=
    sequencerStep_cases r t <;> rw [heq]
  · exact ht
  · exact ht.moveSeq (q := .hold p) (by simp [hseq, hr']) nofun 0
  · exact { ht with }
  · exact ht.moveSeq (q := .gap (p + 1)) (by simp [hseq, hr']) nofun t.cnt
  · exact hr.passEnd ht hrt hr'

/-! ## The step -/

theorem BlockInv.step {s t : State} (h : BlockInv s) (hstep : step s = .next t) : BlockInv t := by
  obtain ⟨-, rfl⟩ | ⟨-, u, hu, rfl⟩ := step_cases hstep
  · exact h.resetCycle.advanceInputs
  · have hinv : BlockInv u := h.timebase.exec hu
    refine BlockInv.advanceInputs ?_
    cases hm : isModeCommand s.cfg.hasClock (currentCommand s) with
    | true => rwa [sequencer, if_pos hm]
    | false =>
      rw [sequencer, if_neg (by simp [hm])]
      exact h.sequencerStep hinv (exec_storageOnly (s := Machine.timebase s) hm hu)

/-- Settles O8: `BlockInv.step`, which composes what the timebase, the commands, the sequencer step and the reset
cycle keep. -/
theorem everyStepKeepsInvariant : Obligations.EveryStepKeepsInvariant := fun s hinv =>
  let ⟨t, ht⟩ := step_answers_next s
  ⟨t, ht, hinv.step ht⟩

theorem glyphRefTable_legal : GlyphLegal glyphRefTable := by
  refine ⟨?case, ?outside, ?space, ?one, ?zero⟩ <;> decide +kernel

/-- Settles O7: every element at its reset value; the reset state is a fixed state of OFF and IDLE. -/
theorem resetStateMeetsInvariant : Obligations.ResetStateMeetsInvariant := by
  refine ⟨?inv, ⟨digOut_off rfl, segOut_off rfl⟩, by decide⟩
  exact {
    cfgLegal := ⟨by decide, by decide, by decide, glyphRefTable_legal⟩
    preRange := by decide
    wordWf := reset_wordWf
    seqMode := iff_of_true rfl (.inl rfl)
    doneMode := iff_of_false nofun nofun
    posRange := Nat.zero_le _
    errRecord := iff_of_true rfl rfl
    clockOption := nofun
    blinkCount := blinkCountWf_of_start rfl rfl
    snapFrame := rfl
    blinkFrame := nofun }

end Sys2Proof.Machine

/-! One cycle without reset: what the timebase counts, what the sequencer step leaves alone when no tick fires, and
what a mode command and a command that writes the storage alone leave (41_refresh.md R83 to R90). -/

namespace Sys2Proof.Machine

/-! ## Mode commands and the outcome of a cycle (R90) -/

/-- Settles O5: `step_of_exec` for the cycle, `decode_encode` for the word it presents. -/
theorem stepRunsTheDecodedCommand : Obligations.StepRunsTheDecodedCommand := by
  refine ⟨fun s hr => ?cycle, fun s i hi ⟨_, hvalid, hword⟩ => ?word, fun s => currentCommand_quiet⟩
  case cycle =>
    obtain ⟨u, hu⟩ := exec_answers_next (currentCommand s) (timebase s)
    exact ⟨u, hu, step_of_exec hr hu⟩
  case word => rw [currentCommand, commandWord, if_pos hvalid, hword, decode_encode hi]

theorem runsTo_step {k : Nat} {s t u : State} (h : RunsTo k s t) (hstep : step t = .next u) : RunsTo (k + 1) s u :=
  runsTo_add k 1 h ((runsTo_succ 0 t u u hstep).mpr (runsTo_zero u))

/-- Settles O6: every step answers a next state, so by induction every run does. -/
theorem noCycleStopsTheBlock : Obligations.NoCycleStopsTheBlock := by
  intro k s
  have hrun : ∃ t, RunsTo k s t := by
    induction k with
    | zero => exact ⟨s, runsTo_zero s⟩
    | succ k ih =>
      obtain ⟨t, ht⟩ := ih
      obtain ⟨u, hu⟩ := step_answers_next t
      exact ⟨u, runsTo_step ht hu⟩
  obtain ⟨t, ht⟩ := hrun
  exact ⟨t, ht, step_answers_next t⟩

/-- A mode command overwrites SEQ and reads nothing of it. -/
theorem exec_modeCommand_withSeq {i : Instr} {s u : State} (hm : isModeCommand s.cfg.hasClock i = true)
    (hu : exec i s = .next u) (q : SeqPos) : exec i { s with seq := q } = .next u := by
  obtain ⟨rfl, rfl⟩ | ⟨rfl, rfl⟩ | ⟨n, rfl, rfl⟩ | ⟨rfl, rfl⟩ | ⟨rfl, hon, rfl⟩ := exec_modeCommand hm hu
  · rfl
  · rfl
  · rfl
  · rfl
  · exact exec_sclock hon

/-- Settles O11: the cycle is the command's meaning alone, which overwrites SEQ. -/
theorem modeCommandReplacesSequencerStep : Obligations.ModeCommandReplacesSequencerStep := by
  intro s hr hm
  obtain ⟨u, hu⟩ := exec_answers_next (currentCommand s) (timebase s)
  have hstep := step_of_modeCommand hr hm hu
  refine ⟨⟨u, hu, hstep, ?seq⟩, fun q => ?position⟩
  case seq =>
    obtain ⟨-, rfl⟩ | ⟨-, hgap⟩ := exec_clear_or_start (s := timebase s) hm hu
    · exact .inr rfl
    · exact .inl hgap
  case position =>
    rw [hstep]
    exact step_of_modeCommand (s := { s with seq := q }) hr hm
      (exec_modeCommand_withSeq (s := timebase s) hm hu q)

/-! ## The timebase over any number of cycles (R83) -/

theorem strobesNow_eq_div {s : State} (h : s.pre < s.cfg.tbCycles) : strobesNow s = (s.pre + 1) / s.cfg.tbCycles := by
  unfold strobesNow
  split
  · next heq => rw [heq, Nat.div_self (by omega)]
  · next hne => rw [Nat.div_eq_of_lt (by omega)]

/-- The multiples of `T` up to `a`, and then those up to `a + k`. -/
theorem div_add_mod_add_div {T : Nat} (hT : 0 < T) (a k : Nat) : a / T + (a % T + k) / T = (a + k) / T := by
  conv_rhs => rw [← Nat.div_add_mod a T, Nat.add_assoc, Nat.mul_add_div hT]

/-- From `s` to `t` the timebase runs for `k` cycles, and nothing else writes PRE and EL. -/
structure TimebaseRun (k : Nat) (s t : State) : Prop where
  cfg : t.cfg = s.cfg
  pre : t.pre = (s.pre + k) % s.cfg.tbCycles
  el : t.el.toNat = min (s.el.toNat + (s.pre + k) / s.cfg.tbCycles) 65535

theorem timebaseRun_refl {s : State} (h : s.pre < s.cfg.tbCycles) : TimebaseRun 0 s s where
  cfg := rfl
  pre := (Nat.mod_eq_of_lt h).symm
  el := by rw [Nat.add_zero, Nat.div_eq_of_lt h]; omega

theorem TimebaseRun.trans {j k : Nat} {s t u : State} (h : TimebaseRun j s t) (h' : TimebaseRun k t u)
    (hT : 0 < s.cfg.tbCycles) : TimebaseRun (j + k) s u where
  cfg := h'.cfg.trans h.cfg
  pre := by rw [h'.pre, h.cfg, h.pre, Nat.mod_add_mod, Nat.add_assoc]
  el := by
    have hdiv := div_add_mod_add_div hT (s.pre + j) k
    rw [h'.el, h.el, h.cfg, h.pre, ← Nat.add_assoc, ← hdiv]
    generalize (s.pre + j) / s.cfg.tbCycles = a, ((s.pre + j) % s.cfg.tbCycles + k) / s.cfg.tbCycles = b
    omega

theorem timebaseRun_timebase {s : State} (h : s.pre < s.cfg.tbCycles) : TimebaseRun 1 s (timebase s) where
  cfg := rfl
  pre := timebase_pre_mod s h
  el := by rw [← strobesNow_eq_div h]; exact elapsed_eq_elNow s (by omega)

theorem TimebaseRun.el_elNow {s t : State} (h : TimebaseRun 1 s t) (hpre : s.pre < s.cfg.tbCycles) :
    t.el.toNat = elNow s := by
  rw [h.el, ← strobesNow_eq_div hpre]; rfl

/-! ## A cycle in which the sequencer steps and no tick fires (R86 to R89) -/

/-- The pass end of this cycle, if there is one, finds no tick due. -/
abbrev NoTickNow (s : State) : Prop := ¬(AtPassEnd s ∧ tickDue s = true)

/-- The sequencer step writes SEQ and CNT alone, and SNAP, which takes the frame. -/
theorem sequencerStep_of_no_tick {r t : State} (hinv : BlockInv r) (h : NoTickNow r) (hsnap : t.snap = r.snap) :
    ∃ q c, sequencerStep r t = { t with seq := q, cnt := c } := by
  have hT := hinv.cfgLegal.1
  obtain ⟨-, heq⟩ | ⟨p, -, heq⟩ | ⟨p, -, -, heq⟩ | ⟨p, -, -, -, heq⟩ | ⟨hseq, hd, heq⟩ := sequencerStep_cases r t <;>
    rw [heq]
  · exact ⟨t.seq, t.cnt, rfl⟩
  · exact ⟨.hold p, 0, rfl⟩
  · exact ⟨t.seq, _, rfl⟩
  · exact ⟨.gap (p + 1), t.cnt, rfl⟩
  · have hf : fires r = false := by
      rw [fires_eq_tickDue r hT, ← Bool.not_eq_true]
      exact fun hdue => h ⟨⟨hseq, holdCount_eq r hT ▸ hd⟩, hdue⟩
    refine ⟨.gap 0, t.cnt, ?_⟩
    simp only [passEnd, hf, startPass, ← hinv.snapFrame, ← hsnap]
    rfl

/-- Without a tick the strategy stays, the timebase runs on, and SEQ and CNT move by `SeqMove`. -/
theorem step_of_no_tick {s : State} (hinv : BlockInv s) (hsteps : SequencerSteps s) (h : NoTickNow s) :
    ∃ t, step s = .next t ∧ SeqMove s t ∧ t.snap = s.snap ∧ StrategyKept s t ∧ TimebaseRun 1 s t := by
  obtain ⟨u, -, hu, hstep⟩ := step_of_sequencerSteps hsteps
  have hmove := seqMove_sequencerStep hu
  have hkept := hu.strategyKept
  have htime := timebaseRun_timebase hinv.preRange
  obtain ⟨q, c, heq⟩ := sequencerStep_of_no_tick hinv h hu.snap
  rw [heq] at hstep hmove
  exact ⟨_, hstep, hmove, hu.snap, { hkept with },
    ⟨hu.cfg, hu.pre.trans htime.pre, (congrArg BitVec.toNat hu.el).trans htime.el⟩⟩

/-- A firing tick clears EL (R89). -/
theorem passEnd_el_of_fires {r : State} (hf : fires r = true) (t : State) : (passEnd r t).el = 0 := by
  have hel : (tick r (clearElapsed t)).state.el = 0 := (tick_frame r (clearElapsed t)).el
  obtain ⟨hf', -⟩ | ⟨-, -, heq⟩ | ⟨-, -, -, heq⟩ := passEnd_cases r t
  · rw [hf] at hf'; cases hf'
  · rw [heq]; exact hel
  · rw [heq]; exact hel

theorem step_of_tick {s : State} (hinv : BlockInv s) (hsteps : SequencerSteps s) (hend : AtPassEnd s)
    (hdue : tickDue s = true) : ∃ t, step s = .next t ∧ t.el = 0 := by
  obtain ⟨u, -, hstep⟩ := step_passEnd hinv hsteps hend
  exact ⟨_, hstep, passEnd_el_of_fires (fires_eq_tickDue s hinv.cfgLegal.1 ▸ hdue) u⟩

/-! ## The prescaler and the elapsed count in every cycle -/

/-- No command writes PRE. -/
theorem exec_pre {i : Instr} {s u : State} (hu : exec i s = .next u) : u.pre = s.pre := by
  cases hm : isModeCommand s.cfg.hasClock i with
  | false => exact (exec_storageOnly hm hu).pre
  | true =>
    obtain ⟨-, rfl⟩ | ⟨-, rfl⟩ | ⟨n, -, rfl⟩ | ⟨-, rfl⟩ | ⟨-, -, rfl⟩ := exec_modeCommand hm hu <;> rfl

theorem step_pre {s t : State} (hinv : BlockInv s) (hr : (pins s).rst = false) (h : step s = .next t) :
    t.pre = (s.pre + 1) % s.cfg.tbCycles := by
  obtain ⟨u, hu⟩ := exec_answers_next (currentCommand s) (timebase s)
  cases (step_of_exec hr hu).symm.trans h
  exact (sequencer_frame _ s u).pre.trans ((exec_pre hu).trans (timebase_pre_mod s hinv.preRange))

/-- The cycle of a CLEAR (42_commands.md R98). -/
theorem step_clear {s : State} (hr : (pins s).rst = false) (hc : currentCommand s = .clear) :
    step s = .next (advanceInputs (stopStrategy (timebase s))) :=
  step_of_modeCommand hr (by rw [hc]; rfl) (by rw [hc]; rfl)

theorem el_of_start {s t : State} (hr : (pins s).rst = false) (hi : StartCommand s.cfg.hasClock (currentCommand s))
    (h : step s = .next t) : t.el = 0 := by
  obtain ⟨u, hu⟩ := exec_answers_next (currentCommand s) (timebase s)
  cases (step_of_modeCommand hr (isModeCommand_of_start hi) hu).symm.trans h
  exact (exec_startsPass (s := timebase s) hi hu).el

/-- Settles O10: PRE by `step_pre`; EL by the kind of the cycle: a START, CLEAR, a pass end with the tick due, or any
other cycle in which the sequencer steps. -/
theorem timebaseCountsStrobes : Obligations.TimebaseCountsStrobes := by
  intro s hinv hr
  obtain ⟨t, ht⟩ := step_answers_next s
  refine ⟨t, ht, step_pre hinv hr ht, fun hm hne => ?start, fun hc => ?clear, fun hsteps hend hdue => ?tick,
    fun hsteps hno => ?noTick⟩
  case start =>
    obtain ⟨t', ht', ⟨hc, -⟩ | ⟨hi, -⟩⟩ := step_clear_or_start hr hm
    · exact absurd hc hne
    · exact el_of_start hr hi ht
  case clear =>
    cases (step_clear hr hc).symm.trans ht
    exact elapsed_eq_elNow s hinv.cfgLegal.1
  case tick =>
    obtain ⟨t', ht', hel⟩ := step_of_tick hinv hsteps hend hdue
    cases ht'.symm.trans ht
    exact hel
  case noTick =>
    obtain ⟨t', ht', -, -, -, htime⟩ := step_of_no_tick hinv hsteps hno
    cases ht'.symm.trans ht
    exact htime.el_elNow hinv.preRange

/-! ## HOLD and its end (R88) -/

theorem SeqMove.hold_goes_on {s t : State} {p : DigitPos} (h : SeqMove s t) (hp : s.seq = .hold p)
    (hlt : holdCount s < s.dwell.toNat) :
    t.seq = .hold p ∧ t.cnt.toNat = holdCount s ∧ t.snap = s.snap ∧ StrategyKept s t := by
  cases h with
  | stayHold q hs _ ht hcnt hsnap hkept =>
    cases hs.symm.trans hp
    refine ⟨ht, ?_, hsnap, hkept⟩
    rw [hcnt, BitVec.toNat_ofNat, Nat.mod_eq_of_lt (by omega)]
  | stayOff hs | enterHold _ hs => cases hs.symm.trans hp
  | leaveHold _ _ hd | nextPass _ hd | blinkTerminates _ hd => omega

theorem SeqMove.hold_ends {s t : State} {p : DigitPos} (h : SeqMove s t) (hp : s.seq = .hold p)
    (hd : s.dwell.toNat ≤ holdCount s) :
    t.cnt = s.cnt ∧ (p ≠ 3 → t.seq = .gap (p + 1) ∧ t.snap = s.snap ∧ StrategyKept s t) ∧
      (p = 3 → t.seq = .gap 0 ∨ (t.seq = .off ∧ s.mode = .blink ∧ t.mode = .done)) := by
  cases h with
  | leaveHold q hs _ hq ht hcnt hsnap hkept =>
    cases hs.symm.trans hp
    exact ⟨hcnt, fun _ => ⟨ht, hsnap, hkept⟩, fun h3 => absurd h3 hq⟩
  | nextPass hs _ ht hcnt =>
    cases hs.symm.trans hp
    exact ⟨hcnt, fun h3 => absurd rfl h3, fun _ => .inl ht⟩
  | blinkTerminates hs _ ht hcnt _ hblink hdone =>
    cases hs.symm.trans hp
    exact ⟨hcnt, fun h3 => absurd rfl h3, fun _ => .inr ⟨ht, hblink, hdone⟩⟩
  | stayOff hs | enterHold _ hs => cases hs.symm.trans hp
  | stayHold _ _ hlt => omega

theorem ne_three_of_lt {p : DigitPos} (h : p.val < 3) : p ≠ 3 := by rintro rfl; exact absurd h (by decide)

/-- Settles O14: below DWELL the HOLD goes on, at or above it the HOLD ends. -/
theorem holdEndsWhenDwellIsReached : Obligations.HoldEndsWhenDwellIsReached := by
  intro s p hinv hp hsteps
  obtain ⟨t, ht, -, hmove⟩ := step_seqMove hsteps
  have hcount := holdCount_eq s hinv.cfgLegal.1
  refine ⟨t, ht, fun hlt => ?goesOn, fun hd hp3 => ?next, fun hd hp3 => ?last⟩
  case goesOn => rw [← hcount] at hlt ⊢; exact hmove.hold_goes_on hp hlt
  case next =>
    obtain ⟨hcnt, hnext, -⟩ := hmove.hold_ends hp (hcount ▸ hd)
    obtain ⟨hseq, hsnap, hkept⟩ := hnext (ne_three_of_lt hp3)
    exact ⟨hseq, hcnt, hsnap, hkept⟩
  case last =>
    obtain ⟨hcnt, -, hlast⟩ := hmove.hold_ends hp (hcount ▸ hd)
    exact ⟨hcnt, (hlast hp3).imp_right fun ⟨hoff, _, hdone⟩ => ⟨hoff, hdone⟩⟩

theorem SeqMove.at_passEnd {s t : State} (h : SeqMove s t) (hT : 1 ≤ s.cfg.tbCycles) (hend : AtPassEnd s) :
    t.seq = .gap 0 ∨ (t.seq = .off ∧ s.mode = .blink ∧ t.mode = .done) :=
  (h.hold_ends hend.1 (holdCount_eq s hT ▸ hend.2)).2.2 rfl

/-- Without a tick a pass end begins the next pass. -/
theorem SeqMove.next_pass {s t : State} (h : SeqMove s t) (hT : 1 ≤ s.cfg.tbCycles) (hend : AtPassEnd s)
    (hmode : t.mode = s.mode) : t.seq = .gap 0 :=
  (h.at_passEnd hT hend).resolve_right fun ⟨_, hblink, hdone⟩ => by simp [hmode, hblink] at hdone

/-- Settles O16: no tick fires, and a pass end that does not terminate the strategy begins the next pass; SNAP is
FRAME before and after it. -/
theorem passEndWithoutTickRepeatsFrame : Obligations.PassEndWithoutTickRepeatsFrame := by
  intro s hinv hsteps hend hdue
  obtain ⟨t, ht, hmove, hsnap, hkept, htime⟩ := step_of_no_tick hinv hsteps fun h => by simp [hdue] at h
  exact ⟨t, ht, hmove.next_pass hinv.cfgLegal.1 hend hkept.mode, hsnap.trans hinv.snapFrame, hkept,
    htime.el_elNow hinv.preRange⟩

/-- A SETREG DWELL takes effect after its cycle. -/
theorem step_setregDwell {s : State} {v : BitVec 16} (hr : (pins s).rst = false)
    (hc : currentCommand s = .setregDwell v) : ∃ t, step s = .next t ∧ SeqMove s t ∧ t.dwell = v := by
  have hsteps : SequencerSteps s := ⟨hr, by rw [hc]; rfl⟩
  obtain ⟨u, hu, hstorage, hstep⟩ := step_of_sequencerSteps hsteps
  rw [hc] at hu
  cases hu
  exact ⟨_, hstep, seqMove_sequencerStep hstorage, (sequencerStep_frame s _).dwell⟩

/-- Settles O27: in the cycle of the SETREG the old DWELL is not reached, so the HOLD goes on; the strobes it counted
reach the new DWELL, whether or not the next cycle adds one. -/
theorem loweredDwellEndsHoldNextCycle : Obligations.LoweredDwellEndsHoldNextCycle := by
  intro s p v hinv hp hr hc hlt hv
  obtain ⟨t, ht, hmove, hdwell⟩ := step_setregDwell hr hc
  rw [← holdCount_eq s hinv.cfgLegal.1] at hlt hv
  obtain ⟨hseq, hcnt, -, hkept⟩ := hmove.hold_goes_on hp hlt
  refine ⟨t, ht, hseq, hdwell, fun hsteps => ?_⟩
  obtain ⟨u, hu, -, hmove'⟩ := step_seqMove hsteps
  have hreached : t.dwell.toNat ≤ holdCount t := by
    rw [hdwell, holdCount, hcnt]
    omega
  obtain ⟨-, hnext, hlast⟩ := hmove'.hold_ends hseq hreached
  exact ⟨u, hu, fun hp3 => (hnext (ne_three_of_lt hp3)).1,
    fun hp3 => (hlast hp3).imp_right fun ⟨hoff, hblink, hdone⟩ => ⟨hkept.mode ▸ hblink, hdone, hoff⟩⟩

/-- Settles O20: in IDLE and DONE SEQ is OFF, from where the sequencer does not move and no pass ends. -/
theorem quiescentModesStayDark : Obligations.QuiescentModesStayDark := by
  intro s hinv hmode
  have hoff : s.seq = .off := hinv.seqMode.mpr hmode
  refine ⟨⟨digOut_off hoff, segOut_off hoff⟩, fun hsteps => ?_⟩
  obtain ⟨t, ht, hmove, -, hkept, htime⟩ := step_of_no_tick hinv hsteps fun ⟨⟨hhold, _⟩, _⟩ => by
    cases hhold.symm.trans hoff
  obtain ⟨hseq, -⟩ := hmove.from_off hoff
  exact ⟨t, ht, ⟨digOut_off hseq, segOut_off hseq⟩, hkept.mode, hkept.done, htime.pre, htime.el_elNow hinv.preRange⟩

/-- Settles O23: the command's own writes on the timebase's state; SEQ is OFF after it. -/
theorem clearStopsAndBlanks : Obligations.ClearStopsAndBlanks := by
  refine ⟨fun _ => rfl, fun s w hinv hop ⟨hr, hvalid, hword⟩ => ?_⟩
  have hc : currentCommand s = .clear := by rw [currentCommand, commandWord, if_pos hvalid, hword, decode_clear hop]
  have hel : elapsed s = BitVec.ofNat 16 (elNow s) := by
    rw [← elapsed_eq_elNow s hinv.cfgLegal.1, BitVec.ofNat_toNat, BitVec.setWidth_eq]
  refine ⟨_, step_clear hr hc, ?state, digOut_off rfl, segOut_off rfl⟩
  case state =>
    rw [← timebase_pre_mod s hinv.preRange, ← hel]
    rfl

end Sys2Proof.Machine

/-! Runs without reset and without a mode command: STATIC, a HOLD, a slot, a pass, and the passes up to a tick
(41_refresh.md R95, 70_reset_and_hazards.md R136, R139). -/

namespace Sys2Proof.Machine

/-! ## STATIC (43_animation.md R106) -/

theorem sequencerSteps_of_quietPins {s : State} (h : Quiet (pins s)) : SequencerSteps s :=
  ⟨h.1, by rw [currentCommand_quiet h.2]; rfl⟩

/-- The listed samples bring a mode command into no cycle, and where none is listed the command port is idle. -/
theorem sequencerSteps_of_noModeCommands {s : State} (h : NoModeCommands s) : SequencerSteps s := by
  cases hin : s.inputs with
  | nil =>
    have hpins : pins s = idleInputs s.cycle := by simp [pins, hin]
    exact sequencerSteps_of_quietPins (by rw [hpins]; exact ⟨rfl, rfl⟩)
  | cons i rest =>
    have hpins : pins s = i := by simp [pins, hin]
    unfold SequencerSteps currentCommand commandWord
    rw [hpins]
    exact h i (by simp [hin])

theorem noModeCommands_tail {s t : State} (h : NoModeCommands s) (hi : t.inputs = s.inputs.tail) (hc : t.cfg = s.cfg) :
    NoModeCommands t := by
  unfold NoModeCommands
  rw [hi, hc]
  exact fun i hmem => h i (List.mem_of_mem_tail hmem)

theorem tickDue_static {s : State} (h : s.mode = .static) : tickDue s = false := by simp [tickDue, interval, h]

/-- Settles O36, by induction on the cycles: STATIC has no interval, so no cycle has a tick. -/
theorem staticFrameNeverChanges : Obligations.StaticFrameNeverChanges := by
  intro s hinv hmode hcommands k
  have hrun : ∃ t, RunsTo k s t ∧ BlockInv t ∧ NoModeCommands t ∧ t.mode = .static ∧ t.frame = s.frame ∧
      t.snap = s.snap ∧ TimebaseRun k s t := by
    induction k with
    | zero => exact ⟨s, runsTo_zero s, hinv, hcommands, hmode, rfl, rfl, timebaseRun_refl hinv.preRange⟩
    | succ k ih =>
      obtain ⟨t, hrun, hinvt, hcommandst, hmodet, hframe, hsnap, htime⟩ := ih
      obtain ⟨u, hstep, -, hsnap', hkept, htime'⟩ := step_of_no_tick hinvt
        (sequencerSteps_of_noModeCommands hcommandst) fun h => by simp [tickDue_static hmodet] at h
      exact ⟨u, runsTo_step hrun hstep, hinvt.step hstep,
        noModeCommands_tail hcommandst (step_inputs hstep) htime'.cfg, hkept.mode.trans hmodet,
        hkept.frame.trans hframe, hsnap'.trans hsnap, htime.trans htime' hinv.cfgLegal.1⟩
  obtain ⟨t, hrun, -, -, hmodet, hframe, hsnap, htime⟩ := hrun
  exact ⟨t, hrun, hmodet, hframe, hsnap, htime.el⟩

/-! ## Quiet runs -/

theorem sequencerSteps_of_quiet {s : State} (h : QuietInputs s) : SequencerSteps s :=
  sequencerSteps_of_quietPins (pins_quiet h)

/-- `k` quiet cycles lead from `s` to `t`, whether or not a tick fires in them: what only commands write stays. -/
structure QuietRun (k : Nat) (s t : State) : Prop where
  run : RunsTo k s t
  inv : BlockInv t
  quiet : QuietInputs t
  cfg : t.cfg = s.cfg
  tgt : t.tgt = s.tgt
  nrep : t.nrep = s.nrep
  word : t.word = s.word
  wlen : t.wlen = s.wlen
  dwell : t.dwell = s.dwell
  blinkIvl : t.blinkIvl = s.blinkIvl
  scrollIvl : t.scrollIvl = s.scrollIvl
  clockIvl : t.clockIvl = s.clockIvl

theorem quietRun_refl {s : State} (hinv : BlockInv s) (hquiet : QuietInputs s) : QuietRun 0 s s :=
  ⟨runsTo_zero s, hinv, hquiet, rfl, rfl, rfl, rfl, rfl, rfl, rfl, rfl, rfl⟩

theorem QuietRun.trans {j k : Nat} {s t u : State} (h : QuietRun j s t) (h' : QuietRun k t u) : QuietRun (j + k) s u :=
  ⟨runsTo_add j k h.run h'.run, h'.inv, h'.quiet, h'.cfg.trans h.cfg, h'.tgt.trans h.tgt, h'.nrep.trans h.nrep,
    h'.word.trans h.word, h'.wlen.trans h.wlen, h'.dwell.trans h.dwell, h'.blinkIvl.trans h.blinkIvl,
    h'.scrollIvl.trans h.scrollIvl, h'.clockIvl.trans h.clockIvl⟩

theorem quietRun_step {s t : State} (hinv : BlockInv s) (hquiet : QuietInputs s) (hstep : step s = .next t) :
    QuietRun 1 s t := by
  have hrun : RunsTo 1 s t := runsTo_step (runsTo_zero s) hstep
  have hinvt := hinv.step hstep
  have hquiett := quietInputs_tail hquiet (step_inputs hstep)
  cases (step_quiet (pins_quiet hquiet)).symm.trans hstep
  have hframe := sequencerStep_frame s (timebase s)
  exact ⟨hrun, hinvt, hquiett, hframe.cfg, hframe.tgt, hframe.nrep, hframe.word, hframe.wlen, hframe.dwell,
    hframe.blinkIvl, hframe.scrollIvl, hframe.clockIvl⟩

theorem QuietRun.step {k : Nat} {s t u : State} (h : QuietRun k s t) (hstep : step t = .next u) :
    QuietRun (k + 1) s u :=
  h.trans (quietRun_step h.inv h.quiet hstep)

/-- `k` quiet cycles lead from `s` to `t`, and no tick fires in them. -/
structure NoTickRun (k : Nat) (s t : State) : Prop extends QuietRun k s t, TimebaseRun k s t, StrategyKept s t where
  snap : t.snap = s.snap

theorem noTickRun_refl {s : State} (hinv : BlockInv s) (hquiet : QuietInputs s) : NoTickRun 0 s s :=
  { quietRun_refl hinv hquiet, timebaseRun_refl hinv.preRange with
    mode := rfl, frame := rfl, pos := rfl, phase := rfl, hc := rfl, done := rfl, snap := rfl }

theorem NoTickRun.trans {j k : Nat} {s t u : State} (h : NoTickRun j s t) (h' : NoTickRun k t u) :
    NoTickRun (j + k) s u :=
  have hT : 0 < s.cfg.tbCycles := h.toQuietRun.cfg ▸ h.inv.cfgLegal.1
  { h.toQuietRun.trans h'.toQuietRun, h.toTimebaseRun.trans h'.toTimebaseRun hT with
    mode := h'.mode.trans h.mode
    frame := h'.frame.trans h.frame
    pos := h'.pos.trans h.pos
    phase := h'.phase.trans h.phase
    hc := h'.hc.trans h.hc
    done := h'.done.trans h.done
    snap := h'.snap.trans h.snap }

/-- One more quiet cycle, in which no tick is due at a pass end. -/
theorem NoTickRun.next {k : Nat} {s t : State} (h : NoTickRun k s t) (hno : NoTickNow t) :
    ∃ u, SeqMove t u ∧ NoTickRun (k + 1) s u := by
  obtain ⟨u, hstep, hmove, hsnap, hkept, htime⟩ := step_of_no_tick h.inv (sequencerSteps_of_quiet h.quiet) hno
  exact ⟨u, hmove, h.trans { quietRun_step h.inv h.quiet hstep, htime, hkept with snap := hsnap }⟩

/-! ## A HOLD -/

/-- After `k` cycles from `s` the strobes counted so far and the strobe of this cycle are those of `k + 1`. -/
theorem TimebaseRun.div_add_strobesNow {k : Nat} {s t : State} (h : TimebaseRun k s t) (hpre : t.pre < t.cfg.tbCycles) :
    (s.pre + k) / s.cfg.tbCycles + strobesNow t = (s.pre + (k + 1)) / s.cfg.tbCycles := by
  rw [strobesNow_eq_div hpre]
  rw [h.cfg] at hpre ⊢
  rw [h.pre, div_add_mod_add_div (by omega), Nat.add_assoc]

/-- While the strobes counted since its entry are below DWELL a HOLD goes on (R88); that its first cycle belongs to
it needs no strobe. -/
theorem noTickRun_hold {s : State} {p : DigitPos} (hinv : BlockInv s) (hquiet : QuietInputs s) (hp : s.seq = .hold p)
    (hcnt : s.cnt = 0) (k : Nat) (hk : k = 0 ∨ (s.pre + k) / s.cfg.tbCycles < s.dwell.toNat) :
    ∃ t, NoTickRun k s t ∧ t.seq = .hold p ∧ holdCount t = (s.pre + (k + 1)) / s.cfg.tbCycles := by
  have hcounted {j : Nat} {t : State} (h : NoTickRun j s t) (hc : t.cnt.toNat = (s.pre + j) / s.cfg.tbCycles) :
      holdCount t = (s.pre + (j + 1)) / s.cfg.tbCycles := by
    rw [holdCount_eq t h.inv.cfgLegal.1, hc, h.toTimebaseRun.div_add_strobesNow h.inv.preRange]
  induction k with
  | zero =>
    have hrefl := noTickRun_refl hinv hquiet
    refine ⟨s, hrefl, hp, hcounted hrefl ?_⟩
    rw [hcnt, Nat.add_zero, Nat.div_eq_of_lt hinv.preRange]
    rfl
  | succ k ih =>
    have hlt : (s.pre + (k + 1)) / s.cfg.tbCycles < s.dwell.toNat := hk.resolve_left (Nat.succ_ne_zero k)
    have hle : (s.pre + k) / s.cfg.tbCycles ≤ (s.pre + (k + 1)) / s.cfg.tbCycles := Nat.div_le_div_right (by omega)
    obtain ⟨t, hrun, hseq, hcount⟩ := ih (.inr (by omega))
    have hgoes : holdCount t < t.dwell.toNat := by rw [hcount, hrun.dwell]; exact hlt
    have hno : NoTickNow t := fun ⟨⟨_, hd⟩, _⟩ => by
      rw [← holdCount_eq t hrun.inv.cfgLegal.1] at hd; omega
    obtain ⟨u, hmove, hrun'⟩ := hrun.next hno
    obtain ⟨hsequ, hcntu, -⟩ := hmove.hold_goes_on hseq hgoes
    exact ⟨u, hrun', hsequ, hcounted hrun' (hcntu.trans hcount)⟩

/-- The last cycle of a HOLD, when no command is presented. -/
theorem step_of_holdEnd {s : State} {p : DigitPos} (hinv : BlockInv s) (hquiet : QuietInputs s) (hp : s.seq = .hold p)
    (hd : s.dwell.toNat ≤ holdCount s) : ∃ t, step s = .next t ∧ t.pre = (s.pre + 1) % s.cfg.tbCycles ∧
      (p.val < 3 → t.seq = .gap (p + 1)) ∧
      (p = 3 → t.seq = .gap 0 ∨ (t.seq = .off ∧ s.mode = .blink ∧ t.mode = .done)) := by
  have hsteps := sequencerSteps_of_quiet hquiet
  obtain ⟨t, ht, -, hmove⟩ := step_seqMove hsteps
  obtain ⟨-, hnext, hlast⟩ := hmove.hold_ends hp hd
  exact ⟨t, ht, step_pre hinv hsteps.1 ht, fun hp3 => (hnext (ne_three_of_lt hp3)).1, hlast⟩

theorem dwellCycles_bounds {d T pre : Nat} (hd : 1 ≤ d) (hpre : pre < T) :
    (d - 1) * T + 1 ≤ d * T - pre ∧ d * T - pre ≤ d * T := by
  obtain ⟨e, rfl⟩ : ∃ e, d = e + 1 := ⟨d - 1, by omega⟩
  rw [Nat.add_sub_cancel, Nat.add_mul, Nat.one_mul]
  omega

/-- Settles O43: the HOLD goes on while `(PRE + k) / T` is below DWELL, which is for `d * T - PRE` cycles
(`noTickRun_hold`); in the last of them the strobe comes that reaches DWELL. -/
theorem holdLastsDwellStrobes : Obligations.HoldLastsDwellStrobes := by
  intro s p hinv hp hcnt hquiet d T
  have hpre : s.pre < T := hinv.preRange
  have hbelow {k : Nat} (hk : s.pre + k < d * T) : k = 0 ∨ (s.pre + k) / s.cfg.tbCycles < s.dwell.toNat :=
    .inr ((Nat.div_lt_iff_lt_mul (by omega)).mpr hk)
  refine ⟨fun hd => ⟨dwellCycles_bounds hd hpre, fun k hk => ?during, ?ends⟩, fun hd => ?zero⟩
  case during =>
    obtain ⟨t, hrun, hseq, -⟩ := noTickRun_hold hinv hquiet hp hcnt k (hbelow (by omega))
    exact ⟨t, hrun.run, hseq, hrun.snap⟩
  case ends =>
    have hlong := (dwellCycles_bounds hd hpre).1
    obtain ⟨k, hk⟩ : ∃ k, d * T - s.pre = k + 1 := ⟨d * T - s.pre - 1, by omega⟩
    have hwhole : s.pre + (k + 1) = d * T := by omega
    obtain ⟨t, hrun, hseq, hcount⟩ := noTickRun_hold hinv hquiet hp hcnt k (hbelow (by omega))
    have hreached : t.dwell.toNat ≤ holdCount t := by
      rw [hcount, hrun.dwell, hwhole, Nat.mul_div_cancel _ (by omega)]
    obtain ⟨u, hu, hpreu, hnext, hlast⟩ := step_of_holdEnd hrun.inv hrun.quiet hseq hreached
    refine ⟨u, hk ▸ runsTo_step hrun.run hu, ?_, hnext, fun hp3 => (hlast hp3).imp_right And.left⟩
    rw [hpreu, hrun.toQuietRun.cfg, hrun.pre, Nat.mod_add_mod, Nat.add_assoc, hwhole, Nat.mul_mod_left]
  case zero =>
    obtain ⟨u, hu, -, hnext, hlast⟩ := step_of_holdEnd hinv hquiet hp (hd.le.trans (Nat.zero_le _))
    exact ⟨u, hu, hnext, fun hp3 => (hlast hp3).imp_right And.left⟩

/-! ## Slots and passes -/

/-- Every slot of the pass that begins in `s`, with the prescaler at 0, is one cycle of GAP and `h` cycles of HOLD: in
the cycle after `k` of them the HOLD has counted the strobes of the cycles `1` to `k + 1` of the slot, and the slot
ends with the prescaler at 0 again. -/
structure SlotLasts (s : State) (h : Nat) : Prop where
  pre : s.pre = 0
  pos : 0 < h
  below : ∀ k, k < h → k = 0 ∨ (1 % s.cfg.tbCycles + k) / s.cfg.tbCycles < s.dwell.toNat
  reached : s.dwell.toNat ≤ (1 % s.cfg.tbCycles + h) / s.cfg.tbCycles
  whole : (h + 1) % s.cfg.tbCycles = 0

/-- With a strobe in every cycle a HOLD lasts DWELL cycles, and one where DWELL is 0. -/
theorem slotLasts_of_one {s : State} (hinv : BlockInv s) (hT : s.cfg.tbCycles = 1) :
    SlotLasts s (max 1 s.dwell.toNat) := by
  have hpre := hinv.preRange
  constructor
  case below => intro k hk; rw [hT, Nat.div_one]; omega
  case reached => rw [hT, Nat.div_one]; omega
  case whole => rw [hT, Nat.mod_one]
  all_goals omega

/-- With more than one cycle per strobe the GAP's cycle belongs to the first strobe of the HOLD. -/
theorem slotLasts_of_two_le {s : State} (hT : 2 ≤ s.cfg.tbCycles) (hd : 1 ≤ s.dwell.toNat) (hpre : s.pre = 0) :
    SlotLasts s (s.dwell.toNat * s.cfg.tbCycles - 1) := by
  have hlong : 1 * 2 ≤ s.dwell.toNat * s.cfg.tbCycles := Nat.mul_le_mul hd hT
  have hone : 1 % s.cfg.tbCycles = 1 := Nat.mod_eq_of_lt hT
  have hslot : 1 + (s.dwell.toNat * s.cfg.tbCycles - 1) = s.dwell.toNat * s.cfg.tbCycles := by omega
  constructor
  case pre => exact hpre
  case pos => omega
  case below => exact fun k hk => .inr (by rw [hone]; exact (Nat.div_lt_iff_lt_mul (by omega)).mpr (by omega))
  case reached => rw [hone, hslot, Nat.mul_div_cancel _ (by omega)]
  case whole => rw [Nat.add_comm, hslot, Nat.mul_mod_left]

/-- A run of whole slots leads to a state in which slots last as long. -/
theorem SlotLasts.of_noTickRun {s t : State} {h n : Nat} (hs : SlotLasts s h) (hrun : NoTickRun (n * (h + 1)) s t) :
    SlotLasts t h := by
  obtain ⟨hpre, hpos, hbelow, hreached, hwhole⟩ := hs
  have hpre' : t.pre = 0 := by rw [hrun.pre, hpre, Nat.zero_add, Nat.mul_mod, hwhole, Nat.mul_zero, Nat.zero_mod]
  rw [← hrun.toQuietRun.cfg] at hbelow hreached hwhole
  rw [← hrun.dwell] at hbelow hreached
  exact ⟨hpre', hpos, hbelow, hreached, hwhole⟩

/-- Cycle `k` of a slot: its GAP, and then its HOLD, whose last cycle is cycle `h`. -/
theorem noTickRun_slot {s : State} {p : DigitPos} {h : Nat} (hs : SlotLasts s h) (hinv : BlockInv s)
    (hquiet : QuietInputs s) (hp : s.seq = .gap p) {k : Nat} (hk : k ≤ h) :
    ∃ t, NoTickRun k s t ∧ t.seq = (if k = 0 then .gap p else .hold p) ∧
      (k ≠ 0 → (t.dwell.toNat ≤ holdCount t ↔ k = h)) := by
  have hrefl := noTickRun_refl hinv hquiet
  cases k with
  | zero => exact ⟨s, hrefl, hp, fun h0 => absurd rfl h0⟩
  | succ k =>
    obtain ⟨u, hmove, hrunu⟩ := hrefl.next fun ⟨⟨hhold, _⟩, _⟩ => by cases hhold.symm.trans hp
    obtain ⟨hsequ, hcntu, -⟩ := hmove.from_gap hp
    have hpreu : u.pre = 1 % s.cfg.tbCycles := by rw [hrunu.pre, hs.pre]
    have hbelow (j : Nat) (hj : j < h) : j = 0 ∨ (u.pre + j) / u.cfg.tbCycles < u.dwell.toNat := by
      rw [hpreu, hrunu.toQuietRun.cfg, hrunu.dwell]
      exact hs.below j hj
    have hreached : u.dwell.toNat ≤ (u.pre + h) / u.cfg.tbCycles := by
      rw [hpreu, hrunu.toQuietRun.cfg, hrunu.dwell]
      exact hs.reached
    obtain ⟨t, hrunt, hseqt, hcount⟩ := noTickRun_hold hrunu.inv hrunu.quiet hsequ hcntu k (hbelow k hk)
    have hrun := hrunu.trans hrunt
    rw [Nat.zero_add, Nat.add_comm] at hrun
    refine ⟨t, hrun, hseqt, fun _ => ?_⟩
    rw [hcount, hrunt.dwell]
    constructor
    · intro hle
      by_contra hne
      have := (hbelow (k + 1) (by omega)).resolve_left (Nat.succ_ne_zero k)
      omega
    · rintro rfl
      exact hreached

/-- After a whole slot that is not the last one of its pass, the next position's slot begins. -/
theorem noTickRun_nextSlot {s : State} {p : DigitPos} {h : Nat} (hs : SlotLasts s h) (hinv : BlockInv s)
    (hquiet : QuietInputs s) (hp : s.seq = .gap p) (hp3 : p ≠ 3) :
    ∃ t, NoTickRun (h + 1) s t ∧ t.seq = .gap (p + 1) := by
  have hpos := hs.pos
  obtain ⟨t, hrun, hseq, hend⟩ := noTickRun_slot hs hinv hquiet hp le_rfl
  rw [if_neg (by omega)] at hseq
  obtain ⟨u, hmove, hrunu⟩ := hrun.next fun ⟨⟨hhold, _⟩, _⟩ => hp3 (SeqPos.hold.inj (hseq.symm.trans hhold))
  exact ⟨u, hrunu, ((hmove.hold_ends hseq ((hend (by omega)).mpr rfl)).2.1 hp3).1⟩

/-- The slots of a pass follow each other from the left (R93). -/
theorem noTickRun_slotStart {s : State} {h : Nat} (hs : SlotLasts s h) (hinv : BlockInv s) (hquiet : QuietInputs s)
    (hstart : s.seq = .gap 0) (p : DigitPos) : ∃ t, NoTickRun (p.val * (h + 1)) s t ∧ t.seq = .gap p := by
  induction p using Fin.induction with
  | zero => exact ⟨s, by simpa using noTickRun_refl hinv hquiet, hstart⟩
  | succ p ih =>
    obtain ⟨t, hrun, hseq⟩ := ih
    obtain ⟨u, hrunu, hsequ⟩ := noTickRun_nextSlot (hs.of_noTickRun hrun) hrun.inv hrun.quiet hseq
      (ne_three_of_lt p.isLt)
    refine ⟨u, ?_, by rw [hsequ, Fin.coeSucc_eq_succ]⟩
    have := hrun.trans hrunu
    rwa [← Nat.succ_mul] at this

/-- Every cycle of a pass: cycle `k` of the slot of position `p`; the last of them all is the pass end. -/
theorem noTickRun_pass {s : State} {h : Nat} (hs : SlotLasts s h) (hinv : BlockInv s) (hquiet : QuietInputs s)
    (hstart : s.seq = .gap 0) (p : DigitPos) {k : Nat} (hk : k ≤ h) :
    ∃ t, NoTickRun (p.val * (h + 1) + k) s t ∧ t.seq = (if k = 0 then .gap p else .hold p) ∧
      (AtPassEnd t ↔ p = 3 ∧ k = h) := by
  have hpos := hs.pos
  obtain ⟨t, hrun, hseq⟩ := noTickRun_slotStart hs hinv hquiet hstart p
  obtain ⟨u, hrunu, hsequ, hend⟩ := noTickRun_slot (hs.of_noTickRun hrun) hrun.inv hrun.quiet hseq hk
  refine ⟨u, hrun.trans hrunu, hsequ, ?_⟩
  rw [AtPassEnd, ← holdCount_eq u hrunu.inv.cfgLegal.1, hsequ]
  by_cases h0 : k = 0
  · simp [h0]; omega
  · simp [h0, hend h0]

/-- A whole pass leads to the next pass, or a blink has terminated. -/
theorem quietRun_pass {s : State} {h : Nat} (hs : SlotLasts s h) (hinv : BlockInv s) (hquiet : QuietInputs s)
    (hstart : s.seq = .gap 0) : ∃ t, QuietRun (4 * (h + 1)) s t ∧ t.pre = 0 ∧
      (t.seq = .gap 0 ∨ (s.mode = .blink ∧ t.mode = .done ∧ t.seq = .off)) := by
  obtain ⟨t, hrun, -, hend⟩ := noTickRun_pass hs hinv hquiet hstart 3 le_rfl
  obtain ⟨hseq, hd⟩ := hend.mpr ⟨rfl, rfl⟩
  rw [← holdCount_eq t hrun.inv.cfgLegal.1] at hd
  obtain ⟨u, hu, hpre, -, hlast⟩ := step_of_holdEnd hrun.inv hrun.quiet hseq hd
  have hlen : 3 * (h + 1) + h + 1 = 4 * (h + 1) := by omega
  have hwhole : (3 * (h + 1) + h + 1) % s.cfg.tbCycles = 0 := by
    rw [hlen, Nat.mul_mod, hs.whole, Nat.mul_zero, Nat.zero_mod]
  refine ⟨u, hlen ▸ hrun.toQuietRun.step hu, ?_, (hlast rfl).imp_right fun ⟨hoff, hblink, hdone⟩ =>
    ⟨hrun.mode ▸ hblink, hdone, hoff⟩⟩
  rw [hpre, hrun.toQuietRun.cfg, hrun.pre, Nat.mod_add_mod, hs.pre, Nat.zero_add]
  exact hwhole

/-- Settles O42: with a strobe in every cycle each slot is a GAP and `max 1 DWELL` cycles of HOLD. -/
theorem passVisitsEachPositionOnce : Obligations.PassVisitsEachPositionOnce := by
  intro s hinv hT hstart hquiet slot
  have hs := slotLasts_of_one hinv hT
  have hslot : max 1 s.dwell.toNat + 1 = slot := Nat.add_comm ..
  refine ⟨fun p k hk => ?_, ?_⟩
  · obtain ⟨t, hrun, hseq, -⟩ := noTickRun_pass hs hinv hquiet hstart p (k := k) (by omega)
    rw [hslot] at hrun
    exact ⟨t, hrun.run, hrun.snap, hrun.toStrategyKept, hseq⟩
  · obtain ⟨t, hrun, -, hnext⟩ := quietRun_pass hs hinv hquiet hstart
    rw [hslot] at hrun
    exact ⟨t, hrun.run, hnext⟩

/-- Settles O44: with the prescaler at 0 each slot is `d * T` cycles, the GAP among them. -/
theorem steadyPassLastsFourDwells : Obligations.SteadyPassLastsFourDwells := by
  intro s hinv hT hd hstart hpre hquiet slot
  have hs := slotLasts_of_two_le hT hd hpre
  have hslot : s.dwell.toNat * s.cfg.tbCycles - 1 + 1 = slot :=
    Nat.sub_add_cancel (Nat.mul_pos (by omega) (by omega))
  refine ⟨fun p k hk => ?_, ?_⟩
  · obtain ⟨t, hrun, hseq, -⟩ := noTickRun_pass hs hinv hquiet hstart p (k := k) (by omega)
    rw [hslot] at hrun
    exact ⟨t, hrun.run, hrun.snap, hseq⟩
  · obtain ⟨t, hrun, hpret, hnext⟩ := quietRun_pass hs hinv hquiet hstart
    rw [hslot] at hrun
    exact ⟨t, hrun.run, hpret, hnext.imp_right fun ⟨hblink, _, hoff⟩ => ⟨hblink, hoff⟩⟩

end Sys2Proof.Machine

/-! The spacing of ticks with a strobe in every cycle (70_reset_and_hazards.md R139), and what the ticks of a whole
scroll and of a whole blink show (43_animation.md R109, R112). -/

namespace Sys2Proof.Machine

/-! ## The blink ticks (R109) -/

/-- In `u` the blink of the frame `f` with bound `n` stands after `j` ticks. -/
structure BlinkView (f : Frame) (n : BitVec 16) (j : Nat) (u : State) : Prop where
  tgt : u.tgt = f
  nrep : u.nrep = n
  phase : u.phase = if j % 2 = 0 then .showing else .blanked
  frame : u.frame = if j % 2 = 0 then f else blank4
  hcBounded : 0 ≤ n.toInt → u.hc.toNat = j
  hcUnbounded : n.toInt < 0 → u.hc = 0

theorem BlinkView.blinkEnds_iff {f : Frame} {n : BitVec 16} {j : Nat} {u : State} (h : BlinkView f n j u) :
    blinkEnds u = true ↔ 0 ≤ n.toInt ∧ (j : Int) + 1 = 2 * n.toInt + 1 := by
  rw [blinkEnds_iff_lastHalfCycle, h.nrep]
  exact and_congr_right fun h0 => by rw [h.hcBounded h0]

theorem BlinkView.term_iff {f : Frame} {n : BitVec 16} {j : Nat} {u : State} (h : BlinkView f n j u) (t : State) :
    (tickBlink u t).term = true ↔ 0 ≤ n.toInt ∧ (j : Int) + 1 = 2 * n.toInt + 1 := by
  rw [← h.blinkEnds_iff]
  cases hends : blinkEnds u with
  | true => simp [tickBlink_last hends]
  | false =>
    obtain ⟨p, g, heq, -⟩ := tickBlink_flips hends t
    simp [heq]

theorem BlinkView.tick {f : Frame} {n : BitVec 16} {j : Nat} {u : State} (h : BlinkView f n j u)
    (hj : 0 ≤ n.toInt → (j : Int) < 2 * n.toInt) : BlinkView f n (j + 1) (tickBlink u u).state := by
  have hends : blinkEnds u = false := by
    rw [← Bool.not_eq_true, h.blinkEnds_iff]
    rintro ⟨h0, hlast⟩
    have := hj h0
    omega
  have hlt : 0 ≤ u.nrep.toInt → u.hc.toNat < 65535 := fun h0 => by
    rw [h.nrep] at h0
    have hbound : n.toInt < 32768 := BitVec.toInt_lt
    have := hj h0
    rw [h.hcBounded h0]
    omega
  obtain ⟨c, hcount, hbounded, hunbounded⟩ := countHalfCycle_writes_hc (r := u) (t := u) rfl hlt
  obtain ⟨p, g, hflip, hshowing, hblanked⟩ := tickBlink_flips hends u
  rw [h.nrep] at hbounded hunbounded
  have hcounted : 0 ≤ n.toInt → c.toNat = j + 1 := fun h0 => (hbounded h0).trans (by rw [h.hcBounded h0])
  have hflipped : p = (if (j + 1) % 2 = 0 then .showing else .blanked) ∧ g = if (j + 1) % 2 = 0 then f else blank4 := by
    have hphase := h.phase
    rcases Nat.mod_two_eq_zero_or_one j with heven | hodd
    · rw [if_pos heven] at hphase
      simpa [Nat.succ_mod_two_eq_one_iff.mpr heven] using hshowing hphase
    · rw [if_neg (by omega)] at hphase
      simpa [Nat.succ_mod_two_eq_zero_iff.mpr hodd, h.tgt] using hblanked hphase
  rw [hflip, hcount]
  exact ⟨h.tgt, h.nrep, hflipped.1, hflipped.2, hcounted, fun hneg => (hunbounded hneg).trans (h.hcUnbounded hneg)⟩

theorem blinkView_start (n : BitVec 16) (s : State) :
    BlinkView (pad4 s) n 0 (armBlink n (pad4 s) (startStrategy .blink (pad4 s) s)) :=
  ⟨rfl, rfl, rfl, rfl, fun _ => rfl, fun _ => rfl⟩

theorem blinkView_iterate {f : Frame} {n : BitVec 16} {s0 : State} (h : BlinkView f n 0 s0) (j : Nat)
    (hj : 0 ≤ n.toInt → (j : Int) ≤ 2 * n.toInt) :
    BlinkView f n j (Nat.iterate (fun u => (tickBlink u u).state) j s0) := by
  induction j with
  | zero => exact h
  | succ j ih =>
    rw [Function.iterate_succ_apply']
    exact (ih fun h0 => by have := hj h0; omega).tick fun h0 => by have := hj h0; omega

/-- Settles O41, by induction on the ticks (`blinkView_iterate`). -/
theorem blinkAlternatesTwoNPlusOneTimes : Obligations.BlinkAlternatesTwoNPlusOneTimes := by
  intro s n
  refine ⟨_, rfl, fun j => ⟨fun h0 hj => ?bounded, fun hneg => ?unbounded⟩⟩
  case bounded =>
    have hview := blinkView_iterate (blinkView_start n s) j fun _ => hj
    exact ⟨hview.frame, hview.tgt, hview.hcBounded h0, (hview.term_iff _).trans (and_iff_right h0)⟩
  case unbounded =>
    have hview := blinkView_iterate (blinkView_start n s) j fun h0 => by omega
    refine ⟨hview.frame, hview.tgt, hview.hcUnbounded hneg, ?_⟩
    rw [← Bool.not_eq_true, hview.term_iff]
    omega

/-! ## The passes up to a tick (70_reset_and_hazards.md R139) -/

/-- A pass begins in `s` right after a start or a tick, in a mode with interval `ivl` and with a strobe in every
cycle of a host that presents no command. -/
structure TickPeriod (s : State) (ivl : Nat) : Prop where
  inv : BlockInv s
  quiet : QuietInputs s
  everyCycle : s.cfg.tbCycles = 1
  start : s.seq = .gap 0
  el : s.el = 0
  interval : interval s = some ivl

theorem interval_congr {s t : State} (hmode : t.mode = s.mode) (hb : t.blinkIvl = s.blinkIvl)
    (hs : t.scrollIvl = s.scrollIvl) (hc : t.clockIvl = s.clockIvl) : interval t = interval s := by
  unfold interval
  rw [hmode, hb, hs, hc]

theorem NoTickRun.interval {k : Nat} {s t : State} (h : NoTickRun k s t) : interval t = interval s :=
  interval_congr h.mode h.blinkIvl h.scrollIvl h.clockIvl

theorem passCycles_congr {s t : State} (h : t.dwell = s.dwell) : passCycles t = passCycles s := by
  rw [passCycles, h, passCycles]

theorem passesPerTick_congr {s t : State} (h : t.dwell = s.dwell) (ivl : Nat) :
    passesPerTick t ivl = passesPerTick s ivl := by
  rw [passesPerTick, passCycles_congr h, passesPerTick]

theorem passCycles_pos (s : State) : 0 < passCycles s := by unfold passCycles; omega

theorem passesPerTick_pos (s : State) (ivl : Nat) : 0 < passesPerTick s ivl := by unfold passesPerTick; omega

/-- `m` passes are the fewest, but at least one, that last as long as the interval. -/
theorem passesPerTick_le_iff (s : State) (ivl : Nat) {j : Nat} (hj : 0 < j) :
    passesPerTick s ivl ≤ j ↔ ivl ≤ j * passCycles s := by
  have hP := passCycles_pos s
  have hceil : (ivl + passCycles s - 1) / passCycles s ≤ j ↔ ivl ≤ j * passCycles s := by
    rw [← Nat.ceilDiv_eq_add_pred_div, ceilDiv_le_iff_le_mul hP, Nat.mul_comm]
  rw [passesPerTick, Nat.max_le, hceil]
  exact and_iff_right hj

theorem NoTickRun.elNow_of_everyCycle {k : Nat} {s t : State} (h : NoTickRun k s t) (hT : s.cfg.tbCycles = 1)
    (hpre : s.pre < s.cfg.tbCycles) (hel : s.el = 0) : elNow t = min (k + 1) 65535 := by
  have hcfg := h.toQuietRun.cfg
  have hpret := h.inv.preRange
  have helt : t.el.toNat = min (0 + (s.pre + k)) 65535 := h.el.trans (by rw [hT, Nat.div_one, hel]; rfl)
  rw [hcfg, hT] at hpret
  rw [elNow, strobesNow_eq_div h.inv.preRange, hcfg, hT, Nat.div_one, helt]
  omega

/-- In every cycle before the first tick the interval is compared with the cycles so far. -/
theorem TickPeriod.tickDue_iff {s t : State} {ivl k : Nat} (h : TickPeriod s ivl) (hrun : NoTickRun k s t) :
    tickDue t = true ↔ ivl ≤ k + 1 := by
  have hivl : ivl ≤ 65535 := by
    have hi := h.interval
    unfold Machine.interval at hi
    split at hi <;> cases hi <;> omega
  have hdue : tickDue t = decide (ivl ≤ elNow t) := by rw [tickDue, hrun.interval, h.interval]
  rw [hdue, decide_eq_true_iff, hrun.elNow_of_everyCycle h.everyCycle h.inv.preRange h.el]
  omega

theorem lastCycle_iff {q i h : Nat} (hq : q < 4) (hi : i ≤ h) :
    q = 3 ∧ i = h ↔ q * (h + 1) + i + 1 = 4 * (h + 1) := by
  interval_cases q <;> omega

/-- The cycles of a pass, and its end among them. -/
theorem noTickRun_cycleOfPass {s : State} (hinv : BlockInv s) (hT : s.cfg.tbCycles = 1) (hquiet : QuietInputs s)
    (hstart : s.seq = .gap 0) {k : Nat} (hk : k < passCycles s) :
    ∃ t, NoTickRun k s t ∧ (AtPassEnd t ↔ k + 1 = passCycles s) := by
  generalize hh : max 1 s.dwell.toNat = h
  have hs : SlotLasts s h := hh ▸ slotLasts_of_one hinv hT
  have hP : passCycles s = 4 * (h + 1) := by rw [passCycles, hh, Nat.add_comm]
  rw [hP] at hk ⊢
  have hq : k / (h + 1) < 4 := (Nat.div_lt_iff_lt_mul (by omega)).mpr hk
  have hi : k % (h + 1) ≤ h := Nat.le_of_lt_succ (Nat.mod_lt k (by omega))
  obtain ⟨t, hrun, -, hend⟩ := noTickRun_pass hs hinv hquiet hstart ⟨k / (h + 1), hq⟩ hi
  have hlast := lastCycle_iff hq hi
  rw [Nat.div_add_mod'] at hrun hlast
  exact ⟨t, hrun, hend.trans ((and_congr_left' Fin.ext_iff).trans hlast)⟩

/-- Before the tick the passes follow each other, by induction on them: none of their ends finds the tick due. -/
theorem TickPeriod.passStart {s : State} {ivl : Nat} (h : TickPeriod s ivl) {j : Nat}
    (hj : j < passesPerTick s ivl) : ∃ t, NoTickRun (j * passCycles s) s t ∧ t.seq = .gap 0 := by
  induction j with
  | zero => exact ⟨s, by simpa using noTickRun_refl h.inv h.quiet, h.start⟩
  | succ j ih =>
    have hP := passCycles_pos s
    obtain ⟨t, hrunt, hstart⟩ := ih (by omega)
    obtain ⟨v, hrunv, hend⟩ := noTickRun_cycleOfPass hrunt.inv (hrunt.toQuietRun.cfg ▸ h.everyCycle) hrunt.quiet hstart
      (k := passCycles s - 1) (by rw [passCycles_congr hrunt.dwell]; omega)
    rw [passCycles_congr hrunt.dwell] at hend
    have hend := hend.mpr (by omega)
    have hrun := hrunt.trans hrunv
    have hlen : j * passCycles s + (passCycles s - 1) + 1 = (j + 1) * passCycles s := by rw [Nat.succ_mul]; omega
    have hno : ¬tickDue v = true := by
      rw [h.tickDue_iff hrun, hlen, ← passesPerTick_le_iff s ivl (Nat.succ_pos j)]
      omega
    obtain ⟨u, hmove, hrunu⟩ := hrun.next fun hdue => hno hdue.2
    exact ⟨u, hlen ▸ hrunu, hmove.next_pass hrunv.inv.cfgLegal.1 hend (hrunu.mode.trans hrun.mode.symm)⟩

theorem dvd_mul_add_succ_iff {P i : Nat} (hi : i < P) (j : Nat) : P ∣ j * P + i + 1 ↔ i + 1 = P := by
  rw [Nat.add_assoc, Nat.dvd_add_right (Nat.dvd_mul_left P j)]
  exact ⟨fun h => Nat.le_antisymm hi (Nat.le_of_dvd (Nat.succ_pos i) h), fun h => h ▸ dvd_rfl⟩

/-- The cycles up to the tick: the last cycle of them is the only one with the tick due at a pass end. -/
theorem TickPeriod.cycle {s : State} {ivl : Nat} (h : TickPeriod s ivl) {k : Nat}
    (hk : k < passesPerTick s ivl * passCycles s) : ∃ t, NoTickRun k s t ∧
      (AtPassEnd t ∧ tickDue t = true ↔ k + 1 = passesPerTick s ivl * passCycles s) := by
  have hP := passCycles_pos s
  obtain ⟨t, hrunt, hstart⟩ := h.passStart ((Nat.div_lt_iff_lt_mul hP).mpr hk)
  have hi : k % passCycles s < passCycles s := Nat.mod_lt k hP
  obtain ⟨u, hrunu, hend⟩ := noTickRun_cycleOfPass hrunt.inv (hrunt.toQuietRun.cfg ▸ h.everyCycle) hrunt.quiet hstart
    (k := k % passCycles s) (by rwa [passCycles_congr hrunt.dwell])
  have hrun := hrunt.trans hrunu
  have hdvd := dvd_mul_add_succ_iff hi (k / passCycles s)
  rw [Nat.div_add_mod'] at hrun hdvd
  refine ⟨u, hrun, ?_⟩
  rw [hend, passCycles_congr hrunt.dwell, ← hdvd, h.tickDue_iff hrun]
  constructor
  · rintro ⟨⟨c, hc⟩, hivl⟩
    rw [Nat.mul_comm] at hc
    rw [hc] at hivl ⊢
    have hc0 : 0 < c := Nat.pos_of_mul_pos_right (a := c) (b := passCycles s) (by omega)
    have hle := (passesPerTick_le_iff s ivl hc0).mpr hivl
    have hge : c ≤ passesPerTick s ivl := Nat.le_of_mul_le_mul_right (by omega) hP
    rw [Nat.le_antisymm hge hle]
  · intro hlast
    rw [hlast]
    exact ⟨Nat.dvd_mul_left .., (passesPerTick_le_iff s ivl (passesPerTick_pos s ivl)).mp le_rfl⟩

theorem tickCycles_pos (s : State) (ivl : Nat) : 0 < passesPerTick s ivl * passCycles s :=
  Nat.mul_pos (passesPerTick_pos s ivl) (passCycles_pos s)

/-- The cycle of the tick. -/
theorem TickPeriod.tickCycle {s : State} {ivl : Nat} (h : TickPeriod s ivl) :
    ∃ t, NoTickRun (passesPerTick s ivl * passCycles s - 1) s t ∧ AtPassEnd t ∧ tickDue t = true := by
  have hpos := tickCycles_pos s ivl
  obtain ⟨t, hrun, htick⟩ := h.cycle (k := passesPerTick s ivl * passCycles s - 1) (by omega)
  exact ⟨t, hrun, htick.mpr (by omega)⟩

/-- The time between ticks is less than the interval and one more pass. -/
theorem tickCycles_lt (s : State) {ivl : Nat} (hivl : 1 ≤ ivl) :
    passesPerTick s ivl * passCycles s < ivl + passCycles s := by
  obtain ⟨j, hj⟩ : ∃ j, passesPerTick s ivl = j + 1 := ⟨_, (Nat.sub_add_cancel (passesPerTick_pos s ivl)).symm⟩
  rw [hj, Nat.succ_mul, Nat.add_lt_add_iff_right]
  rcases Nat.eq_zero_or_pos j with rfl | hj0
  · omega
  · have := passesPerTick_le_iff s ivl hj0
    omega

/-- Settles O45: the cycles up to the tick (`TickPeriod.cycle`) are `m` passes, where `m` passes are the fewest that
last as long as the interval. -/
theorem ticksFallAtEveryMthPassEnd : Obligations.TicksFallAtEveryMthPassEnd := by
  intro s ivl hinv hT hstart hel hquiet hivl P m
  have h : TickPeriod s ivl := ⟨hinv, hquiet, hT, hstart, hel, hivl⟩
  have hpos := tickCycles_pos s ivl
  obtain ⟨t, hrun, hend, hdue⟩ := h.tickCycle
  refine ⟨fun j hj => ?passes, fun k hk => ?before, ⟨t, hrun.run, hend, hdue⟩, ?after,
    (passesPerTick_le_iff s ivl (passesPerTick_pos s ivl)).mp le_rfl, tickCycles_lt s⟩
  case passes =>
    obtain ⟨u, hrunu, hseq⟩ := h.passStart hj
    exact ⟨u, hrunu.run, hseq⟩
  case before =>
    obtain ⟨u, hrunu, htick⟩ := h.cycle hk
    exact ⟨u, hrunu.run, hrunu.snap, hrunu.toStrategyKept, fun hendu hdueu => htick.mp ⟨hendu, hdueu⟩⟩
  case after =>
    have hsteps := sequencerSteps_of_quiet hrun.quiet
    obtain ⟨u, hu, helu⟩ := step_of_tick hrun.inv hsteps hend hdue
    obtain ⟨u', hu', -, hmove⟩ := step_seqMove hsteps
    cases hu'.symm.trans hu
    exact ⟨u, Nat.sub_add_cancel hpos ▸ runsTo_step hrun.run hu, helu,
      (hmove.at_passEnd hrun.inv.cfgLegal.1 hend).imp_right fun ⟨_, _, hdone⟩ => hdone⟩

/-- After a tick that does not terminate the strategy the next period begins. -/
theorem TickPeriod.again {s t u : State} {ivl k : Nat} (h : TickPeriod s ivl) (hrun : NoTickRun k s t)
    (hstep : step t = .next u) (hmode : u.mode = t.mode) (hseq : u.seq = .gap 0) (hel : u.el = 0) :
    TickPeriod u ivl := by
  have hrunu := hrun.toQuietRun.step hstep
  exact ⟨hrunu.inv, hrunu.quiet, hrunu.cfg ▸ h.everyCycle, hseq, hel,
    (interval_congr (hmode.trans hrun.mode) hrunu.blinkIvl hrunu.scrollIvl hrunu.clockIvl).trans h.interval⟩

/-! ## A whole scroll (43_animation.md R112) -/

theorem ScrollView.of_noTickRun {s t u : State} {j k : Nat} (h : ScrollView s j t) (hrun : NoTickRun k t u) :
    ScrollView s j u :=
  ⟨hrun.word.trans h.word, hrun.wlen.trans h.wlen, by rw [hrun.pos, h.pos], hrun.frame.trans h.frame⟩

/-- The pass end of a quiet cycle with a scroll tick. -/
theorem step_scrollTick {s : State} (hinv : BlockInv s) (hquiet : QuietInputs s) (hend : AtPassEnd s)
    (hdue : tickDue s = true) (hmode : s.mode = .scroll) :
    step s = .next (advanceInputs (startPass (shiftIn s.frame (scrollChar s))
      (tickScroll s (clearElapsed (timebase s))).state)) := by
  have hT := hinv.cfgLegal.1
  have hd : s.dwell.toNat ≤ holdCount s := holdCount_eq s hT ▸ hend.2
  have hpass : sequencerStep s (timebase s) = passEnd s (timebase s) := by
    simp [sequencerStep, hend.1, holdStep, hd]
  rw [step_quiet (pins_quiet hquiet), hpass,
    passEnd_of_tick (fires_eq_tickDue s hT ▸ hdue) (tick_scroll hmode _)]
  rfl

/-- From one scroll tick to the next. -/
theorem ScrollView.nextTick {s t : State} {ivl k : Nat} (h : ScrollView s k t) (hper : TickPeriod t ivl)
    (hmode : t.mode = .scroll) : ∃ u, QuietRun (passesPerTick t ivl * passCycles t) t u ∧ TickPeriod u ivl ∧
      u.mode = .scroll ∧ ScrollView s (k + 1) u := by
  obtain ⟨v, hrun, hend, hdue⟩ := hper.tickCycle
  have hstep := step_scrollTick hrun.inv hrun.quiet hend hdue (hrun.mode.trans hmode)
  have hview := h.of_noTickRun hrun
  have hL : s.wlen.toNat ≤ 124 := h.wlen ▸ hper.inv.wlen_le
  have htick := hview.tick hL (t := clearElapsed (timebase v)) hview.word hview.wlen
  exact ⟨_, Nat.sub_add_cancel (tickCycles_pos t ivl) ▸ hrun.toQuietRun.step hstep, hper.again hrun hstep rfl rfl rfl,
    hrun.mode.trans hmode, ⟨htick.word, htick.wlen, htick.pos, htick.frame⟩⟩

/-- Settles O46, by induction on the ticks. -/
theorem scrollRunShowsTheStream : Obligations.ScrollRunShowsTheStream := by
  intro s hinv hT hquiet hmode hstart hel hpos hframe k
  have hrun : ∃ t, QuietRun (k * (passesPerTick s s.scrollIvl.toNat * passCycles s)) s t ∧
      TickPeriod t s.scrollIvl.toNat ∧ t.mode = .scroll ∧ ScrollView s k t := by
    induction k with
    | zero =>
      have hper : TickPeriod s s.scrollIvl.toNat := ⟨hinv, hquiet, hT, hstart, hel, by rw [interval, hmode]⟩
      exact ⟨s, by simpa using quietRun_refl hinv hquiet, hper, hmode, ⟨rfl, rfl, by simp [hpos], hframe⟩⟩
    | succ k ih =>
      obtain ⟨t, hrunt, hper, hmodet, hview⟩ := ih
      obtain ⟨u, hrunu, hperu, hmodeu, hviewu⟩ := hview.nextTick hper hmodet
      rw [passesPerTick_congr hrunt.dwell, passCycles_congr hrunt.dwell] at hrunu
      exact ⟨u, Nat.succ_mul .. ▸ hrunt.trans hrunu, hperu, hmodeu, hviewu⟩
  obtain ⟨t, hrunt, hper, hmodet, hview⟩ := hrun
  refine ⟨t, hrunt.run, hmodet, hper.start, hview.pos, hper.inv.snapFrame, fun i => ?_⟩
  rw [hview.frame]
  exact tapeWindow_getElem s k i

/-! ## A whole bounded blink (43_animation.md R109) -/

theorem blinkIvl_le_elNow {s : State} (hmode : s.mode = .blink) (hdue : tickDue s = true) :
    s.blinkIvl.toNat ≤ elNow s := by
  simpa [tickDue, interval, hmode] using hdue

/-- A tick of a bounded blink that is not the last one. -/
theorem TickPeriod.nextBlinkTick {s : State} {ivl : Nat} (h : TickPeriod s ivl) (hmode : s.mode = .blink)
    (h0 : 0 ≤ s.nrep.toInt) (hlt : (s.hc.toNat : Int) < 2 * s.nrep.toInt) :
    ∃ t, QuietRun (passesPerTick s ivl * passCycles s) s t ∧ TickPeriod t ivl ∧ t.mode = .blink ∧
      t.hc.toNat = s.hc.toNat + 1 := by
  obtain ⟨v, hrun, hend, hdue⟩ := h.tickCycle
  have hmodev := hrun.mode.trans hmode
  obtain ⟨t, hstep, hel, -, -, -, hbounded, -, -, hflips⟩ := blinkTickFlipsOrTerminates v hrun.inv
    (sequencerSteps_of_quiet hrun.quiet) hend hmodev (blinkIvl_le_elNow hmodev hdue)
  rw [hrun.nrep, hrun.hc] at hbounded hflips
  obtain ⟨hmodet, hseq, -⟩ := hflips (by omega)
  exact ⟨t, Nat.sub_add_cancel (tickCycles_pos s ivl) ▸ hrun.toQuietRun.step hstep,
    h.again hrun hstep (hmodet.trans hmodev.symm) hseq hel, hmodet, hbounded h0⟩

/-- The last tick of a bounded blink, which leaves the target in FRAME. -/
theorem TickPeriod.lastBlinkTick {s : State} {ivl : Nat} (h : TickPeriod s ivl) (hmode : s.mode = .blink)
    (h0 : 0 ≤ s.nrep.toInt) (hlast : (s.hc.toNat : Int) = 2 * s.nrep.toInt) :
    ∃ t, QuietRun (passesPerTick s ivl * passCycles s) s t ∧ t.mode = .done ∧ t.seq = .off ∧ t.done = true ∧
      t.frame = s.tgt := by
  obtain ⟨v, hrun, hend, hdue⟩ := h.tickCycle
  have hmodev := hrun.mode.trans hmode
  obtain ⟨t, hstep, -, -, -, -, -, -, hends, -⟩ := blinkTickFlipsOrTerminates v hrun.inv
    (sequencerSteps_of_quiet hrun.quiet) hend hmodev (blinkIvl_le_elNow hmodev hdue)
  rw [hrun.nrep, hrun.hc] at hends
  obtain ⟨hmodet, hseq, hdone, hframe, -, -, hshowing⟩ := hends h0 (by omega)
  have hframev := hrun.inv.blinkFrame hmodev
  rw [hshowing, hrun.toQuietRun.tgt] at hframev
  exact ⟨t, Nat.sub_add_cancel (tickCycles_pos s ivl) ▸ hrun.toQuietRun.step hstep, hmodet, hseq, hdone,
    hframe.trans hframev⟩

/-- The periods of a bounded blink, by induction on its ticks. -/
theorem TickPeriod.blinkTicks {s : State} {ivl : Nat} (h : TickPeriod s ivl) (hmode : s.mode = .blink)
    (h0 : 0 ≤ s.nrep.toInt) (hhc : s.hc = 0) {j : Nat} (hj : j ≤ 2 * s.nrep.toInt.toNat) :
    ∃ t, QuietRun (j * (passesPerTick s ivl * passCycles s)) s t ∧ TickPeriod t ivl ∧ t.mode = .blink ∧
      t.hc.toNat = j := by
  induction j with
  | zero => exact ⟨s, by simpa using quietRun_refl h.inv h.quiet, h, hmode, by simp [hhc]⟩
  | succ j ih =>
    obtain ⟨t, hrun, hper, hmodet, hhct⟩ := ih (by omega)
    have hnrep := hrun.nrep
    obtain ⟨u, hrunu, hperu, hmodeu, hhcu⟩ := hper.nextBlinkTick hmodet (hnrep ▸ h0) (by rw [hnrep, hhct]; omega)
    rw [passesPerTick_congr hrun.dwell, passCycles_congr hrun.dwell] at hrunu
    exact ⟨u, Nat.succ_mul .. ▸ hrun.trans hrunu, hperu, hmodeu, hhcu.trans (by rw [hhct])⟩

/-- Settles O47: `2n` periods that end in a flip (`TickPeriod.blinkTicks`), and the one whose tick is the last. -/
theorem boundedBlinkEndsDark : Obligations.BoundedBlinkEndsDark := by
  intro s hinv hT hquiet hmode hstart hel hhc _ h0
  generalize hL : passesPerTick s s.blinkIvl.toNat * passCycles s = L
  have h : TickPeriod s s.blinkIvl.toNat := ⟨hinv, hquiet, hT, hstart, hel, by rw [interval, hmode]⟩
  have hpos : 0 < L := hL ▸ tickCycles_pos s _
  have hticks {j : Nat} (hj : j ≤ 2 * s.nrep.toInt.toNat) := h.blinkTicks hmode h0 hhc hj
  simp only [hL] at hticks
  refine ⟨fun k hk => ?during, ?ends⟩
  case during =>
    obtain ⟨t, hrun, hper, hmodet, -⟩ := hticks (Nat.le_of_lt_succ ((Nat.div_lt_iff_lt_mul hpos).mpr hk))
    obtain ⟨u, hrunu, -⟩ := hper.cycle (k := k % L) (by
      rw [passesPerTick_congr hrun.dwell, passCycles_congr hrun.dwell, hL]; exact Nat.mod_lt k hpos)
    exact ⟨u, Nat.div_add_mod' k L ▸ (hrun.trans hrunu.toQuietRun).run, hrunu.mode.trans hmodet⟩
  case ends =>
    obtain ⟨t, hrun, hper, hmodet, hhct⟩ := hticks le_rfl
    have hnrep := hrun.nrep
    obtain ⟨u, hrunu, hmodeu, hoff, hdone, hframe⟩ := hper.lastBlinkTick hmodet (hnrep ▸ h0)
      (by rw [hnrep, hhct]; omega)
    rw [passesPerTick_congr hrun.dwell, passCycles_congr hrun.dwell, hL] at hrunu
    exact ⟨u, (Nat.succ_mul .. ▸ hrun.trans hrunu : QuietRun (_ * L) s u).run, hmodeu, hdone,
      ⟨digOut_off hoff, segOut_off hoff⟩, hframe.trans hrun.tgt⟩

end Sys2Proof.Machine

/-! The encoder and the display under a legal glyph table (40_encoder.md R69 to R76). -/

namespace Sys2Proof.Machine

/-- Settles O21: on `enc_out` and in a slot the output is a lookup, of which `Laws/Glyph` says what the constraints
give. -/
theorem encoderMeetsTheGlyphConstraints : Obligations.EncoderMeetsTheGlyphConstraints := by
  refine ⟨fun s t hc hcfg => ⟨fun hfold => ?case, fun h1 hI => ?one, fun h0 hO => ?zero⟩, fun s hc => ?blank,
    fun s p hc hp hblank => ?blankSlot, fun s t p q hc hcfg hp hq => ⟨fun h1 hI => ?oneSlot, fun h0 hO => ?zeroSlot⟩⟩
  all_goals have hg := hc.2.2.2
  case case => rw [encOut, encOut, hcfg, ← glyphAt_foldCase hg, hfold, glyphAt_foldCase hg]
  case one => rw [encOut, encOut, hcfg, h1]; exact glyphAt_one hg hI
  case zero => rw [encOut, encOut, hcfg, h0]; exact glyphAt_zero hg hO
  case blank => exact glyphAt_blank hg
  case blankSlot => rw [segOut_slot hp]; exact glyphAt_blank hg hblank
  case oneSlot => rw [segOut_slot hp, segOut_slot hq, hcfg, h1]; exact glyphAt_one hg hI
  case zeroSlot => rw [segOut_slot hp, segOut_slot hq, hcfg, h0]; exact glyphAt_zero hg hO

end Sys2Proof.Machine

/-! The commands that write the storage or the error record alone, in their cycle (42_commands.md R100, R101,
30_encoding.md R63), and the START commands' frames (43_animation.md R102, R107, R110). -/

namespace Sys2Proof.Machine

/-- `f` reads and writes only what a non-mode command may, and the input schedule. -/
abbrev HostWrite (f : State → State) : Prop := ∀ a t, f (withHostSide a t) = withHostSide (f a) t

theorem withHostSide_sequencerStep (r t : State) : withHostSide t (sequencerStep r t) = sequencerStep r t :=
  (sequencerStep_withHostSide r t t).symm

/-- Such a write and the sequencer step may be made in either order (41_refresh.md R90). -/
theorem HostWrite.sequencerStep {f : State → State} (hf : HostWrite f) (r t : State) :
    sequencerStep r (f t) = f (sequencerStep r t) :=
  calc Machine.sequencerStep r (f t)
      = Machine.sequencerStep r (withHostSide (f t) t) := by rw [← hf]; rfl
    _ = withHostSide (f t) (Machine.sequencerStep r t) := sequencerStep_withHostSide r (f t) t
    _ = f (withHostSide t (Machine.sequencerStep r t)) := (hf ..).symm
    _ = f (Machine.sequencerStep r t) := by rw [withHostSide_sequencerStep]

/-- The cycle of a command whose meaning is the write `f` is the cycle without a command, and then `f`. -/
theorem HostWrite.step_presenting {f : State → State} (hf : HostWrite f) {s : State} {w : CmdWord}
    (hm : isModeCommand s.cfg.hasClock (decode w) = false)
    (hu : exec (decode w) (timebase s) = .next (f (timebase s))) :
    step (presenting s w) = .next (advanceInputs (f (Machine.sequencerStep s (timebase s)))) := by
  rw [Machine.step_presenting hu, sequencer, if_neg (by simp [hm]), hf.sequencerStep]

/-- Settles O26: the write of the register, which the sequencer step does not meet. -/
theorem setregWritesOneDuration : Obligations.SetregWritesOneDuration := by
  refine ⟨fun s v => ⟨rfl, rfl, rfl, rfl⟩, fun s w hop => ⟨_, step_withoutCommand s, ?_⟩⟩
  intro sel v
  have hdec : decode w = decodeSetreg (BitVec.ofNat 4 sel) v := decode_setreg hop
  refine ⟨fun h => ?dwell, fun h => ?blinkIvl, fun h => ?scrollIvl, fun h => ?clockIvl⟩ <;> rw [h] at hdec
  case dwell =>
    exact HostWrite.step_presenting (f := setDwell v) (fun _ _ => rfl) (by rw [hdec]; rfl) (by rw [hdec]; rfl)
  case blinkIvl =>
    exact HostWrite.step_presenting (f := setBlinkIvl v) (fun _ _ => rfl) (by rw [hdec]; rfl) (by rw [hdec]; rfl)
  case scrollIvl =>
    exact HostWrite.step_presenting (f := setScrollIvl v) (fun _ _ => rfl) (by rw [hdec]; rfl) (by rw [hdec]; rfl)
  case clockIvl =>
    exact HostWrite.step_presenting (f := setClockIvl v) (fun _ _ => rfl) (by rw [hdec]; rfl) (by rw [hdec]; rfl)

theorem wlen_succ_toNat {s : State} (hinv : BlockInv s) (hroom : s.wlen.toNat < s.cfg.wordMax) :
    (s.wlen + 1).toNat = s.wlen.toNat + 1 := by
  have hmax : s.cfg.wordMax ≤ 124 := hinv.cfgLegal.2.2.1
  rw [BitVec.toNat_add]
  exact Nat.mod_eq_of_lt (by simp; omega)

/-- What WPUSH into a buffer that is not full does to the word (42_commands.md R100). -/
theorem appendWord_word_spec {s t : State} (hinv : BlockInv s) (hroom : s.wlen.toNat < s.cfg.wordMax)
    (hword : t.word = s.word) (hwlen : t.wlen = s.wlen) (c : CharCode) :
    (appendWord c t).wlen.toNat = s.wlen.toNat + 1 ∧ readWord (appendWord c t) s.wlen.toNat = c ∧
      ∀ i, i ≠ s.wlen.toNat → readWord (appendWord c t) i = readWord s i := by
  have hread (i : Nat) := readWord_appendWord c t i (by rw [hwlen, hword, hinv.wordWf.1]; exact hroom)
  refine ⟨?_, ?_, fun i hi => ?_⟩
  · rw [appendWord_wlen, hwlen, wlen_succ_toNat hinv hroom]
  · rw [hread, hwlen, if_pos rfl]
  · rw [hread, hwlen, if_neg hi, readWord_congr hword]

/-- Settles O25: with room the command is the write `appendWord`, which the sequencer step does not meet; a full
buffer rejects it. -/
theorem wpushAppendsOrRejects : Obligations.WpushAppendsOrRejects := by
  intro s w hinv hop c
  refine ⟨fun hroom => ⟨⟨appendWord c s, if_pos hroom, rfl, appendWord_word_spec hinv hroom rfl rfl c⟩, ?cycle⟩,
    fun hfull => ?full⟩
  case cycle =>
    have hdec : decode w = .wpush c := decode_wpush hop
    have hexec : exec (decode w) (timebase s) = .next (appendWord c (timebase s)) := by
      rw [hdec]; exact if_pos hroom
    have hstep := HostWrite.step_presenting (fun _ _ => rfl) (by rw [hdec]; rfl) hexec
    have hframe := sequencerStep_frame s (timebase s)
    exact ⟨_, _, step_withoutCommand s, hstep, rfl, appendWord_word_spec hinv hroom hframe.word hframe.wlen c⟩
  case full =>
    have hexec : exec (.wpush c) s = .next (raiseCmdError causeWordFull s) := if_neg (by omega)
    rw [hexec, raiseCmdError_eq]
    rfl

/-- Settles O28: each reserved word raises its CmdError, and `raiseCmdError_eq` says what that writes. -/
theorem reservedWordsOnlyRecordAnError : Obligations.ReservedWordsOnlyRecordAnError := by
  intro s rejected
  have hraise (code : BitVec 2) : raiseCmdError code s = rejected code := raiseCmdError_eq code s
  refine ⟨?op9, fun low => ?opAB, fun low => ?opCF, fun sel => ?sel, fun hoff => ?sclock⟩
  case op9 => rw [← hraise]; rfl
  case opAB => rw [← hraise]; rfl
  case opCF => rw [← hraise]; rfl
  case sel => rw [← hraise]; rfl
  case sclock => rw [← hraise]; exact if_neg (by simp [hoff])

theorem pad4_getElem (s : State) (i : Fin 4) :
    (pad4 s)[i] = if i.val < s.wlen.toNat then readWord s i.val else 0x20 := by
  fin_cases i <;> rfl

theorem blank4_getElem (i : Fin 4) : blank4[i] = 0x20 := by
  fin_cases i <;> rfl

/-- Settles O31: the meaning by evaluation, the frame by `pad4_getElem`. -/
theorem sstaticShowsThePaddedWord : Obligations.SstaticShowsThePaddedWord := fun s => ⟨_, rfl, rfl, pad4_getElem s⟩

/-- Settles O32: the meaning by evaluation, the frame by `pad4_getElem`. -/
theorem sblinkStartsShowingTheTarget : Obligations.SblinkStartsShowingTheTarget :=
  fun s _ => ⟨_, rfl, rfl, pad4_getElem s⟩

/-- Settles O33: the meaning by evaluation, the frame by `blank4_getElem`. -/
theorem sscrollStartsBlank : Obligations.SscrollStartsBlank := fun _ => ⟨_, rfl, rfl, blank4_getElem⟩

end Sys2Proof.Machine

/-! Which commands and ticks write which elements (10_state.md), and what a cycle does not read
(10_state.md R27, 41_refresh.md R90, 70_reset_and_hazards.md R137). -/

namespace Sys2Proof.Machine

/-! ## The writers of the storage -/

/-- From `s` to `u` the command `i` has written: which part of the storage, only if it is that part's command. -/
structure StorageWriters (i : Instr) (s u : State) : Prop where
  cfg : u.cfg = s.cfg
  word : u.word ≠ s.word → ∃ c, i = .wpush c
  wlen : u.wlen ≠ s.wlen → i = .wrst ∨ ∃ c, i = .wpush c
  tgt : u.tgt ≠ s.tgt → ∃ n, i = .sblink n
  nrep : u.nrep ≠ s.nrep → i = .sblink u.nrep
  dwell : u.dwell ≠ s.dwell → i = .setregDwell u.dwell
  blinkIvl : u.blinkIvl ≠ s.blinkIvl → i = .setregBlinkIvl u.blinkIvl
  scrollIvl : u.scrollIvl ≠ s.scrollIvl → i = .setregScrollIvl u.scrollIvl
  clockIvl : u.clockIvl ≠ s.clockIvl → i = .setregClockIvl u.clockIvl

theorem raiseCmdError_storageWriters (i : Instr) (code : BitVec 2) (s : State) :
    StorageWriters i s (raiseCmdError code s) := by
  constructor <;> simp

theorem exec_storageWriters {i : Instr} {s u : State} (hu : exec i s = .next u) : StorageWriters i s u := by
  by_cases hacc : causeOf s i = 0
  case neg =>
    rw [(exec_of_rejected hacc).2] at hu
    cases hu
    exact raiseCmdError_storageWriters i _ s
  cases i with
  | wpush c =>
    rw [exec, execWpush, if_pos ((causeOf_wpush_eq_zero_iff s c).mp hacc)] at hu
    cases hu
    constructor <;> simp
  | sclock =>
    rw [exec_sclock ((causeOf_sclock_eq_zero_iff s).mp hacc)] at hu
    cases hu
    constructor <;> simp
  | reservedOp9 | reservedOpAB low | reservedOpCF low | reservedSel sel =>
    cases hu
    exact raiseCmdError_storageWriters _ _ s
  | _ => cases hu; constructor <;> simp

/-- Settles O48: the timebase and the sequencer step leave the storage alone, so its writers are the commands'. -/
theorem storageHasOnlyItsWriters : Obligations.StorageHasOnlyItsWriters := by
  intro s
  obtain ⟨t, ht⟩ := step_answers_next s
  refine ⟨t, ht, ?_⟩
  obtain ⟨hr, rfl⟩ | ⟨-, u, hu, rfl⟩ := step_cases ht
  · exact ⟨rfl, fun hr' => by simp [hr] at hr'⟩
  · have hw := exec_storageWriters hu
    have hf := sequencer_frame (currentCommand s) s u
    simp only [advanceInputs_cfg, advanceInputs_word, advanceInputs_wlen, advanceInputs_tgt, advanceInputs_nrep,
      advanceInputs_dwell, advanceInputs_blinkIvl, advanceInputs_scrollIvl, advanceInputs_clockIvl, hf.cfg, hf.word,
      hf.wlen, hf.tgt, hf.nrep, hf.dwell, hf.blinkIvl, hf.scrollIvl, hf.clockIvl]
    exact ⟨hw.cfg, fun _ => ⟨hw.word, hw.wlen, hw.tgt, hw.nrep, hw.dwell, hw.blinkIvl, hw.scrollIvl, hw.clockIvl⟩⟩

/-! ## The writers of the strategy -/

theorem countHalfCycle_pos (r t : State) : (countHalfCycle r t).pos = t.pos := by
  unfold countHalfCycle; split <;> rfl

/-- Only a scroll tick writes POS (43_animation.md R111). -/
theorem tick_pos {r : State} (h : r.mode ≠ .scroll) (t : State) : (tick r t).state.pos = t.pos := by
  cases hmode : r.mode with
  | scroll => exact absurd hmode h
  | idle | static | done => simp [tick, hmode]
  | clock => rw [tick_clock hmode]; rfl
  | blink =>
    rw [tick_blink hmode]
    obtain ⟨-, heq⟩ | ⟨-, -, heq⟩ | ⟨-, -, heq⟩ := tickBlink_cases r t <;> rw [heq] <;> exact countHalfCycle_pos r t

/-- Only a blink tick writes PHASE and HC (43_animation.md R108). -/
theorem tick_phase_hc {r : State} (h : r.mode ≠ .blink) (t : State) :
    (tick r t).state.phase = t.phase ∧ (tick r t).state.hc = t.hc := by
  cases hmode : r.mode with
  | blink => exact absurd hmode h
  | idle | static | done => simp [tick, hmode]
  | clock => rw [tick_clock hmode]; exact ⟨rfl, rfl⟩
  | scroll => rw [tick_scroll hmode]; exact ⟨rfl, rfl⟩

/-- From `s` to `t` the strategy's elements have been written: which of them, only by that element's tick. -/
structure StrategyWriters (s t : State) : Prop where
  mode : t.mode ≠ s.mode ∨ t.done ≠ s.done → s.mode = .blink ∧ t.mode = .done ∧ t.done = true
  pos : t.pos ≠ s.pos → s.mode = .scroll
  blink : t.phase ≠ s.phase ∨ t.hc ≠ s.hc → s.mode = .blink

theorem passEnd_strategyWriters {s u : State} (hu : StrategyKept s u) : StrategyWriters s (passEnd s u) := by
  have hframe := tick_frame s (clearElapsed u)
  have hpos : (tick s (clearElapsed u)).state.pos ≠ s.pos → s.mode = .scroll := fun hne => by
    by_contra hmode
    exact hne ((tick_pos hmode _).trans hu.pos)
  have hblink : (tick s (clearElapsed u)).state.phase ≠ s.phase ∨ (tick s (clearElapsed u)).state.hc ≠ s.hc →
      s.mode = .blink := fun hne => by
    by_contra hmode
    obtain ⟨hphase, hhc⟩ := tick_phase_hc hmode (clearElapsed u)
    exact hne.elim (· (hphase.trans hu.phase)) (· (hhc.trans hu.hc))
  obtain ⟨-, heq⟩ | ⟨-, -, heq⟩ | ⟨-, hmode, -, heq⟩ := passEnd_cases s u <;> rw [heq]
  · constructor <;> simp [hu.mode, hu.done, hu.pos, hu.phase, hu.hc]
  · exact ⟨by simp [hframe.mode, hframe.done, hu.mode, hu.done], hpos, hblink⟩
  · exact ⟨fun _ => ⟨hmode, rfl, rfl⟩, hpos, hblink⟩

theorem step_strategyWriters {s : State} (hinv : BlockInv s) (hsteps : SequencerSteps s) (hend : AtPassEnd s) :
    ∃ t, step s = .next t ∧ StrategyWriters s t := by
  obtain ⟨u, hu, hstep⟩ := step_passEnd hinv hsteps hend
  obtain ⟨hmode, hpos, hblink⟩ := passEnd_strategyWriters hu.strategyKept
  exact ⟨_, hstep, hmode, hpos, hblink⟩

/-- Which elements of the strategy a mode command writes (41_refresh.md R90). -/
theorem exec_modeCommand_writes {i : Instr} {s u : State} (hm : isModeCommand s.cfg.hasClock i = true)
    (hu : exec i s = .next u) : (u.frame ≠ s.frame → i ≠ .clear) ∧ (u.pos ≠ s.pos → i = .sscroll) ∧
      (u.phase ≠ s.phase ∨ u.hc ≠ s.hc → ∃ n, i = .sblink n) := by
  obtain ⟨rfl, rfl⟩ | ⟨rfl, rfl⟩ | ⟨n, rfl, rfl⟩ | ⟨rfl, rfl⟩ | ⟨rfl, -, rfl⟩ := exec_modeCommand hm hu <;> simp

/-- Settles O49, by the kind of the cycle: a mode command, a pass end with the tick due, or any other cycle in which
the sequencer steps, which writes none of these elements. -/
theorem strategyStateHasOnlyItsWriters : Obligations.StrategyStateHasOnlyItsWriters := by
  intro s hinv hr
  cases hm : isModeCommand s.cfg.hasClock (currentCommand s) with
  | true =>
    obtain ⟨u, hu⟩ := exec_answers_next (currentCommand s) (timebase s)
    obtain ⟨hframe, hpos, hblink⟩ := exec_modeCommand_writes (s := timebase s) hm hu
    exact ⟨_, step_of_modeCommand hr hm hu, fun _ => .inl rfl, fun hne => .inl ⟨rfl, hframe hne⟩,
      fun hne => .inl (hpos hne), fun hne => .inl (hblink hne)⟩
  | false =>
    by_cases htick : AtPassEnd s ∧ tickDue s = true
    · obtain ⟨t, ht, hw⟩ := step_strategyWriters hinv ⟨hr, hm⟩ htick.1
      exact ⟨t, ht, fun hne => let ⟨hblink, hdone⟩ := hw.mode hne; .inr ⟨hblink, htick.1, htick.2, hdone⟩,
        fun _ => .inr htick, fun hne => .inr ⟨hw.pos hne, htick⟩, fun hne => .inr ⟨hw.blink hne, htick⟩⟩
    · obtain ⟨t, ht, -, -, hkept, -⟩ := step_of_no_tick hinv ⟨hr, hm⟩ htick
      refine ⟨t, ht, ?_⟩
      simp [hkept.mode, hkept.done, hkept.frame, hkept.pos, hkept.phase, hkept.hc]

/-! ## Non-mode commands and the next outputs (R90) -/

theorem StorageOnly.eq_withHostSide {t u : State} (h : StorageOnly t u) : u = withHostSide u t := by
  obtain ⟨hcfg, hinputs, hcycle, hmode, hseq, hpre, hcnt, hel, hframe, hsnap, htgt, hpos, hphase, hhc, hnrep,
    hdone⟩ := h
  cases u
  cases t
  simp_all [withHostSide]

/-- The cycle of a command that is no mode command is the cycle without a command but for the command's writes. -/
theorem step_presenting_nonMode {s : State} {w : CmdWord} (hm : isModeCommand s.cfg.hasClock (decode w) = false) :
    ∃ a, a.inputs = s.inputs ∧
      step (presenting s w) = .next (advanceInputs (withHostSide a (sequencerStep s (timebase s)))) := by
  obtain ⟨u, hu⟩ := exec_answers_next (decode w) (timebase s)
  have hstorage : StorageOnly (timebase s) u := exec_storageOnly (s := timebase s) hm hu
  refine ⟨u, hstorage.inputs, ?_⟩
  rw [step_presenting hu, sequencer, if_neg (by simp [hm]), ← sequencerStep_withHostSide, ← hstorage.eq_withHostSide]

/-- Settles O50: each of the two cycles is the cycle without a command but for its command's writes. -/
theorem nonModeCommandsLeaveTheNextOutputsAlone : Obligations.NonModeCommandsLeaveTheNextOutputsAlone := by
  intro s v w hv hw
  obtain ⟨a, ha, hstepa⟩ := step_presenting_nonMode hv
  obtain ⟨b, hb, hstepb⟩ := step_presenting_nonMode hw
  refine ⟨_, _, hstepa, hstepb, ?state, rfl, rfl⟩
  case state => simp [advanceInputs, withHostSide, ha, hb]

/-! ## What the sequencer step reads of the state -/

theorem passEnd_congr {r r' : State} (hf : fires r' = fires r) (hframe : r'.frame = r.frame)
    (ht : fires r = true → ∀ k, tick r' k = tick r k) (t : State) : passEnd r' t = passEnd r t := by
  unfold passEnd
  rw [hf, hframe]
  split
  · next hfires => rw [ht hfires]
  · rfl

/-- Two states with the same position, count and DWELL take the same sequencer step if their pass ends agree. -/
theorem sequencerStep_congr {r r' t : State} (hseq : r'.seq = r.seq) (hd : r'.dwell = r.dwell)
    (hc : holdCount r' = holdCount r)
    (hp : r.seq = .hold 3 → r.dwell.toNat ≤ holdCount r → passEnd r' t = passEnd r t) :
    sequencerStep r' t = sequencerStep r t := by
  unfold sequencerStep
  rw [hseq]
  cases hs : r.seq with
  | off => rfl
  | gap p => rfl
  | hold p =>
    simp only [holdStep, hd, hc]
    split
    · next hle =>
      split
      · next h3 => exact hp (h3 ▸ hs) hle
      · rfl
    · rfl

/-! ## The entries of WORD at or above WLEN (10_state.md R27) -/

/-- `s` with the entries `w` in WORD. -/
def withWord (w : List CharCode) (s : State) : State := { s with word := w }

/-- `w` has the length of WORD and the entries of it below WLEN. -/
structure AgreesBelowWlen (s : State) (w : List CharCode) : Prop where
  length : w.length = s.word.length
  entry : ∀ i, i < s.wlen.toNat → w[i]? = s.word[i]?

theorem AgreesBelowWlen.congr {s u : State} {w : List CharCode} (h : AgreesBelowWlen s w) (hword : u.word = s.word)
    (hwlen : u.wlen = s.wlen) : AgreesBelowWlen u w := by
  obtain ⟨hlen, hentry⟩ := h
  rw [← hword] at hlen
  rw [← hword, ← hwlen] at hentry
  exact ⟨hlen, hentry⟩

theorem AgreesBelowWlen.readWord {s : State} {w : List CharCode} (h : AgreesBelowWlen s w) {i : Nat}
    (hi : i < s.wlen.toNat) : readWord (withWord w s) i = readWord s i := by
  unfold Machine.readWord
  rw [List.getD_eq_getElem?_getD, List.getD_eq_getElem?_getD]
  exact congrArg (Option.getD · _) (h.entry i hi)

theorem AgreesBelowWlen.pad4 {s : State} {w : List CharCode} (h : AgreesBelowWlen s w) :
    pad4 (withWord w s) = pad4 s := by
  have hchar (i : Nat) : padChar (withWord w s) i = padChar s i := ite_congr rfl h.readWord fun _ => rfl
  simp only [Machine.pad4, hchar]

theorem AgreesBelowWlen.scrollChar {s : State} {w : List CharCode} (h : AgreesBelowWlen s w) :
    scrollChar (withWord w s) = scrollChar s :=
  ite_congr rfl h.readWord fun _ => rfl

theorem AgreesBelowWlen.append {s : State} {w : List CharCode} (h : AgreesBelowWlen s w) (hinv : BlockInv s)
    (hroom : s.wlen.toNat < s.cfg.wordMax) (c : CharCode) :
    AgreesBelowWlen (appendWord c s) (w.set s.wlen.toNat c) := by
  refine ⟨by simpa using h.length, fun i hi => ?_⟩
  rw [appendWord_wlen, wlen_succ_toNat hinv hroom] at hi
  rw [appendWord_word, List.getElem?_set, List.getElem?_set, h.length]
  split
  · rfl
  · exact h.entry i (by omega)

/-- A command reads the entries below WLEN alone, and a WPUSH writes the same entry in both words. -/
theorem AgreesBelowWlen.exec {i : Instr} {s u : State} {w : List CharCode} (h : AgreesBelowWlen s w)
    (hinv : BlockInv s) (hu : exec i s = .next u) :
    ∃ w', exec i (withWord w s) = .next (withWord w' u) ∧ AgreesBelowWlen u w' := by
  by_cases hacc : causeOf s i = 0
  case neg =>
    rw [(exec_of_rejected hacc).2] at hu
    cases hu
    refine ⟨w, (exec_of_rejected (s := withWord w s) hacc).2.trans ?_, h.congr (by simp) (by simp)⟩
    rw [raiseCmdError_eq, raiseCmdError_eq]
    rfl
  cases i with
  | wpush c =>
    have hroom := (causeOf_wpush_eq_zero_iff s c).mp hacc
    rw [Machine.exec, execWpush, if_pos hroom] at hu
    cases hu
    exact ⟨_, if_pos hroom, h.append hinv hroom c⟩
  | wrst => cases hu; exact ⟨w, rfl, h.length, fun i hi => absurd hi (Nat.not_lt_zero i)⟩
  | sstatic | sblink n =>
    cases hu
    refine ⟨w, ?_, h.congr rfl rfl⟩
    simp only [Machine.exec, execSstatic, execSblink, h.pad4]
    rfl
  | sclock =>
    have hon := (causeOf_sclock_eq_zero_iff s).mp hacc
    rw [exec_sclock hon] at hu
    cases hu
    exact ⟨w, exec_sclock hon, h.congr rfl rfl⟩
  | reservedOp9 | reservedOpAB low | reservedOpCF low | reservedSel sel =>
    simp [causeOf, causeReservedOpcode, causeReservedSelector] at hacc
  | _ => cases hu; exact ⟨w, rfl, h.congr rfl rfl⟩

theorem AgreesBelowWlen.sequencerStep {r t : State} {w : List CharCode} (h : AgreesBelowWlen r w)
    (w' : List CharCode) :
    sequencerStep (withWord w r) (withWord w' t) = withWord w' (sequencerStep r t) := by
  have htick (k : State) : tick (withWord w r) k = tick r k := by
    cases hmode : r.mode with
    | scroll =>
      rw [tick_scroll hmode, tick_scroll (r := withWord w r) hmode, tickScroll, tickScroll, h.scrollChar]
      rfl
    | blink => rw [tick_blink hmode, tick_blink (r := withWord w r) hmode]; rfl
    | clock => rw [tick_clock hmode, tick_clock (r := withWord w r) hmode]; rfl
    | idle | static | done => simp only [tick, withWord, hmode]
  have hreads : Machine.sequencerStep (withWord w r) t = Machine.sequencerStep r t :=
    sequencerStep_congr rfl rfl rfl fun _ _ =>
      passEnd_congr (r := r) (r' := withWord w r) rfl rfl (fun _ => htick) t
  rw [HostWrite.sequencerStep (f := withWord w') fun _ _ => rfl, hreads]

/-- Settles O51: the command and the scroll tick read WORD below WLEN alone, where the two words agree before and after
the cycle. -/
theorem entriesAboveWlenAreNeverRead : Obligations.EntriesAboveWlenAreNeverRead := by
  intro s other hinv hlen hentry
  have h : AgreesBelowWlen s other := ⟨hlen, hentry⟩
  cases hr : (pins s).rst with
  | true =>
    exact ⟨_, _, step_of_reset hr, step_of_reset (s := withWord other s) hr, rfl, hlen,
      fun i hi => absurd hi (Nat.not_lt_zero i), rfl, rfl, rfl⟩
  | false =>
    obtain ⟨u, hu⟩ := exec_answers_next (currentCommand s) (timebase s)
    obtain ⟨w', hu', hagree⟩ := AgreesBelowWlen.exec (s := timebase s) (h.congr rfl rfl) hinv.timebase hu
    have hseq : sequencer (currentCommand s) (withWord other s) (withWord w' u) =
        withWord w' (sequencer (currentCommand s) s u) := by
      unfold sequencer
      rw [h.sequencerStep]
      exact (apply_ite (withWord w') ..).symm
    have hframe := sequencer_frame (currentCommand s) s u
    have hagree' := hagree.congr hframe.word hframe.wlen
    have hstep : step (withWord other s) =
        .next (advanceInputs (withWord w' (sequencer (currentCommand s) s u))) := by
      rw [← hseq]
      exact step_of_exec (s := withWord other s) hr hu'
    exact ⟨_, _, step_of_exec hr hu, hstep, rfl, hagree'.length, hagree'.entry, rfl, rfl, rfl⟩

/-! ## The time inputs (70_reset_and_hazards.md R137) -/

/-- Only SCLOCK reads the pins, and only where it is no reserved word. -/
theorem exec_withPins_of_not_sclock {c : Instr} {t u : State} (i : Inputs)
    (hc : ¬(c = .sclock ∧ t.cfg.hasClock = true)) (hu : exec c t = .next u) :
    exec c (withPins t i) = .next (withPins u i) := by
  by_cases hacc : causeOf t c = 0
  case neg =>
    rw [(exec_of_rejected hacc).2] at hu
    cases hu
    rw [(exec_of_rejected (s := withPins t i) hacc).2, raiseCmdError_withPins]
    rfl
  cases c with
  | wpush c =>
    have hroom := (causeOf_wpush_eq_zero_iff t c).mp hacc
    rw [exec, execWpush, if_pos hroom] at hu
    cases hu
    exact if_pos hroom
  | sclock => exact absurd ⟨rfl, (causeOf_sclock_eq_zero_iff t).mp hacc⟩ hc
  | reservedOp9 | reservedOpAB low | reservedOpCF low | reservedSel sel =>
    simp [causeOf, causeReservedOpcode, causeReservedSelector] at hacc
  | _ => cases hu; rfl

/-- Only a firing clock pass end reads the pins. -/
theorem sequencerStep_withPins_of_not_clockTick {s : State} (i : Inputs) (hT : 1 ≤ s.cfg.tbCycles)
    (h : ¬(s.mode = .clock ∧ AtPassEnd s ∧ tickDue s = true)) (t : State) :
    sequencerStep (withPins s i) (withPins t i) = withPins (sequencerStep s t) i := by
  have hreads : sequencerStep (withPins s i) t = sequencerStep s t := by
    refine sequencerStep_congr rfl rfl rfl fun hseq hd =>
      passEnd_congr (r := s) (r' := withPins s i) rfl rfl (fun hf k => ?_) t
    have hend : AtPassEnd s := ⟨hseq, holdCount_eq s hT ▸ hd⟩
    cases hmode : s.mode with
    | clock => exact absurd ⟨hmode, hend, fires_eq_tickDue s hT ▸ hf⟩ h
    | blink => rw [tick_blink hmode, tick_blink (r := withPins s i) hmode]; rfl
    | scroll => rw [tick_scroll hmode, tick_scroll (r := withPins s i) hmode]; rfl
    | idle | static | done => simp only [tick, withPins, hmode]
  rw [HostWrite.sequencerStep (f := fun u => withPins u i) fun _ _ => rfl, hreads]

/-- Settles O52: without an executed SCLOCK the command does not read the pins, and without a firing clock pass end
the sequencer does not; the cycle ends by dropping its sample. -/
theorem timeInputsAreReadOnlyByTheClock : Obligations.TimeInputsAreReadOnlyByTheClock := by
  intro s hour min hinv hsclock htick
  generalize hi : ({ pins s with todHour := hour, todMin := min } : Inputs) = i
  have hrst : i.rst = (pins s).rst := by rw [← hi]
  have hcmd : currentCommand (withPins s i) = currentCommand s := by rw [← hi]; rfl
  cases hr : (pins s).rst with
  | true => exact ⟨_, step_of_reset hr, (step_of_reset (s := withPins s i) (hrst.trans hr)).trans rfl⟩
  | false =>
    obtain ⟨u, hu⟩ := exec_answers_next (currentCommand s) (timebase s)
    have hu' := exec_withPins_of_not_sclock i (t := timebase s) (fun h => hsclock ⟨hr, h⟩) hu
    have hstep := step_of_exec (s := withPins s i) (hrst.trans hr) (hcmd ▸ hu')
    refine ⟨_, step_of_exec hr hu, hstep.trans ?_⟩
    rw [hcmd]
    unfold sequencer
    rw [withPins_cfg]
    cases hm : isModeCommand s.cfg.hasClock (currentCommand s) with
    | true => rfl
    | false =>
      have hno : ¬(s.mode = .clock ∧ AtPassEnd s ∧ tickDue s = true) := fun h => htick ⟨⟨hr, hm⟩, h⟩
      rw [sequencerStep_withPins_of_not_clockTick i hinv.cfgLegal.1 hno]
      rfl

end Sys2Proof.Machine
